-- ==== Sys2Proof/Word.lean ====
section
/-! DEFINITION. The word types of the engine: a state byte, a permutation lane, a command, length or
status word (00_scope R8, 10_state R28, 20_memory R66). -/

namespace Sys2Proof

/-- A byte, an unsigned value 0..255 (R8). -/
abbrev Byte := BitVec 8

/-- A lane of the permutation, 64 bits (R28). -/
abbrev Lane := BitVec 64

/-- A command word, length word or status word, 32 bits (R66). -/
abbrev Word := BitVec 32

end Sys2Proof
end

