-- ==== Sys2Proof/Config.lean ====
section
/-! DEFINITION. What the spec leaves to an implementation. Every other parameter of 00_scope R7 is
fixed by the spec and stands where it is used (Machine/Permutation.lean, Machine/Ops.lean,
Machine/Control.lean). -/

namespace Sys2Proof

/-- The duration of a command, `latency(CMDW, LEN, R)`, a natural number of time units (70 R351,
92 D20). It has no body: nothing of the model or of its proofs can depend on a value of it, and no
rule of the spec does. Log 10. -/
opaque Config.latency : Word → Word → Byte → Nat

/-- The number of state bytes, N = 1600 bits (00_scope R7, 10_state R20). -/
abbrev Config.stateBytes : Nat := 200

end Sys2Proof
end

