-- ==== Sys2Proof/Syntax.lean ====
section
/-! DEFINITION. The commands of the engine: the triple the host sends (30_encoding R90), and the
thirteen instructions of spec/opcode_table.json, one constructor per row. -/

namespace Sys2Proof

/-- A command triple `(CMDW, LEN, DATA)` (R90). -/
structure Command where
  /-- The command word CMDW (R91). -/
  cmdw : Word
  /-- The length word LEN (R101). -/
  len  : Word
  /-- The data-in byte string DATA. -/
  data : List Byte
  deriving DecidableEq, Repr

/-- What happens to the engine from outside: the host issues a command (R90), or reset is asserted
(R340), which finds the engine between two commands or with a command in progress. -/
inductive HostEvent where
  /-- A command, which runs to its response. -/
  | command (c : Command)
  /-- Reset between two commands. -/
  | reset
  /-- Reset that arrives while `c` is in progress: `c` "is abandoned with no response" (R340). -/
  | resetDuring (c : Command)
  deriving DecidableEq, Repr

/-- Whether an event is a reset (R340). -/
def HostEvent.isReset : HostEvent → Bool
  | .command _ => false
  | .reset => true
  | .resetDuring _ => true

/-- The instructions: the ten operations of R96 and the three control commands of R98. `m` is the meta
option (flag M, R93), `more` is MORE (R91), `data` is DATA and `len` is LEN (R99, R101). An instruction
that carries `data` has LEN = the length of `data`. -/
inductive Instr where
  /-- AD, R220. -/
  | ad (m more : Bool) (data : List Byte)
  /-- KEY, R221. -/
  | key (more : Bool) (data : List Byte)
  /-- PRF, R222. -/
  | prf (more : Bool) (len : Word)
  /-- SEND_CLR, R223. -/
  | sendClr (m more : Bool) (data : List Byte)
  /-- RECV_CLR, R224. -/
  | recvClr (m more : Bool) (data : List Byte)
  /-- SEND_ENC, R225. -/
  | sendEnc (m more : Bool) (data : List Byte)
  /-- RECV_ENC, R226. -/
  | recvEnc (m more : Bool) (data : List Byte)
  /-- SEND_MAC, R227. -/
  | sendMac (m more : Bool) (len : Word)
  /-- RECV_MAC, R228. MORE = 1 matches the row too, and faults when it runs (R97, R306). -/
  | recvMac (m more : Bool) (data : List Byte)
  /-- RATCHET, R229. MORE = 1 does not match the row (R97). -/
  | ratchet (m : Bool) (len : Word)
  /-- INIT, R260: the level ARG in bits, and the protocol string. -/
  | init (level : BitVec 16) (proto : List Byte)
  /-- SAVE, R267. -/
  | save
  /-- LOAD, R269: the image. -/
  | load (img : List Byte)
  deriving DecidableEq, Repr

/-- Why a command word names no command: the illegal and reserved classes of R106, one constructor for
each check of R313 that the word alone decides. -/
inductive IllegalWord where
  /-- CMD in 4..15 (R94, R106 item 2). -/
  | reservedClass
  /-- RSV is not 0. -/
  | reservedBits
  /-- INIT with a bit of CMDW[9:0] set. -/
  | initBits
  /-- SAVE with a bit of CMDW[9:0], ARG or LEN not 0. -/
  | saveFields
  /-- LOAD with a bit of CMDW[9:0] or ARG not 0. -/
  | loadFields
  /-- An operation with ARG not 0. -/
  | opArg
  /-- SRC = 1 with a flag word `output` cannot produce (R106 item 4, R307). -/
  | outputFlags
  /-- K, bit 6 or bit 7 set (R106 item 3, R303). -/
  | reservedFlag
  /-- A flag word and SRC that are no row of R96 (R106 item 5). -/
  | unnamedFlags
  /-- RATCHET with MORE = 1 (R97). -/
  | ratchetMore
  deriving DecidableEq, Repr

/-- Why the decoder gives no instruction: the triple is not a command at all (R90, R348), or its
command word names none (R106). -/
inductive Reject where
  | misframed
  | illegal (why : IllegalWord)
  deriving DecidableEq, Repr

end Sys2Proof
end

