-- ==== Sys2Proof/Machine/State.lean ====
section
/-! DEFINITION. The state of the engine: the context (10_state R20), the two status registers (R30,
R31), and the host's command and response channel (00_scope R10). Reset (R38, R340). -/

namespace Sys2Proof.Machine

/-- `i0`, the role of this party (R20, R27). The value 3 is never held, so it has no constructor. -/
inductive Role where
  | undecided
  | initiator
  | responder
  deriving DecidableEq, Repr

/-- `ESTATE`, the engine status register (R30). The value 3 is never held. -/
inductive EngineStatus where
  | uninit
  | ready
  | faulted
  deriving DecidableEq, Repr

/-- `FCODE`, the fault code register (R31), with the codes of R312. The values 8..255 are never held. -/
inductive FaultCode where
  | none
  | reservedFlag
  /-- Reserved for `cbefore` and `cafter` both set; never raised (R304, R161). -/
  | duplexConflict
  | streamMismatch
  | macStreaming
  | outputFlags
  | unnamedCommand
  | notReady
  deriving DecidableEq, Repr

/-- The result code of a command (30_encoding R105). The values 0x06..0xFF are never produced. -/
inductive Result where
  | ok
  | authFailed
  | invalidSecurityLevel
  | invalidImage
  | fault
  | refusedFaulted
  deriving DecidableEq, Repr

/-- The context: the state of one STROBE instance, exactly the seven elements of R20. `lanes` is a view
of `st` (R28) and is computed in Machine/Permutation.lean. -/
structure Context where
  /-- The 200-byte sponge state (R21). -/
  st : Vector Byte Config.stateBytes
  /-- Index of the state byte the next data byte meets (R22). -/
  pos : Byte
  /-- Where the current operation began in the current block (R23). -/
  posBegin : Byte
  /-- `R`, the rate in bytes (R24). -/
  rate : Byte
  /-- Flag word of the operation in progress (R25). -/
  curFlags : Byte
  /-- False only during the bootstrap (R26). -/
  initialized : Bool
  /-- Role of this party (R27). -/
  i0 : Role
  deriving DecidableEq, Repr

/-- A response `(STATUS, OUT)` (30_encoding R102). -/
structure Response where
  status : Word
  out : List Byte
  deriving DecidableEq, Repr

/-- The state of one engine. `inbox` (the events the host has issued and the engine has not taken yet,
oldest first) and `response` (the answer to the last command) are the command and response channel of
R10; they are the model's own fields (log 1). -/
structure State where
  ctx : Context
  estate : EngineStatus
  fcode : FaultCode
  inbox : List HostEvent
  response : Option Response
  deriving DecidableEq, Repr

/-- Reasons the machine stops. None is a fault of the engine: those are next states (R309). -/
inductive Fault where
  /-- Raised by the ten operations when `pos < R <= 198` does not hold, so that the rules would form a
  state index outside 0..199, which "is never formed" (20_memory R61). No run from reset reaches such
  a state (R29). Safe: the model stops. Log 4. -/
  | stateIndex
  deriving DecidableEq, Repr

/-- Reasons the machine gives no next state. -/
inductive Refusal where
  /-- Raised by `exec` for an instruction that has no meaning yet. No arm raises it. Safe. -/
  | notModelled (mnemonic : String)
  /-- Raised by `step` when the host has issued nothing: the engine "has no other step" (R10). Safe:
  the model stops until the host issues a command. Log 2. -/
  | noCommand
  /-- Raised by `step` for a triple whose DATA length is not the one R90 gives: "not a command", and
  "the spec does not define what the engine does then" (R348). Safe. Log 3. -/
  | malformedCommand
  deriving DecidableEq, Repr

/-- The context after reset (R38): every element zero. -/
def Context.reset : Context :=
  { st := Vector.replicate Config.stateBytes 0
    pos := 0
    posBegin := 0
    rate := 0
    curFlags := 0
    initialized := false
    i0 := .undecided }

/-- The machine right after reset (R38, R340): UNINIT, no fault code, a zero context. Nothing has been
issued and nothing answered (logs 1 and 5). -/
def State.reset : State :=
  { ctx := Context.reset
    estate := .uninit
    fcode := .none
    inbox := []
    response := none }

end Sys2Proof.Machine
end

