-- ==== Sys2Proof/Machine/Flags.lean ====
section
/-! DEFINITION. The flag byte (30_encoding R92), the operations' flag words (R96), and everything the
rules compute from a flag word: role binding and mask (42_operate R182, R183), the phases (R186), the
result class (R187), and the two flag checks of 60_exceptions R313. -/

namespace Sys2Proof.Machine

/-- I: inbound (R92). -/
def flagI : Byte := 0x01
/-- A: application (R92). -/
def flagA : Byte := 0x02
/-- C: cipher (R92). -/
def flagC : Byte := 0x04
/-- T: transport (R92). -/
def flagT : Byte := 0x08
/-- M: meta (R92). -/
def flagM : Byte := 0x10
/-- K: keytree, must be zero (R92, R3). -/
def flagK : Byte := 0x20

/-- `flags.X`: bit X of a flag word, as a Boolean (00_scope R9). -/
def hasFlag (flags bit : Byte) : Bool := flags &&& bit != 0

/-- The base flag words of the ten operations (R96). -/
def flagsAd : Byte := flagA
def flagsKey : Byte := flagA ||| flagC
def flagsPrf : Byte := flagI ||| flagA ||| flagC
def flagsSendClr : Byte := flagA ||| flagT
def flagsRecvClr : Byte := flagI ||| flagA ||| flagT
def flagsSendEnc : Byte := flagA ||| flagC ||| flagT
def flagsRecvEnc : Byte := flagI ||| flagA ||| flagC ||| flagT
def flagsSendMac : Byte := flagC ||| flagT
def flagsRecvMac : Byte := flagI ||| flagC ||| flagT
def flagsRatchet : Byte := flagC

/-- "The `M` bit is OR-ed into the base flags when `meta` is set, never otherwise" (R93). -/
def withMeta (base : Byte) (m : Bool) : Byte := if m then base ||| flagM else base

/-- The precondition of `output` fails: inbound and transport, or application without inbound (R307). -/
def outputForbidden (flags : Byte) : Bool := flags &&& 0x09 == 0x09 || flags &&& 0x03 == 0x02

/-- K, bit 6 or bit 7 is set (R303, R180). -/
def reservedSet (flags : Byte) : Bool := flags &&& 0xE0 != 0

/-- Role binding (R182): an operation with T binds an undecided role, Initiator when I is 0 and
Responder when I is 1. A bound role is never written again. -/
def bindRole (flags : Byte) (i0 : Role) : Role :=
  if hasFlag flags flagT then
    match i0 with
    | .undecided => if hasFlag flags flagI then .responder else .initiator
    | .initiator => .initiator
    | .responder => .responder
  else i0

/-- The framing flag byte `fl` (R183): a Responder's operation with T frames with bit I inverted. `i0`
is the role after binding. The flip, not the clear, by 90_conflicts C1. -/
def framingFlags (flags : Byte) (i0 : Role) : Byte :=
  if hasFlag flags flagT && i0 == .responder then flags ^^^ flagI else flags

/-- `cafter`, send with cipher (R186). -/
def phaseAfter (flags : Byte) : Bool := flags &&& 0x0D == 0x0C

/-- `cbefore`, receive with cipher or cipher-only consumer (R186). -/
def phaseBefore (flags : Byte) : Bool := hasFlag flags flagC && !phaseAfter flags

/-- The result classes of R187. -/
inductive ResultClass where
  | payload
  | verify
  | noPayload
  deriving DecidableEq, Repr

/-- The result class of an operation, first matching line of R187, on the caller's flags (R191). -/
def resultClass (flags : Byte) : ResultClass :=
  if flags &&& 0x03 == 0x03 then .payload
  else if flags &&& 0x09 == 0x08 then .payload
  else if flags &&& 0x0B == 0x09 then .verify
  else .noPayload

/-- The numeric values of `i0` (10_state R20): 0 Undecided, 1 Initiator, 2 Responder. -/
def roleByte : Role → Byte
  | .undecided => 0
  | .initiator => 1
  | .responder => 2

/-- The role a numeric value of `i0` stands for; 3 and above stand for none (R27). -/
def roleOfByte (b : Byte) : Option Role :=
  if b = 0 then some .undecided
  else if b = 1 then some .initiator
  else if b = 2 then some .responder
  else none

/-- The numeric value of ESTATE (R30). -/
def statusBits : EngineStatus → BitVec 2
  | .uninit => 0
  | .ready => 1
  | .faulted => 2

/-- The numeric value of FCODE (R312). -/
def faultByte : FaultCode → Byte
  | .none => 0
  | .reservedFlag => 1
  | .duplexConflict => 2
  | .streamMismatch => 3
  | .macStreaming => 4
  | .outputFlags => 5
  | .unnamedCommand => 6
  | .notReady => 7

/-- The numeric value of RESULT (R105). -/
def resultByte : Result → Byte
  | .ok => 0
  | .authFailed => 1
  | .invalidSecurityLevel => 2
  | .invalidImage => 3
  | .fault => 4
  | .refusedFaulted => 5

/-- The status word (R103, R104): RESULT in 7:0, FCODE in 15:8, ESTATE in 17:16, zero above. -/
def statusWord (r : Result) (f : FaultCode) (e : EngineStatus) : Word :=
  (resultByte r).setWidth 32 ||| ((faultByte f).setWidth 32 <<< 8) |||
    ((statusBits e).setWidth 32 <<< 16)

/-- The code a command word that names no command faults with (R313, R303, R307, R308). -/
def illegalCode : IllegalWord → FaultCode
  | .reservedClass => .unnamedCommand
  | .reservedBits => .unnamedCommand
  | .initBits => .unnamedCommand
  | .saveFields => .unnamedCommand
  | .loadFields => .unnamedCommand
  | .opArg => .unnamedCommand
  | .outputFlags => .outputFlags
  | .reservedFlag => .reservedFlag
  | .unnamedFlags => .unnamedCommand
  | .ratchetMore => .unnamedCommand

/-- Whether R313 checks a class of illegal word before it asks whether the engine is UNINIT. The four
classes that need a legal operation word come after NOT_READY. -/
def checkedBeforeReady : IllegalWord → Bool
  | .reservedClass => true
  | .reservedBits => true
  | .initBits => true
  | .saveFields => true
  | .loadFields => true
  | .opArg => true
  | .outputFlags => false
  | .reservedFlag => false
  | .unnamedFlags => false
  | .ratchetMore => false

end Sys2Proof.Machine
end

