-- ==== Sys2Proof/WellFormed.lean ====
section
/-! DEFINITION. Which instructions a command word, length word and data stream can carry. -/

namespace Sys2Proof

/-- A byte string that LEN can count: at most 2^32 - 1 bytes (30_encoding R90, R101). -/
def fitsLen (data : List Byte) : Bool := decide (data.length < 2 ^ 32)

/-- An instruction is well-formed when its data fits the length word. Every other operand takes every
value of its type: M, MORE, LEN (R101: "LEN = 0 is legal for every operation") and ARG (R98: "Any ARG
value that is not 128 or 256 is a well-formed INIT"). -/
def Instr.wellFormed : Instr → Bool
  | .ad _ _ data => fitsLen data
  | .key _ data => fitsLen data
  | .prf _ _ => true
  | .sendClr _ _ data => fitsLen data
  | .recvClr _ _ data => fitsLen data
  | .sendEnc _ _ data => fitsLen data
  | .recvEnc _ _ data => fitsLen data
  | .sendMac _ _ _ => true
  | .recvMac _ _ data => fitsLen data
  | .ratchet _ _ => true
  | .init _ proto => fitsLen proto
  | .save => true
  | .load img => fitsLen img

end Sys2Proof
end

