-- ==== Sys2Proof/Decode.lean ====
section
/-! DEFINITION. The command encoding (30_encoding R90 to R98, R106, R107): the fields of the command
word, the decoder (total; it rejects by name), the encoder, the byte transport (20_memory R66), and the
opcode table. -/

namespace Sys2Proof

open Sys2Proof.Machine

/-! ## Fields of the command word (R91) -/

/-- FLAGS = CMDW[7:0]. -/
def wordFlags (w : Word) : Byte := w.extractLsb' 0 8
/-- MORE = CMDW[8]. -/
def wordMore (w : Word) : Bool := w.getLsbD 8
/-- SRC = CMDW[9]. -/
def wordSrc (w : Word) : Bool := w.getLsbD 9
/-- RSV = CMDW[11:10]. -/
def wordRsv (w : Word) : BitVec 2 := w.extractLsb' 10 2
/-- CMD = CMDW[15:12]. -/
def wordCmd (w : Word) : BitVec 4 := w.extractLsb' 12 4
/-- ARG = CMDW[31:16]. -/
def wordArg (w : Word) : BitVec 16 := w.extractLsb' 16 16
/-- CMDW[9:0]: FLAGS, MORE and SRC, which are zero in a control command (R98). -/
def wordLow (w : Word) : BitVec 10 := w.extractLsb' 0 10

/-- Whether a command carries data-in; it depends on the command word alone (R90). -/
def takesData (w : Word) : Bool :=
  (wordCmd w == 0 && !wordSrc w) || wordCmd w == 1 || wordCmd w == 3

/-- A triple is a command when DATA has LEN bytes if the command takes data-in, and none otherwise
(R90). -/
def framed (c : Command) : Bool :=
  c.data.length == (if takesData c.cmdw then c.len.toNat else 0)

/-! ## The decoder -/

/-- The row of R96 that a flag word and SRC name, with M admitted where the row admits it. -/
def decodeRow (flags : Byte) (src more : Bool) (c : Command) : Except IllegalWord Instr :=
  let m := hasFlag flags flagM
  if src then
    if flags = flagsPrf then .ok (.prf more c.len)
    else if flags = withMeta flagsSendMac m then .ok (.sendMac m more c.len)
    else if flags = withMeta flagsRatchet m then
      if more then .error .ratchetMore else .ok (.ratchet m c.len)
    else .error .unnamedFlags
  else
    if flags = withMeta flagsAd m then .ok (.ad m more c.data)
    else if flags = flagsKey then .ok (.key more c.data)
    else if flags = withMeta flagsSendClr m then .ok (.sendClr m more c.data)
    else if flags = withMeta flagsRecvClr m then .ok (.recvClr m more c.data)
    else if flags = withMeta flagsSendEnc m then .ok (.sendEnc m more c.data)
    else if flags = withMeta flagsRecvEnc m then .ok (.recvEnc m more c.data)
    else if flags = withMeta flagsRecvMac m then .ok (.recvMac m more c.data)
    else .error .unnamedFlags

/-- An operation word (CMD = 0): the checks of R313 from ARG down to the row. -/
def decodeOp (c : Command) : Except IllegalWord Instr :=
  if wordArg c.cmdw ≠ 0 then .error .opArg
  else if wordSrc c.cmdw && outputForbidden (wordFlags c.cmdw) then .error .outputFlags
  else if reservedSet (wordFlags c.cmdw) then .error .reservedFlag
  else decodeRow (wordFlags c.cmdw) (wordSrc c.cmdw) (wordMore c.cmdw) c

/-- The instruction a command names, or the first check of R313 that its word fails. -/
def decodeWord (c : Command) : Except IllegalWord Instr :=
  if 3 < wordCmd c.cmdw then .error .reservedClass
  else if wordRsv c.cmdw ≠ 0 then .error .reservedBits
  else if wordCmd c.cmdw = 1 then
    if wordLow c.cmdw ≠ 0 then .error .initBits else .ok (.init (wordArg c.cmdw) c.data)
  else if wordCmd c.cmdw = 2 then
    if wordLow c.cmdw ≠ 0 ∨ wordArg c.cmdw ≠ 0 ∨ c.len ≠ 0 then .error .saveFields else .ok .save
  else if wordCmd c.cmdw = 3 then
    if wordLow c.cmdw ≠ 0 ∨ wordArg c.cmdw ≠ 0 then .error .loadFields else .ok (.load c.data)
  else decodeOp c

/-- The decoder, total on every triple: a triple whose DATA does not fit is no command (R90, R348). -/
def decode (c : Command) : Except Reject Instr :=
  if framed c then
    match decodeWord c with
    | .ok i => .ok i
    | .error why => .error (.illegal why)
  else .error .misframed

/-! ## The encoder -/

/-- The command word of an operation: FLAGS, MORE and SRC (R91, R96). -/
def opWord (flags : Byte) (more src : Bool) : Word :=
  flags.setWidth 32 ||| (if more then 0x100 else 0) ||| (if src then 0x200 else 0)

/-- The command word of INIT: CMD = 1 and the level in ARG (R98). -/
def initWord (level : BitVec 16) : Word := 0x1000 ||| (level.setWidth 32 <<< 16)

/-- The command word of an instruction (R96, R98). -/
def encodeWord : Instr → Word
  | .ad m more _ => opWord (withMeta flagsAd m) more false
  | .key more _ => opWord flagsKey more false
  | .prf more _ => opWord flagsPrf more true
  | .sendClr m more _ => opWord (withMeta flagsSendClr m) more false
  | .recvClr m more _ => opWord (withMeta flagsRecvClr m) more false
  | .sendEnc m more _ => opWord (withMeta flagsSendEnc m) more false
  | .recvEnc m more _ => opWord (withMeta flagsRecvEnc m) more false
  | .sendMac m more _ => opWord (withMeta flagsSendMac m) more true
  | .recvMac m more _ => opWord (withMeta flagsRecvMac m) more false
  | .ratchet m _ => opWord (withMeta flagsRatchet m) false true
  | .init level _ => initWord level
  | .save => 0x2000
  | .load _ => 0x3000

/-- The data-in of an instruction (R90). -/
def dataIn : Instr → List Byte
  | .ad _ _ data => data
  | .key _ data => data
  | .prf _ _ => []
  | .sendClr _ _ data => data
  | .recvClr _ _ data => data
  | .sendEnc _ _ data => data
  | .recvEnc _ _ data => data
  | .sendMac _ _ _ => []
  | .recvMac _ _ data => data
  | .ratchet _ _ => []
  | .init _ proto => proto
  | .save => []
  | .load img => img

/-- The length word of an instruction (R101): the length of its data-in, or its LEN operand. -/
def encodeLen : Instr → Word
  | .ad _ _ data => BitVec.ofNat 32 data.length
  | .key _ data => BitVec.ofNat 32 data.length
  | .prf _ len => len
  | .sendClr _ _ data => BitVec.ofNat 32 data.length
  | .recvClr _ _ data => BitVec.ofNat 32 data.length
  | .sendEnc _ _ data => BitVec.ofNat 32 data.length
  | .recvEnc _ _ data => BitVec.ofNat 32 data.length
  | .sendMac _ _ len => len
  | .recvMac _ _ data => BitVec.ofNat 32 data.length
  | .ratchet _ len => len
  | .init _ proto => BitVec.ofNat 32 proto.length
  | .save => 0
  | .load img => BitVec.ofNat 32 img.length

/-- The command an instruction is sent as (R90, R96, R98). -/
def encode (i : Instr) : Command := { cmdw := encodeWord i, len := encodeLen i, data := dataIn i }

/-! ## The byte transport (R66, R107) -/

/-- The four bytes of a word, least significant first (R66). -/
def wordBytes (w : Word) : List Byte :=
  [w.extractLsb' 0 8, w.extractLsb' 8 8, w.extractLsb' 16 8, w.extractLsb' 24 8]

/-- The word of four bytes, least significant first (R66). -/
def wordOfBytes (b0 b1 b2 b3 : Byte) : Word := b3 ++ b2 ++ b1 ++ b0

/-- A command on a byte transport: 8 bytes, then DATA (R107). -/
def commandBytes (c : Command) : List Byte := wordBytes c.cmdw ++ wordBytes c.len ++ c.data

/-- The first command of a byte stream, and the bytes after it: "a decoder knows the length from the
first 8 bytes" (R107). None when the stream ends inside the command. -/
def parseCommand : List Byte → Option (Command × List Byte)
  | b0 :: b1 :: b2 :: b3 :: b4 :: b5 :: b6 :: b7 :: rest =>
    let cmdw := wordOfBytes b0 b1 b2 b3
    let len := wordOfBytes b4 b5 b6 b7
    let n := if takesData cmdw then len.toNat else 0
    if n ≤ rest.length then
      some ({ cmdw := cmdw, len := len, data := rest.take n }, rest.drop n)
    else none
  | _ => none

/-! ## The opcode table -/

/-- The mnemonic of an instruction in spec/opcode_table.json. -/
def mnemonic : Instr → String
  | .ad _ _ _ => "AD"
  | .key _ _ => "KEY"
  | .prf _ _ => "PRF"
  | .sendClr _ _ _ => "SEND_CLR"
  | .recvClr _ _ _ => "RECV_CLR"
  | .sendEnc _ _ _ => "SEND_ENC"
  | .recvEnc _ _ _ => "RECV_ENC"
  | .sendMac _ _ _ => "SEND_MAC"
  | .recvMac _ _ _ => "RECV_MAC"
  | .ratchet _ _ => "RATCHET"
  | .init _ _ => "INIT"
  | .save => "SAVE"
  | .load _ => "LOAD"

/-- A row of spec/opcode_table.json: a command word matches it when its bits under `mask` are
`bits`. -/
structure OpcodeRow where
  name : String
  bits : Word
  mask : Word
  deriving DecidableEq, Repr

/-- The thirteen rows of spec/opcode_table.json, match and mask as the table has them. -/
def opcodeTable : List OpcodeRow :=
  [⟨"AD", 0x00000002, 0xFFFFFEEF⟩,
   ⟨"KEY", 0x00000006, 0xFFFFFEFF⟩,
   ⟨"PRF", 0x00000207, 0xFFFFFEFF⟩,
   ⟨"SEND_CLR", 0x0000000A, 0xFFFFFEEF⟩,
   ⟨"RECV_CLR", 0x0000000B, 0xFFFFFEEF⟩,
   ⟨"SEND_ENC", 0x0000000E, 0xFFFFFEEF⟩,
   ⟨"RECV_ENC", 0x0000000F, 0xFFFFFEEF⟩] ++
  [⟨"SEND_MAC", 0x0000020C, 0xFFFFFEEF⟩,
   ⟨"RECV_MAC", 0x0000000D, 0xFFFFFEEF⟩,
   ⟨"RATCHET", 0x00000204, 0xFFFFFFEF⟩,
   ⟨"INIT", 0x00001000, 0x0000FFFF⟩,
   ⟨"SAVE", 0x00002000, 0xFFFFFFFF⟩,
   ⟨"LOAD", 0x00003000, 0xFFFFFFFF⟩]

/-- A command word matches a row of the table. -/
def OpcodeRow.covers (r : OpcodeRow) (w : Word) : Bool := w &&& r.mask == r.bits

/-! ## The host's probe -/

/-- The command whose bits are `w`, numbered as spec/opcode_table.json numbers them: CMDW is bits 31:0,
LEN bits 63:32, DATA above, and every bit from `nbits` up is 0. The bytes are laid out as R66 and R107
say, and parsed by the decoder of the byte transport. -/
def tableCommand (nbits w : Nat) : Option Command :=
  let v := w % 2 ^ nbits
  let n := if takesData (BitVec.ofNat 32 v) then v / 2 ^ 32 % 2 ^ 32 else 0
  (parseCommand ((List.range (8 + n)).map fun i => BitVec.ofNat 8 (v / 2 ^ (8 * i)))).map (·.1)

/-- The instruction the decoder reads from an instruction whose bits are `w` (the host's probe). -/
def decodeTableWord (nbits w : Nat) : Option Instr :=
  match tableCommand nbits w with
  | some c => (decode c).toOption
  | none => none

end Sys2Proof
end

