-- ==== Sys2Proof/Machine/Operands.lean ====
section
/-! DEFINITION. The operands and results that are byte strings: the zero buffer of SRC = 1 (42_operate
R192) and the context image of SAVE and LOAD (44_control R268 to R270). -/

namespace Sys2Proof.Machine

/-- `zeros(n)`: the byte string of n zero bytes (00_scope R9), the buffer of an operation with SRC = 1
(R192). -/
def zeros (n : Nat) : List Byte := List.replicate n 0

/-- The length of a context image (R268). -/
def imageBytes : Nat := 206

/-- The 206-byte context image (R268). Byte 204 is "always 1 in a SAVE image": SAVE does not read
`initialized` (10_state R33). Log 9. -/
def imageOf (c : Context) : List Byte :=
  c.st.toList ++ [c.pos, c.posBegin, c.rate, c.curFlags, 1, roleByte c.i0]

/-- Byte i of an image. -/
def imageByte (img : List Byte) (i : Nat) : Byte := img.getD i 0

/-- `validImage(img)`, the seven conditions of R270 in order. -/
def validImage (img : List Byte) : Bool :=
  img.length == imageBytes &&
  imageByte img 204 == 1 &&
  (imageByte img 202 == 166 || imageByte img 202 == 134) &&
  decide (imageByte img 200 < imageByte img 202) &&
  decide (imageByte img 201 ≤ imageByte img 200) &&
  imageByte img 203 &&& 0xE0 == 0 &&
  (roleOfByte (imageByte img 205)).isSome

/-- The context a valid image installs (R269). -/
def contextOfImage (img : List Byte) : Context :=
  { st := Vector.ofFn fun i => imageByte img i.val
    pos := imageByte img 200
    posBegin := imageByte img 201
    rate := imageByte img 202
    curFlags := imageByte img 203
    initialized := true
    i0 := (roleOfByte (imageByte img 205)).getD .undecided }

end Sys2Proof.Machine
end

