-- ==== Sys2Proof/Machine/Permutation.lean ====
section
/-! DEFINITION. The permutation F = Keccak-f[1600] (40_permutation R130 to R139) on 25 lanes, and the
lane view of the state (10_state R28, 20_memory R63). The spec writes F down from general knowledge
(93, part 2); log 8. -/

namespace Sys2Proof.Machine

/-- The 25 lanes. Lane `x + 5y` is A[x, y] (R131). -/
abbrev Lanes := Vector Lane 25

/-- `rotl64(v, n)`: rotation left by n mod 64 bits (R8, R139). -/
def rotl64 (v : Lane) (n : Nat) : Lane := v.rotateLeft n

/-- A[x, y], with coordinate arithmetic mod 5 (R131). -/
def laneAt (a : Lanes) (x y : Nat) : Lane := a.toList.getD (x % 5 + 5 * (y % 5)) 0

/-- The lanes A with A[x, y] = f x y for x, y in 0..4 (R131). -/
def lanesOf (f : Nat → Nat → Lane) : Lanes :=
  #v[f 0 0, f 1 0, f 2 0, f 3 0, f 4 0,
     f 0 1, f 1 1, f 2 1, f 3 1, f 4 1,
     f 0 2, f 1 2, f 2 2, f 3 2, f 4 2,
     f 0 3, f 1 3, f 2 3, f 3 3, f 4 3,
     f 0 4, f 1 4, f 2 4, f 3 4, f 4 4]

/-- C[x] of theta (R133). -/
def thetaC (a : Lanes) (x : Nat) : Lane :=
  laneAt a x 0 ^^^ laneAt a x 1 ^^^ laneAt a x 2 ^^^ laneAt a x 3 ^^^ laneAt a x 4

/-- D[x] of theta (R133); x - 1 mod 5 is x + 4 mod 5. -/
def thetaD (a : Lanes) (x : Nat) : Lane := thetaC a (x + 4) ^^^ rotl64 (thetaC a (x + 1)) 1

/-- Theta (R133). -/
def theta (a : Lanes) : Lanes := lanesOf fun x y => laneAt a x y ^^^ thetaD a x

/-- The rotation offsets r[x, y], row x, column y (R134). -/
def rhoOffsets : List (List Nat) :=
  [[0, 36, 3, 41, 18],
   [1, 44, 10, 45, 2],
   [62, 6, 43, 15, 61],
   [28, 55, 25, 21, 56],
   [27, 20, 39, 8, 14]]

/-- r[x, y] (R134). -/
def rhoOffset (x y : Nat) : Nat := (rhoOffsets.getD x []).getD y 0

/-- Rho (R134). -/
def rho (a : Lanes) : Lanes := lanesOf fun x y => rotl64 (laneAt a x y) (rhoOffset x y)

/-- Pi (R135). B[y, 2x + 3y] = A[x, y] for all x, y is B[x, y] = A[x + 3y, x]: the lane that lands at
(x, y) comes from row x and column x + 3y, since 2(x + 3y) + 3x = 5x + 6y = y mod 5. -/
def piStep (a : Lanes) : Lanes := lanesOf fun x y => laneAt a (x + 3 * y) x

/-- Chi (R136). -/
def chi (b : Lanes) : Lanes :=
  lanesOf fun x y => laneAt b x y ^^^ (~~~(laneAt b (x + 1) y) &&& laneAt b (x + 2) y)

/-- Iota (R137): the round constant goes into A[0, 0] only. -/
def iota (rc : Lane) (a : Lanes) : Lanes :=
  lanesOf fun x y => if x = 0 ∧ y = 0 then laneAt a x y ^^^ rc else laneAt a x y

/-- The 24 round constants RC[0..23] (R138). -/
def roundConstants : List Lane :=
  [0x0000000000000001, 0x0000000000008082, 0x800000000000808A, 0x8000000080008000,
   0x000000000000808B, 0x0000000080000001, 0x8000000080008081, 0x8000000000008009,
   0x000000000000008A, 0x0000000000000088, 0x0000000080008009, 0x000000008000000A] ++
  [0x000000008000808B, 0x800000000000008B, 0x8000000000008089, 0x8000000000008003,
   0x8000000000008002, 0x8000000000000080, 0x000000000000800A, 0x800000008000000A,
   0x8000000080008081, 0x8000000000008080, 0x0000000080000001, 0x8000000080008008]

/-- One round (R132). -/
def keccakRound (a : Lanes) (rc : Lane) : Lanes := iota rc (chi (piStep (rho (theta a))))

/-- F: 24 rounds in order (R132). -/
def keccakF (a : Lanes) : Lanes := roundConstants.foldl keccakRound a

/-- Byte j of a lane as state byte of that lane: byte 0 is the least significant (R63). -/
def byteOfLane (v : Lane) (j : Nat) : Byte := (v >>> (8 * j)).setWidth 8

/-- `lanes[k]`: the little-endian value of state bytes 8k to 8k+7 (R28). -/
def laneOfBytes (st : Vector Byte Config.stateBytes) (k : Nat) : Lane :=
  (List.range 8).foldl (fun v j => v ||| ((st.toList.getD (8 * k + j) 0).setWidth 64 <<< (8 * j))) 0

/-- The lane view of the state (R28). -/
def lanesOfBytes (st : Vector Byte Config.stateBytes) : Lanes :=
  Vector.ofFn fun k => laneOfBytes st k.val

/-- The state bytes of a lane view: `st[i]` is byte i mod 8 of lane i div 8 (R28, R63). -/
def bytesOfLanes (a : Lanes) : Vector Byte Config.stateBytes :=
  Vector.ofFn fun i => byteOfLane (a.toList.getD (i.val / 8) 0) (i.val % 8)

/-- `Fbytes(st)`: lanes from st, F, st from lanes (R130). -/
def keccakBytes (st : Vector Byte Config.stateBytes) : Vector Byte Config.stateBytes :=
  bytesOfLanes (keccakF (lanesOfBytes st))

end Sys2Proof.Machine
end

