-- ==== Sys2Proof/Machine/Ops.lean ====
section
/-! DEFINITION. The shared operations: access to the state byte space (20_memory R61), the
block-boundary routine and the duplex primitive (41_duplex R160, R162), begin-op and operate
(42_operate R189), the response (30_encoding R103), taking a fault and leaving one (60_exceptions
R309, R315, R316), and the checks common to the operations (R313). -/

namespace Sys2Proof.Machine

/-! ## The state byte space -/

/-- `MemRead(i, 1) = st[i]` (R61). An index outside 0..199 is never formed (R61; log 4). -/
def memRead (c : Context) (i : Nat) : Byte := c.st[i]?.getD 0

/-- `MemWrite(i, 1, v)` is `st[i] <- v` (R61). -/
def memWrite (c : Context) (i : Nat) (v : Byte) : Context := { c with st := c.st.setIfInBounds i v }

/-- `st[i] <- st[i] XOR v`. -/
def memXor (c : Context) (i : Nat) (v : Byte) : Context := memWrite c i (memRead c i ^^^ v)

/-- Every index the duplex rules form from this context is in 0..199: the byte loop forms `pos < R` and
the block-boundary routine at most `R + 1` (R61, R162). -/
def indicesInRange (c : Context) : Bool := decide (c.pos < c.rate) && decide (c.rate.toNat + 1 < 200)

/-! ## The duplex primitive -/

/-- The padding of a block: `posBegin` at `pos`, 0x04 at `pos + 1`, 0x80 at `R + 1`, in that order
(R162). It is skipped during the bootstrap (R26). -/
def padBlock (c : Context) : Context :=
  if c.initialized then
    memXor (memXor (memXor c c.pos.toNat c.posBegin) (c.pos.toNat + 1) 0x04) (c.rate.toNat + 1) 0x80
  else c

/-- The block-boundary routine `runF()` (R162). -/
def runF (c : Context) : Context :=
  { padBlock c with st := keccakBytes (padBlock c).st, pos := 0, posBegin := 0 }

/-- What the byte becomes by step 1, the unmask (R160). -/
def unmasked (cbefore : Bool) (c : Context) (b : Byte) : Byte :=
  if cbefore then b ^^^ memRead c c.pos.toNat else b

/-- Step 2 of the byte loop, absorb: `st[pos] <- st[pos] XOR buf[i]` (R160). -/
def absorbByte (cbefore : Bool) (c : Context) (b : Byte) : Context :=
  memXor c c.pos.toNat (unmasked cbefore c b)

/-- The processed byte: step 3 reads `st[pos]` after step 2 has written it (R160). -/
def processedByte (cbefore cafter : Bool) (c : Context) (b : Byte) : Byte :=
  if cafter then memRead (absorbByte cbefore c b) c.pos.toNat else unmasked cbefore c b

/-- Step 4 and the block boundary: `pos <- pos + 1`, and `runF()` when it reaches R (R160). -/
def advance (c : Context) : Context :=
  if c.pos + 1 = c.rate then runF { c with pos := c.pos + 1 } else { c with pos := c.pos + 1 }

/-- One turn of the byte loop (R160). -/
def byteStep (cbefore : Bool) (c : Context) (b : Byte) : Context := advance (absorbByte cbefore c b)

/-- The context after the byte loop over `data` (R160). The phase `cafter` changes the processed buffer
only. -/
def loopContext (cbefore : Bool) (c : Context) : List Byte → Context
  | [] => c
  | b :: rest => loopContext cbefore (byteStep cbefore c b) rest

/-- The processed buffer of the byte loop over `data` (R160). -/
def loopOutput (cbefore cafter : Bool) (c : Context) : List Byte → List Byte
  | [] => []
  | b :: rest => processedByte cbefore cafter c b :: loopOutput cbefore cafter (byteStep cbefore c b) rest

/-- The forced routine after the loop: `if forceF and pos != 0: runF()` (R160). -/
def forceBlock (forceF : Bool) (c : Context) : Context :=
  if forceF && c.pos != 0 then runF c else c

/-- The context after `duplex(data, cbefore, cafter, forceF)` (R160). -/
def duplexContext (data : List Byte) (cbefore forceF : Bool) (c : Context) : Context :=
  forceBlock forceF (loopContext cbefore c data)

/-- The processed buffer `duplex(data, cbefore, cafter, forceF)` returns (R160). -/
def duplexOutput (data : List Byte) (cbefore cafter : Bool) (c : Context) : List Byte :=
  loopOutput cbefore cafter c data

/-! ## The operation layer -/

/-- Role binding and framing, `beginOp` (R182 to R185), and `curFlags <- flags` (R181). The flip of the
framing flag byte is local: `curFlags` gets the caller's flags (R191). -/
def beginOp (flags : Byte) (c : Context) : Context :=
  { duplexContext [c.posBegin, framingFlags flags (bindRole flags c.i0)] false (hasFlag flags flagC)
      { c with i0 := bindRole flags c.i0, posBegin := c.pos + 1 } with curFlags := flags }

/-- The context in which the data phase starts: after `beginOp`, or as it is for a continuation
(R181). -/
def openOp (flags : Byte) (more : Bool) (c : Context) : Context := if more then c else beginOp flags c

/-- The context after `operate(flags, buf, more)` (R189). -/
def operateContext (flags : Byte) (buf : List Byte) (more : Bool) (c : Context) : Context :=
  duplexContext buf (phaseBefore flags) false (openOp flags more c)

/-- The processed buffer of `operate(flags, buf, more)` (R186, R189). -/
def operateOutput (flags : Byte) (buf : List Byte) (more : Bool) (c : Context) : List Byte :=
  duplexOutput buf (phaseBefore flags) (phaseAfter flags) (openOp flags more c)

/-- The result of an operation from its class and processed buffer (R187, R188): a VERIFY operation
answers AUTH_FAILED when any processed byte is not zero. -/
def operateResult (flags : Byte) (processed : List Byte) : Result :=
  match resultClass flags with
  | .payload => .ok
  | .verify => if processed.any (fun b => b != 0) then .authFailed else .ok
  | .noPayload => .ok

/-- The data-out of an operation: the processed buffer for PAYLOAD, empty otherwise (R187, R102). -/
def operatePayload (flags : Byte) (processed : List Byte) : List Byte :=
  match resultClass flags with
  | .payload => processed
  | .verify => []
  | .noPayload => []

/-! ## The response, faults and the way out -/

/-- `respond(result, out)` (R103): FCODE and ESTATE are read after the command's own changes. -/
def respond (r : Result) (out : List Byte) (s : State) : State :=
  { s with response := some { status := statusWord r s.fcode s.estate, out := out } }

/-- Fault entry, `raise Fault(code)` (R309): ESTATE <- FAULTED, FCODE <- code, answer FAULT. The context
keeps its value (R309, R314). -/
def raiseFault (code : FaultCode) (s : State) : State :=
  respond .fault [] { s with estate := .faulted, fcode := code }

/-- The refusal in FAULTED (R315): nothing changes, FCODE is kept. -/
def refuseFaulted (s : State) : State := respond .refusedFaulted [] s

/-- The engine becomes READY with a context and no fault code: the end of a successful INIT (R266),
the only command that leaves FAULTED (R316). -/
def becomeReady (c : Context) (s : State) : State :=
  { s with ctx := c, estate := .ready, fcode := .none }

/-- A command word that names no command (R313): refused in FAULTED; in UNINIT the checks that stand
after NOT_READY report NOT_READY; otherwise the fault of its class. -/
def rejectIllegal (why : IllegalWord) (s : State) : State :=
  match s.estate with
  | .faulted => refuseFaulted s
  | .uninit =>
    if checkedBeforeReady why then raiseFault (illegalCode why) s else raiseFault .notReady s
  | .ready => raiseFault (illegalCode why) s

/-- `operate` as a command's last step (R313, R189): the context is updated, then the result is
answered. It stops by name where the rules would form an index outside the state (log 4). -/
def runOperate (flags : Byte) (buf : List Byte) (more : Bool) (s : State) :
    Host.Outcome State Fault Refusal :=
  if indicesInRange s.ctx then
    .next (respond (operateResult flags (operateOutput flags buf more s.ctx))
      (operatePayload flags (operateOutput flags buf more s.ctx))
      { s with ctx := operateContext flags buf more s.ctx })
  else .fault .stateIndex

/-- The checks every operation makes before anything changes, in the order of R313: FAULTED refuses,
UNINIT faults NOT_READY, a continuation with other flags faults STREAM_MISMATCH (R305). -/
def checkedOp (flags : Byte) (more : Bool) (s : State) (body : Host.Outcome State Fault Refusal) :
    Host.Outcome State Fault Refusal :=
  match s.estate with
  | .faulted => .next (refuseFaulted s)
  | .uninit => .next (raiseFault .notReady s)
  | .ready =>
    if more && s.ctx.curFlags != flags then .next (raiseFault .streamMismatch s) else body

/-- An operation command: the checks, then `operate` (R313). -/
def operation (flags : Byte) (more : Bool) (buf : List Byte) (s : State) :
    Host.Outcome State Fault Refusal :=
  checkedOp flags more s (runOperate flags buf more s)

end Sys2Proof.Machine
end

