-- ==== Sys2Proof/Machine/Absorb.lean ====
section
/-! DEFINITION. The absorbing operations AD and KEY (43_operations R220, R221). -/

namespace Sys2Proof.Machine

/-- AD (R220): `respond(operate(FLAGS, DATA, MORE))` with FLAGS = A, or A|M. -/
def execAd (m more : Bool) (data : List Byte) (s : State) : Host.Outcome State Fault Refusal :=
  operation (withMeta flagsAd m) more data s

/-- KEY (R221): `respond(operate(0x06, DATA, MORE))`. -/
def execKey (more : Bool) (data : List Byte) (s : State) : Host.Outcome State Fault Refusal :=
  operation flagsKey more data s

end Sys2Proof.Machine
end

