-- ==== Sys2Proof/Machine/Cipher.lean ====
section
/-! DEFINITION. Authenticated encryption: SEND_ENC, RECV_ENC, SEND_MAC and RECV_MAC (43_operations R225
to R228). -/

namespace Sys2Proof.Machine

/-- SEND_ENC (R225): `respond(operate(FLAGS, DATA, MORE))` with FLAGS = A|C|T, or A|C|T|M. -/
def execSendEnc (m more : Bool) (data : List Byte) (s : State) : Host.Outcome State Fault Refusal :=
  operation (withMeta flagsSendEnc m) more data s

/-- RECV_ENC (R226): `respond(operate(FLAGS, DATA, MORE))` with FLAGS = I|A|C|T, or I|A|C|T|M. -/
def execRecvEnc (m more : Bool) (data : List Byte) (s : State) : Host.Outcome State Fault Refusal :=
  operation (withMeta flagsRecvEnc m) more data s

/-- SEND_MAC (R227): `respond(operate(FLAGS, zeros(LEN), MORE))` with FLAGS = C|T, or C|T|M. -/
def execSendMac (m more : Bool) (len : Word) (s : State) : Host.Outcome State Fault Refusal :=
  operation (withMeta flagsSendMac m) more (zeros len.toNat) s

/-- RECV_MAC (R228): `respond(operate(FLAGS, DATA, 0))` with FLAGS = I|C|T, or I|C|T|M. With MORE = 1
it faults MAC_STREAMING, after the continuation check (R306, R313). -/
def execRecvMac (m more : Bool) (data : List Byte) (s : State) : Host.Outcome State Fault Refusal :=
  checkedOp (withMeta flagsRecvMac m) more s
    (if more then .next (raiseFault .macStreaming s)
     else runOperate (withMeta flagsRecvMac m) data false s)

end Sys2Proof.Machine
end

