-- ==== Sys2Proof/Machine/Clear.lean ====
section
/-! DEFINITION. The transport operations in clear, SEND_CLR and RECV_CLR (43_operations R223, R224). -/

namespace Sys2Proof.Machine

/-- SEND_CLR (R223): `respond(operate(FLAGS, DATA, MORE))` with FLAGS = A|T, or A|T|M. -/
def execSendClr (m more : Bool) (data : List Byte) (s : State) : Host.Outcome State Fault Refusal :=
  operation (withMeta flagsSendClr m) more data s

/-- RECV_CLR (R224): `respond(operate(FLAGS, DATA, MORE))` with FLAGS = I|A|T, or I|A|T|M. -/
def execRecvClr (m more : Bool) (data : List Byte) (s : State) : Host.Outcome State Fault Refusal :=
  operation (withMeta flagsRecvClr m) more data s

end Sys2Proof.Machine
end

