-- ==== Sys2Proof/Machine/Control.lean ====
section
/-! DEFINITION. The control commands INIT, SAVE and LOAD (44_control R260 to R270). -/

namespace Sys2Proof.Machine

/-- `R_boot = 200 - L/4` (R261). -/
def bootRate (level : BitVec 16) : Byte := BitVec.ofNat 8 (200 - level.toNat / 4)

/-- The protocol magic, ASCII `STROBEv1.0.2` (R262). -/
def protocolMagic : List Byte :=
  [0x53, 0x54, 0x52, 0x4F, 0x42, 0x45, 0x76, 0x31, 0x2E, 0x30, 0x2E, 0x32]

/-- The domain prefix, 18 bytes; its second byte is R_boot (R262, 90_conflicts C2). -/
def domainPrefix (rBoot : Byte) : List Byte := [0x01, rBoot, 0x01, 0x00, 0x01, 0x60] ++ protocolMagic

/-- INIT step 1: the zeroed context at the bootstrap rate (R261). -/
def initZeroed (level : BitVec 16) : Context :=
  { st := Vector.replicate Config.stateBytes 0
    pos := 0
    posBegin := 0
    rate := bootRate level
    curFlags := 0
    initialized := false
    i0 := .undecided }

/-- INIT steps 2 to 4: absorb the prefix, force the permutation, drop R by 2, set `initialized`
(R262 to R264). -/
def initBootstrapped (level : BitVec 16) : Context :=
  let c := duplexContext (domainPrefix (bootRate level)) false true (initZeroed level)
  { c with rate := c.rate - 2, initialized := true }

/-- The context INIT leaves: the bootstrap, then the protocol AD `operate(A|M, proto, false)`
(R265, R266). -/
def initContext (level : BitVec 16) (proto : List Byte) : Context :=
  operateContext (withMeta flagsAd true) proto false (initBootstrapped level)

/-- The security levels (R2, R260). -/
def validLevel (level : BitVec 16) : Bool := level == 128 || level == 256

/-- INIT (R266): accepted in every engine state. An invalid level changes nothing (R302). -/
def execInit (level : BitVec 16) (proto : List Byte) (s : State) : Host.Outcome State Fault Refusal :=
  if validLevel level then .next (respond .ok [] (becomeReady (initContext level proto) s))
  else .next (respond .invalidSecurityLevel [] s)

/-- SAVE (R267, R313): refused in FAULTED, NOT_READY in UNINIT, else the image. -/
def execSave (s : State) : Host.Outcome State Fault Refusal :=
  match s.estate with
  | .faulted => .next (refuseFaulted s)
  | .uninit => .next (raiseFault .notReady s)
  | .ready => .next (respond .ok (imageOf s.ctx) s)

/-- LOAD (R269, R313): refused in FAULTED; an invalid image changes nothing (R311); a valid one is
installed and the engine is READY. FCODE is not written (R269, R33). -/
def execLoad (img : List Byte) (s : State) : Host.Outcome State Fault Refusal :=
  match s.estate with
  | .faulted => .next (refuseFaulted s)
  | .uninit | .ready =>
    if validImage img then
      .next (respond .ok [] { s with ctx := contextOfImage img, estate := .ready })
    else .next (respond .invalidImage [] s)

end Sys2Proof.Machine
end

