-- ==== Sys2Proof/Machine/Output.lean ====
section
/-! DEFINITION. The output operation PRF (43_operations R222) and RATCHET (R229), which run on LEN zero
bytes (42_operate R192). -/

namespace Sys2Proof.Machine

/-- PRF (R222): `respond(operate(0x07, zeros(LEN), MORE))`. -/
def execPrf (more : Bool) (len : Word) (s : State) : Host.Outcome State Fault Refusal :=
  operation flagsPrf more (zeros len.toNat) s

/-- RATCHET (R229): `respond(operate(FLAGS, zeros(LEN), 0))` with FLAGS = C, or C|M. -/
def execRatchet (m : Bool) (len : Word) (s : State) : Host.Outcome State Fault Refusal :=
  operation (withMeta flagsRatchet m) false (zeros len.toNat) s

end Sys2Proof.Machine
end

