-- ==== Sys2Proof/Machine/Dispatch.lean ====
section
/-! DEFINITION. The meaning of each instruction, one arm per constructor of Instr. -/

namespace Sys2Proof.Machine

def exec (i : Instr) (s : State) : Host.Outcome State Fault Refusal :=
  match i with
  | .ad m more data => Sys2Proof.Machine.execAd m more data s
  | .key more data => Sys2Proof.Machine.execKey more data s
  | .prf more len => Sys2Proof.Machine.execPrf more len s
  | .sendClr m more data => Sys2Proof.Machine.execSendClr m more data s
  | .recvClr m more data => Sys2Proof.Machine.execRecvClr m more data s
  | .sendEnc m more data => Sys2Proof.Machine.execSendEnc m more data s
  | .recvEnc m more data => Sys2Proof.Machine.execRecvEnc m more data s
  | .sendMac m more len => Sys2Proof.Machine.execSendMac m more len s
  | .recvMac m more data => Sys2Proof.Machine.execRecvMac m more data s
  | .ratchet m len => Sys2Proof.Machine.execRatchet m len s
  | .init level proto => Sys2Proof.Machine.execInit level proto s
  | .save => Sys2Proof.Machine.execSave s
  | .load img => Sys2Proof.Machine.execLoad img s

end Sys2Proof.Machine
end

