-- ==== Sys2Proof/Machine/Events.lean ====
section
/-! DEFINITION. What the engine does with one event from outside: a command (60_exceptions R313), or
reset (70 R340). -/

namespace Sys2Proof.Machine

/-- The reset event (R340): the state of R38, and no response. What the host has issued after it stays
issued (log 6). -/
def resetEvent (rest : List HostEvent) : State := { State.reset with inbox := rest }

/-- Reset with a command in progress (R340): the command is abandoned, which leaves no response and
nothing of its own effect, since reset writes every register. The command is taken out with the reset,
so it does not run afterwards (log 6). -/
def abandonEvent (_abandoned : Command) (rest : List HostEvent) : State := resetEvent rest

/-- One command (R313): the instruction its word names runs, an illegal word faults or is refused, a
triple that is no command stops the model (R348). -/
def stepCommand (c : Command) (s : State) : Host.Outcome State Fault Refusal :=
  match decode c with
  | .ok i => exec i s
  | .error (.illegal why) => .next (rejectIllegal why s)
  | .error .misframed => .refused .malformedCommand

end Sys2Proof.Machine
end

