-- ==== Sys2Proof/Machine/Step.lean ====
section
/-! DEFINITION. One step of the engine (60_exceptions R313): it takes the oldest event, which is a
command or reset (R340), and answers it. -/

namespace Sys2Proof.Machine

/-- One step: the oldest event of the inbox is taken out and takes full effect (R10, R70). With nothing
issued there is no step (R10, log 2). -/
def step (s : State) : Host.Outcome State Fault Refusal :=
  match s.inbox with
  | [] => .refused .noCommand
  | .reset :: rest => .next (resetEvent rest)
  | .resetDuring c :: rest => .next (abandonEvent c rest)
  | .command c :: rest => stepCommand c { s with inbox := rest }

/-- `s` with the command whose bits are `w` issued as the next one the engine takes: it goes in front of
the inbox, from where `step` takes its next event (log 1). -/
def State.withFetchWord (s : State) (nbits w : Nat) : State :=
  match tableCommand nbits w with
  | some c => { s with inbox := .command c :: s.inbox }
  | none => s

end Sys2Proof.Machine
end

