-- ==== Sys2Proof/Machine/Assembler.lean ====
section
/-! DEFINITION. The assembler syntax (30_encoding R108) and the disassembly of a command word (R110).
Text is handled as lists of characters. Log 17. -/

namespace Sys2Proof.Machine

/-! ## Disassembly -/

/-- A hex digit, upper case (log 17). -/
def hexDigit (n : Nat) : Char := if n < 10 then Char.ofNat (48 + n) else Char.ofNat (55 + n)

/-- The eight hex digits of a word. -/
def hexWord (w : Word) : List Char :=
  [7, 6, 5, 4, 3, 2, 1, 0].map fun k => hexDigit (w.toNat / 16 ^ k % 16)

/-- The options of an instruction, `.M` first (R108). -/
def optionSuffix (m more : Bool) : String :=
  (if m then ".M" else "") ++ (if more then ".MORE" else "")

/-- The mnemonic with its options (R108). -/
def syntaxName : Instr → String
  | .ad m more data => mnemonic (.ad m more data) ++ optionSuffix m more
  | .key more data => mnemonic (.key more data) ++ optionSuffix false more
  | .prf more len => mnemonic (.prf more len) ++ optionSuffix false more
  | .sendClr m more data => mnemonic (.sendClr m more data) ++ optionSuffix m more
  | .recvClr m more data => mnemonic (.recvClr m more data) ++ optionSuffix m more
  | .sendEnc m more data => mnemonic (.sendEnc m more data) ++ optionSuffix m more
  | .recvEnc m more data => mnemonic (.recvEnc m more data) ++ optionSuffix m more
  | .sendMac m more len => mnemonic (.sendMac m more len) ++ optionSuffix m more
  | .recvMac m more data => mnemonic (.recvMac m more data) ++ optionSuffix m more
  | .ratchet m len => mnemonic (.ratchet m len) ++ optionSuffix m false
  | .init level proto => mnemonic (.init level proto)
  | .save => mnemonic .save
  | .load img => mnemonic (.load img)

/-- RECV_MAC with MORE: a row of R96 that is not written by its name, since it faults (R110). -/
def namedButFaults : Instr → Bool
  | .recvMac _ more _ => more
  | .ad _ _ _ | .key _ _ | .prf _ _ | .sendClr _ _ _ | .recvClr _ _ _ | .sendEnc _ _ _
  | .recvEnc _ _ _ | .sendMac _ _ _ | .ratchet _ _ | .init _ _ | .save | .load _ => false

/-- The disassembly of a command word (R110). -/
def disassemble (w : Word) : String :=
  match decodeWord { cmdw := w, len := 0, data := [] } with
  | .ok i =>
    if namedButFaults i then ".word 0x" ++ String.ofList (hexWord w) else syntaxName i
  | .error _ => ".word 0x" ++ String.ofList (hexWord w)

/-! ## Assembly -/

/-- The value of a hex digit. -/
def hexValue (c : Char) : Option Nat :=
  if 48 ≤ c.toNat ∧ c.toNat ≤ 57 then some (c.toNat - 48)
  else if 65 ≤ c.toNat ∧ c.toNat ≤ 70 then some (c.toNat - 55)
  else if 97 ≤ c.toNat ∧ c.toNat ≤ 102 then some (c.toNat - 87)
  else none

/-- An even number of hex digits, two to a byte. -/
def hexBytes : List Char → Option (List Byte)
  | [] => some []
  | [_] => none
  | a :: b :: rest =>
    match hexValue a, hexValue b, hexBytes rest with
    | some x, some y, some bytes => some (BitVec.ofNat 8 (16 * x + y) :: bytes)
    | _, _, _ => none

/-- The double quote. -/
def quoteChar : Char := Char.ofNat 34

/-- The characters of a double-quoted ASCII string after its opening quote, no escapes (R108). -/
def quotedBytes : List Char → Option (List Byte)
  | [] => none
  | c :: rest =>
    if c = quoteChar then (if rest = [] then some [] else none)
    else if c.toNat < 128 then (quotedBytes rest).map (BitVec.ofNat 8 c.toNat :: ·)
    else none

/-- `<bytes>`: a double-quoted string, or `0x` and hex digits (R108). -/
def parseBytes : List Char → Option (List Byte)
  | a :: b :: rest =>
    if a = quoteChar then quotedBytes (b :: rest)
    else if a = '0' ∧ b = 'x' then hexBytes rest
    else none
  | _ => none

/-- The value of a string of decimal digits, most significant first. -/
def decimalValue (acc : Nat) : List Char → Option Nat
  | [] => some acc
  | c :: rest =>
    if 48 ≤ c.toNat ∧ c.toNat ≤ 57 then decimalValue (10 * acc + (c.toNat - 48)) rest else none

/-- `<n>` or `<level>`: a decimal number below a bound (R108). -/
def parseDecimal (bound : Nat) (cs : List Char) : Option Nat :=
  if cs = [] then none
  else
    match decimalValue 0 cs with
    | some n => if n < bound then some n else none
    | none => none

/-- The options `[.M][.MORE]` (R108). -/
def parseOptions (cs : List Char) : Option (Bool × Bool) :=
  if cs = [] then some (false, false)
  else if cs = ".M".toList then some (true, false)
  else if cs = ".MORE".toList then some (false, true)
  else if cs = ".M.MORE".toList then some (true, true)
  else none

/-- An operation with a `<bytes>` operand; the forms R108 lists, so no KEY.M and no RECV_MAC.MORE. -/
def dataForm (name : List Char) (m more : Bool) (data : List Byte) : Option Instr :=
  if name = "AD".toList then some (.ad m more data)
  else if name = "KEY".toList then (if m then none else some (.key more data))
  else if name = "SEND_CLR".toList then some (.sendClr m more data)
  else if name = "RECV_CLR".toList then some (.recvClr m more data)
  else if name = "SEND_ENC".toList then some (.sendEnc m more data)
  else if name = "RECV_ENC".toList then some (.recvEnc m more data)
  else if name = "RECV_MAC".toList then (if more then none else some (.recvMac m false data))
  else if name = "LOAD".toList then (if m || more then none else some (.load data))
  else none

/-- An operation with an `<n>` operand; the forms R108 lists, so no PRF.M and no RATCHET.MORE. -/
def lengthForm (name : List Char) (m more : Bool) (n : Nat) : Option Instr :=
  if name = "PRF".toList then (if m then none else some (.prf more (BitVec.ofNat 32 n)))
  else if name = "SEND_MAC".toList then some (.sendMac m more (BitVec.ofNat 32 n))
  else if name = "RATCHET".toList then (if more then none else some (.ratchet m (BitVec.ofNat 32 n)))
  else none

/-- `<level>, <bytes>`, the operands of INIT (R108). -/
def initForm (operand : List Char) : Option Instr :=
  match parseDecimal (2 ^ 16) (operand.takeWhile (· ≠ ',')),
    parseBytes (((operand.dropWhile (· ≠ ',')).drop 1).dropWhile (· = ' ')) with
  | some level, some proto => some (.init (BitVec.ofNat 16 level) proto)
  | _, _ => none

/-- The assembler (R108): one command of the syntax, or none where the text is not in it. The command
word and LEN are those of `encode`. -/
def assemble (line : String) : Option Instr :=
  let head := line.toList.takeWhile (· ≠ ' ')
  let operand := (line.toList.dropWhile (· ≠ ' ')).dropWhile (· = ' ')
  let name := head.takeWhile (· ≠ '.')
  match parseOptions (head.dropWhile (· ≠ '.')) with
  | none => none
  | some (m, more) =>
    if head = "SAVE".toList then (if operand = [] then some .save else none)
    else if head = "INIT".toList then initForm operand
    else
      match parseBytes operand with
      | some data => dataForm name m more data
      | none =>
        match parseDecimal (2 ^ 32) operand with
        | some n => lengthForm name m more n
        | none => none

end Sys2Proof.Machine
end

