-- ==== Sys2Proof/Machine/Pseudocode.lean ====
section
/-! DEFINITION. The duplex primitive once more, written as R160 writes it: one loop over the indices of
a copied buffer, changed in place. Machine/Ops.lean gives the context and the processed buffer as two
functions; an obligation says that they are this loop's two results. -/

namespace Sys2Proof.Machine

/-- The state of the loop of R160: the context and the buffer. -/
structure DuplexRun where
  ctx : Context
  buf : List Byte
  deriving DecidableEq, Repr

/-- Step 1: `if cbefore: buf[i] <- buf[i] XOR st[pos]`. -/
def pseudoUnmask (cbefore : Bool) (i : Nat) (r : DuplexRun) : DuplexRun :=
  if cbefore then
    { r with buf := r.buf.set i (r.buf.getD i 0 ^^^ memRead r.ctx r.ctx.pos.toNat) }
  else r

/-- Step 2: `st[pos] <- st[pos] XOR buf[i]`. -/
def pseudoAbsorb (i : Nat) (r : DuplexRun) : DuplexRun :=
  { r with ctx := memWrite r.ctx r.ctx.pos.toNat (memRead r.ctx r.ctx.pos.toNat ^^^ r.buf.getD i 0) }

/-- Step 3: `if cafter: buf[i] <- st[pos]`. -/
def pseudoSqueeze (cafter : Bool) (i : Nat) (r : DuplexRun) : DuplexRun :=
  if cafter then { r with buf := r.buf.set i (memRead r.ctx r.ctx.pos.toNat) } else r

/-- Step 4 and `if pos = R: runF()`. -/
def pseudoAdvance (r : DuplexRun) : DuplexRun :=
  let moved : Context := { r.ctx with pos := r.ctx.pos + 1 }
  { r with ctx := if moved.pos = moved.rate then runF moved else moved }

/-- The body of the loop of R160 for index i. -/
def pseudoBody (cbefore cafter : Bool) (i : Nat) (r : DuplexRun) : DuplexRun :=
  pseudoAdvance (pseudoSqueeze cafter i (pseudoAbsorb i (pseudoUnmask cbefore i r)))

/-- `duplex(data, cbefore, cafter, forceF)` as R160 writes it. -/
def pseudoDuplex (data : List Byte) (cbefore cafter forceF : Bool) (c : Context) : DuplexRun :=
  let r := (List.range data.length).foldl (fun r i => pseudoBody cbefore cafter i r)
    { ctx := c, buf := data }
  if forceF && r.ctx.pos != 0 then { r with ctx := runF r.ctx } else r

end Sys2Proof.Machine
end

