-- ==== Sys2Proof/Machine/System.lean ====
section
/-! DEFINITION. Several engines: N independent copies of the step (60_exceptions R323, 20_memory R73,
92 D22), and the pseudo-commands of 30_encoding R109. -/

namespace Sys2Proof.Machine

/-- A system of engines; N_ENGINES is the length of the list (D22, log 16). -/
structure System where
  engines : List State
  deriving DecidableEq, Repr

/-- Engine k takes its next step; none when there is no engine k. No other engine moves (R323). -/
def stepEngine (k : Nat) (y : System) : Option (Host.Outcome System Fault Refusal) :=
  match y.engines[k]? with
  | none => none
  | some s =>
    match step s with
    | .next t => some (.next { engines := y.engines.set k t })
    | .fault r => some (.fault r)
    | .refused r => some (.refused r)

/-- The host issues one command to an engine that has taken every earlier one, and the engine answers
it (R10). -/
def issueNow (i : Instr) (s : State) : Host.Outcome State Fault Refusal :=
  step { s with inbox := .command (encode i) :: s.inbox }

/-- `AEAD_SEAL k, n, p, t` (R109). -/
def aeadSeal (k n p : List Byte) (t : Word) : List Instr :=
  [.key false k, .sendEnc false false p, .ad false false n, .sendMac false false t]

/-- `AEAD_OPEN k, n, c, mac` (R109). -/
def aeadOpen (k n c mac : List Byte) : List Instr :=
  [.key false k, .recvEnc false false c, .ad false false n, .recvMac false false mac]

/-- `PRF.SPLIT a, b` (R109). -/
def prfSplit (a b : Word) : List Instr := [.prf false a, .prf true b]

/-- The data-out of an engine's last response. -/
def lastOut (s : State) : List Byte :=
  match s.response with
  | some r => r.out
  | none => []

/-- `CLONE e -> f` (R109, R271): SAVE on engine e, giving image X; then LOAD X on engine f. None when an
engine is missing or a step stops. DESIGN CHOICE (log 18): when SAVE answers no image, because e is UNINIT
or FAULTED, the expansion goes on, and LOAD is issued to f with the empty OUT of that answer. -/
def cloneEngine (e f : Nat) (y : System) : Option System :=
  match y.engines[e]? with
  | none => none
  | some se =>
    match issueNow .save se with
    | .next se' =>
      match (y.engines.set e se')[f]? with
      | none => none
      | some sf =>
        match issueNow (.load (lastOut se')) sf with
        | .next sf' => some { engines := (y.engines.set e se').set f sf' }
        | .fault _ => none
        | .refused _ => none
    | .fault _ => none
    | .refused _ => none

end Sys2Proof.Machine
end

