-- ==== Sys2Proof/Machine/Work.lean ====
section
/-! DEFINITION. The work of a command: how many times it applies F (41_duplex R164, 42_operate R185,
60_exceptions R325), and its duration, a parameter (70 R351). Nothing here is state. -/

namespace Sys2Proof.Machine

/-- Permutations the byte loop over `data` applies: one for each byte that brings `pos` to R (R160). -/
def loopPermutations (cbefore : Bool) (c : Context) : List Byte → Nat
  | [] => 0
  | b :: rest =>
    (if c.pos + 1 = c.rate then 1 else 0) + loopPermutations cbefore (byteStep cbefore c b) rest

/-- Permutations one call of the duplex primitive applies, the forced one included (R164). -/
def duplexPermutations (data : List Byte) (cbefore forceF : Bool) (c : Context) : Nat :=
  loopPermutations cbefore c data +
    (if forceF && (loopContext cbefore c data).pos != 0 then 1 else 0)

/-- Permutations the framing of an operation applies (R184, R185). -/
def framingPermutations (flags : Byte) (c : Context) : Nat :=
  duplexPermutations [c.posBegin, framingFlags flags (bindRole flags c.i0)] false (hasFlag flags flagC)
    { c with i0 := bindRole flags c.i0, posBegin := c.pos + 1 }

/-- Permutations `operate(flags, buf, more)` applies. -/
def operatePermutations (flags : Byte) (buf : List Byte) (more : Bool) (c : Context) : Nat :=
  (if more then 0 else framingPermutations flags c) +
    duplexPermutations buf (phaseBefore flags) false (openOp flags more c)

/-- Permutations a successful INIT applies: the bootstrap, then the protocol AD (R325). -/
def initPermutations (level : BitVec 16) (proto : List Byte) : Nat :=
  duplexPermutations (domainPrefix (bootRate level)) false true (initZeroed level) +
    operatePermutations (withMeta flagsAd true) proto false (initBootstrapped level)

/-- The duration of a command in the state it runs in, `latency(CMDW, LEN, R)` (R351, log 10). -/
noncomputable def commandLatency (c : Command) (s : State) : Nat :=
  Config.latency c.cmdw c.len s.ctx.rate

end Sys2Proof.Machine
end

