-- ==== Sys2Proof/Safety.lean ====
section
/-! DEFINITION. What counts as a sound state of the engine (10_state R29 to R31), and what a host can
tell apart (60_exceptions R314, 70 R343). -/

namespace Sys2Proof.Machine

/-- The invariants of R29 on a context, items 2 to 6; items 1 and 7 hold by the types of `st` and
`i0`. -/
abbrev Context.Valid (c : Context) : Prop :=
  (c.rate = 166 ∨ c.rate = 134) ∧ c.pos < c.rate ∧ c.posBegin ≤ c.pos ∧ c.initialized = true ∧
    c.curFlags &&& 0xE0 = 0

/-- READY with no fault code and a context that meets R29: the states in which operations are accepted
(R30, R31). Every READY state that meets `State.Inv` is operational. -/
abbrev State.Operational (s : State) : Prop := s.estate = .ready ∧ s.fcode = .none ∧ s.ctx.Valid

/-- What an operation or control command that completes leaves of the state around the context: ESTATE,
FCODE and the commands still issued. -/
abbrev State.SameStatus (s t : State) : Prop :=
  t.estate = s.estate ∧ t.fcode = s.fcode ∧ t.inbox = s.inbox

/-- The two contexts hold the same transcript: they are equal except for `i0` and `curFlags` (R230). -/
abbrev Context.SameTranscript (c d : Context) : Prop :=
  c.st = d.st ∧ c.pos = d.pos ∧ c.posBegin = d.posBegin ∧ c.rate = d.rate ∧
    c.initialized = d.initialized

/-- One party is Initiator and the other Responder (R230). -/
abbrev Role.Opposite (a b : Role) : Prop :=
  (a = .initiator ∧ b = .responder) ∨ (a = .responder ∧ b = .initiator)

/-- The invariant of the engine: R29 whenever it is READY, FCODE is 0 when ESTATE is not FAULTED (R31),
and names a fault that can be raised when it is (R304, R312). -/
abbrev State.Inv (s : State) : Prop :=
  (s.estate = .ready → s.ctx.Valid) ∧
  (s.estate ≠ .faulted → s.fcode = .none) ∧
  (s.estate = .faulted → s.fcode ≠ .none ∧ s.fcode ≠ .duplexConflict)

/-- Two states no host can tell apart: the same status registers, the same commands issued, the same
last response, and the same context where the engine is READY (R314, R343). -/
abbrev State.Indistinguishable (s t : State) : Prop :=
  s.estate = t.estate ∧ s.fcode = t.fcode ∧ s.inbox = t.inbox ∧ s.response = t.response ∧
    (s.estate = .ready → s.ctx = t.ctx)

end Sys2Proof.Machine
end

