-- ==== Sys2Proof/Certificates/Slice0/Obligations.lean ====
section
/-! DEFINITION. The statements for the provers. Each docstring names the rules of spec/ it comes from. -/

open Sys2Proof Sys2Proof.Machine

/-! ## Encoding -/

/-- The command words of R96 and R98, written out bit by bit, decode to the instructions of their
rows. -/
def Obligations.SpecWordsDecode : Prop :=
  decode ⟨0x00000002, 1, [0x61]⟩ = .ok (.ad false false [0x61]) ∧
  decode ⟨0x00000112, 1, [0x61]⟩ = .ok (.ad true true [0x61]) ∧
  decode ⟨0x00000006, 0, []⟩ = .ok (.key false []) ∧
  decode ⟨0x00000307, 12, []⟩ = .ok (.prf true 12) ∧
  decode ⟨0x0000001A, 1, [0x62]⟩ = .ok (.sendClr true false [0x62]) ∧
  decode ⟨0x0000000B, 0, []⟩ = .ok (.recvClr false false []) ∧
  decode ⟨0x0000010E, 1, [0x63]⟩ = .ok (.sendEnc false true [0x63]) ∧
  decode ⟨0x0000001F, 0, []⟩ = .ok (.recvEnc true false []) ∧
  decode ⟨0x0000021C, 32, []⟩ = .ok (.sendMac true false 32) ∧
  decode ⟨0x0000010D, 0, []⟩ = .ok (.recvMac false true []) ∧
  decode ⟨0x00000214, 5, []⟩ = .ok (.ratchet true 5) ∧
  decode ⟨0x01001000, 1, [0x78]⟩ = .ok (.init 256 [0x78]) ∧
  decode ⟨0x00002000, 0, []⟩ = .ok .save ∧
  decode ⟨0x00003000, 2, [0x00, 0x01]⟩ = .ok (.load [0x00, 0x01])

/-- Decoding an encoded well-formed instruction gives it back, every operand at every value its encoding
admits (R90, R96, R98). -/
def Obligations.DecodeOfEncode : Prop :=
  ∀ i : Instr, i.wellFormed = true → decode (encode i) = .ok i

/-- A command that decodes to an instruction is that instruction's one encoding, and the instruction is
well-formed (R90, R96, R98, R107). -/
def Obligations.EncodeOfDecode : Prop :=
  ∀ (c : Command) (i : Instr), decode c = .ok i → encode i = c ∧ i.wellFormed = true

/-- The decoder and spec/opcode_table.json agree: a command whose word matches a row decodes to that
row's instruction (SAVE only with LEN = 0, R313), and a command that decodes has a word that matches the
row of its mnemonic (R96, R98). -/
def Obligations.DecoderFollowsOpcodeTable : Prop :=
  (∀ r ∈ opcodeTable, ∀ c : Command, framed c = true → r.covers c.cmdw = true →
    (r.name = "SAVE" → c.len = 0) → ∃ i, decode c = .ok i ∧ mnemonic i = r.name) ∧
  (∀ (c : Command) (i : Instr), decode c = .ok i →
    ∃ r ∈ opcodeTable, r.name = mnemonic i ∧ r.covers c.cmdw = true)

/-- On a byte transport a command is 8 bytes and its data-in, words least significant byte first, and the
parser finds it and the bytes after it again (R66, R107). -/
def Obligations.ByteTransportRoundTrip : Prop :=
  ∀ (c : Command) (rest : List Byte), framed c = true →
    parseCommand (commandBytes c ++ rest) = some (c, rest) ∧
    (commandBytes c).length = 8 + (if takesData c.cmdw then c.len.toNat else 0) ∧
    ∀ k < 4, (commandBytes c)[k]? = some (c.cmdw.extractLsb' (8 * k) 8) ∧
      (commandBytes c)[4 + k]? = some (c.len.extractLsb' (8 * k) 8)

/-- Disassembling the word of an instruction gives its mnemonic with its options, except RECV_MAC with
MORE, which is written as a raw word, and so is every word that names no row (R110). R110 asks for 8 hex
digits; that `hexWord` writes them in upper case is the model's choice (log 17). -/
def Obligations.DisassemblyNamesTheRow : Prop :=
  (∀ i : Instr, namedButFaults i = false → disassemble (encodeWord i) = syntaxName i) ∧
  (∀ (m : Bool) (data : List Byte), disassemble (encodeWord (.recvMac m true data)) =
    ".word 0x" ++ String.ofList (hexWord (encodeWord (.recvMac m true data)))) ∧
  (∀ w : Word, (∀ r ∈ opcodeTable, r.covers w = false) →
    disassemble w = ".word 0x" ++ String.ofList (hexWord w))

/-! ## Flags -/

/-- M "does not change mechanics": adding M to a flag word changes no phase, no result class, no forced
block, no role binding and neither flag check; the framing byte gets M too (R93). -/
def Obligations.MetaChangesOnlyTheFlagByte : Prop :=
  ∀ (f : Byte) (r : Role), f &&& 0x10 = 0 →
    phaseBefore (f ||| 0x10) = phaseBefore f ∧ phaseAfter (f ||| 0x10) = phaseAfter f ∧
    resultClass (f ||| 0x10) = resultClass f ∧ hasFlag (f ||| 0x10) 0x04 = hasFlag f 0x04 ∧
    bindRole (f ||| 0x10) r = bindRole f r ∧ outputForbidden (f ||| 0x10) = outputForbidden f ∧
    reservedSet (f ||| 0x10) = reservedSet f ∧
    framingFlags (f ||| 0x10) r = framingFlags f r ||| 0x10

/-- The phases never conflict: no flag word sets both `cbefore` and `cafter` (R161, R186), and the
classes, phases and forced blocks of the ten operations are those of the table of R190. -/
def Obligations.PhasesOfTheTenOperations : Prop :=
  (∀ f : Byte, ¬ (phaseBefore f = true ∧ phaseAfter f = true)) ∧
  ∀ f ∈ [(0x02 : Byte), 0x06, 0x07, 0x0A, 0x0B, 0x0E, 0x0F, 0x0C, 0x0D, 0x04],
    hasFlag f 0x04 = decide (f ∉ [(0x02 : Byte), 0x0A, 0x0B]) ∧
    phaseBefore f = decide (f ∈ [(0x06 : Byte), 0x07, 0x0F, 0x0D, 0x04]) ∧
    phaseAfter f = decide (f ∈ [(0x0E : Byte), 0x0C]) ∧
    (resultClass f = .payload ↔ f ∈ [(0x07 : Byte), 0x0A, 0x0B, 0x0E, 0x0F, 0x0C]) ∧
    (resultClass f = .verify ↔ f = 0x0D)

/-- The role mask (R183): with T set, a Responder frames with bit I inverted; in every other case the
framing byte is the flag word itself. -/
def Obligations.ResponderFlipsTheFramingByte : Prop :=
  ∀ (f : Byte) (r : Role),
    (f &&& 0x08 ≠ 0 → r = .responder → framingFlags f r = f ^^^ 0x01) ∧
    (f &&& 0x08 = 0 ∨ r ≠ .responder → framingFlags f r = f)

/-! ## The permutation and the lane view -/

/-- The worked example of R140: F of the zero state, its first state bytes, and F twice. -/
def Obligations.PermutationOfTheZeroState : Prop :=
  (∀ k < 5, (keccakF (Vector.replicate 25 0))[k]? =
    [(0xF1258F7940E1DDE7 : Lane), 0x84D5CCF933C0478A, 0xD598261EA65AA9EE, 0xBD1547306F80494D,
      0x8B284E056253D057][k]?) ∧
  (keccakBytes (Vector.replicate 200 0)).toList.take 16 =
    [0xe7, 0xdd, 0xe1, 0x40, 0x79, 0x8f, 0x25, 0xf1, 0x8a, 0x47, 0xc0, 0x33, 0xf9, 0xcc, 0xd5, 0x84] ∧
  (keccakF (keccakF (Vector.replicate 25 0)))[0]? = some 0x2D5C954DF96ECB3C

/-- Bytes and lanes are two views of one state (R28, R63, R64): bit j of lane k is bit j mod 8 of state
byte 8k + j div 8, and going to the other view and back changes nothing, in either direction. -/
def Obligations.LanesAreAViewOfTheBytes : Prop :=
  (∀ (st : Vector Byte Config.stateBytes) (k j : Nat), k < 25 → j < 64 →
    ((lanesOfBytes st)[k]?.getD 0).getLsbD j = (st[8 * k + j / 8]?.getD 0).getLsbD (j % 8)) ∧
  (∀ st : Vector Byte Config.stateBytes, bytesOfLanes (lanesOfBytes st) = st) ∧
  (∀ a : Lanes, lanesOfBytes (bytesOfLanes a) = a)

/-- The step mappings at one lane, as R133 to R137 write them: theta; rho and pi together (the lane
A[x, y] goes, rotated by r[x, y], to B[y, 2x + 3y]); chi; iota. -/
def Obligations.StepMappingsAtALane : Prop :=
  ∀ (a : Lanes) (rc : Lane) (x y : Nat), x < 5 → y < 5 →
    laneAt (theta a) x y = laneAt a x y ^^^
      ((List.range 5).foldl (fun v k => v ^^^ laneAt a ((x + 4) % 5) k) 0 ^^^
        rotl64 ((List.range 5).foldl (fun v k => v ^^^ laneAt a ((x + 1) % 5) k) 0) 1) ∧
    laneAt (piStep (rho a)) y (2 * x + 3 * y) = rotl64 (laneAt a x y) (rhoOffset x y) ∧
    laneAt (chi a) x y =
      laneAt a x y ^^^ (~~~(laneAt a ((x + 1) % 5) y) &&& laneAt a ((x + 2) % 5) y) ∧
    laneAt (iota rc a) x y = (if x = 0 ∧ y = 0 then laneAt a x y ^^^ rc else laneAt a x y)

/-! ## The duplex primitive -/

/-- The context and the processed buffer of the duplex primitive are the two results of the loop of R160
as it is written there, for every context, every data and every phase setting. -/
def Obligations.DuplexIsTheLoopOfTheSpec : Prop :=
  ∀ (data : List Byte) (cbefore cafter forceF : Bool) (c : Context),
    pseudoDuplex data cbefore cafter forceF c =
      { ctx := duplexContext data cbefore forceF c, buf := duplexOutput data cbefore cafter c }

/-- The block-boundary routine (R162): F of the state with `posBegin` XORed in at `pos`, 0x04 at
`pos + 1` and 0x80 at `R + 1` (0x84 where the last two meet), or of the state as it is while
`initialized` is 0; then `pos` and `posBegin` are 0. Nothing else changes. -/
def Obligations.BlockBoundaryRoutine : Prop :=
  ∀ c : Context, c.pos ≤ c.rate → c.rate.toNat + 1 < 200 →
    ∃ v : Vector Byte Config.stateBytes,
      (∀ j, v[j]?.getD 0 =
        if c.initialized = true then
          memRead c j ^^^ (if j = c.pos.toNat then c.posBegin else 0) ^^^
            (if j = c.pos.toNat + 1 then 0x04 else 0) ^^^ (if j = c.rate.toNat + 1 then 0x80 else 0)
        else memRead c j) ∧
      runF c = { c with st := keccakBytes v, pos := 0, posBegin := 0 }

/-- One byte, for the three legal phase settings (R163, R160): the state `v` has the new byte at `pos`
and every other byte as before, and the processed byte is that of R163. Inside a block `pos` moves by one
and every other register stays; the byte that fills the block has the same effect, and then the
block-boundary routine runs at `pos` = R. -/
def Obligations.ByteEffectOfEachPhase : Prop :=
  ∀ (c : Context) (b : Byte), c.pos < c.rate → c.rate.toNat + 1 < 200 →
    ∀ cbefore cafter : Bool, ¬ (cbefore = true ∧ cafter = true) →
      duplexOutput [b] cbefore cafter c =
        [if cbefore || cafter then memRead c c.pos.toNat ^^^ b else b] ∧
      ∃ v : Vector Byte Config.stateBytes,
        (∀ j, v[j]?.getD 0 =
          if j = c.pos.toNat then (if cbefore then b else memRead c j ^^^ b) else memRead c j) ∧
        (c.pos.toNat + 1 < c.rate.toNat →
          duplexContext [b] cbefore false c = { c with st := v, pos := c.pos + 1 }) ∧
        (c.pos.toNat + 1 = c.rate.toNat →
          duplexContext [b] cbefore false c = runF { c with st := v, pos := c.rate })

/-- Position bookkeeping (R164): without a forced routine that fires, the final `pos` is (pos + n) mod R
and `posBegin` is 0 if a boundary was crossed and unchanged otherwise; a forced routine that fires sets
both to 0; the number of permutations is (pos + n) div R, plus one if the forced routine fires. -/
def Obligations.DuplexPositionBookkeeping : Prop :=
  ∀ (data : List Byte) (cbefore forceF : Bool) (c : Context), indicesInRange c = true →
    let total := c.pos.toNat + data.length
    let fires := forceF = true ∧ total % c.rate.toNat ≠ 0
    let d := duplexContext data cbefore forceF c
    (¬ fires → d.pos.toNat = total % c.rate.toNat ∧
      d.posBegin = if c.rate.toNat ≤ total then 0 else c.posBegin) ∧
    (fires → d.pos = 0 ∧ d.posBegin = 0) ∧
    duplexPermutations data cbefore forceF c =
      total / c.rate.toNat + (if fires then 1 else 0)

/-- Chunking (R165): the duplex of a ++ b is the duplex of a and then of b, in the context and in the
processed buffers, for every phase setting without a forced routine. -/
def Obligations.DuplexChunking : Prop :=
  ∀ (a b : List Byte) (cbefore cafter : Bool) (c : Context),
    duplexContext (a ++ b) cbefore false c =
      duplexContext b cbefore false (duplexContext a cbefore false c) ∧
    duplexOutput (a ++ b) cbefore cafter c =
      duplexOutput a cbefore cafter c ++
        duplexOutput b cbefore cafter (duplexContext a cbefore false c)

/-- Capacity isolation (R167): inside a block the byte loop leaves bytes R..199 alone, and up to the end
of the block the processed bytes do not depend on them; a block-boundary routine feeds F a state whose
bytes R + 2..199 are untouched by the padding. -/
def Obligations.CapacityIsolation : Prop :=
  (∀ (data : List Byte) (cbefore : Bool) (c : Context), indicesInRange c = true →
    c.pos.toNat + data.length < c.rate.toNat →
    ∀ j, c.rate.toNat ≤ j → memRead (duplexContext data cbefore false c) j = memRead c j) ∧
  (∀ (data : List Byte) (cbefore cafter : Bool) (c : Context)
    (other : Vector Byte Config.stateBytes), indicesInRange c = true →
    c.pos.toNat + data.length ≤ c.rate.toNat →
    (∀ j < c.rate.toNat, other[j]?.getD 0 = memRead c j) →
    duplexOutput data cbefore cafter { c with st := other } = duplexOutput data cbefore cafter c) ∧
  (∀ c : Context, c.pos ≤ c.rate → ∀ j, c.rate.toNat + 2 ≤ j → memRead (padBlock c) j = memRead c j)

/-! ## Framing -/

/-- Framing of an operation without C inside a block (R184): the old `posBegin` and the framing flag
byte are XORed in at `pos` and `pos + 1`, `posBegin` becomes `pos + 1`, `curFlags` the caller's flags,
and the role is bound; nothing else changes. -/
def Obligations.FramingInsideABlock : Prop :=
  ∀ (c : Context) (f : Byte), c.Valid → f &&& 0x04 = 0 → c.pos.toNat + 2 < c.rate.toNat →
    (∀ j, memRead (beginOp f c) j = memRead c j ^^^
      (if j = c.pos.toNat then c.posBegin else 0) ^^^
      (if j = c.pos.toNat + 1 then framingFlags f (bindRole f c.i0) else 0)) ∧
    beginOp f c =
      { c with
        st := (beginOp f c).st
        pos := c.pos + 2
        posBegin := c.pos + 1
        curFlags := f
        i0 := bindRole f c.i0 }

/-- Framing of an operation with C (R184, R185) when the two framing bytes fit the block: F of the state
with the framing bytes, `posBegin` = pos + 1 at pos + 2, 0x04 at pos + 3 and 0x80 at R + 1 XORed in. When
only the first fits, the boundary comes between the two, and the flag byte starts the next block, which
is padded and permuted too. `pos` and `posBegin` end at 0 either way. -/
def Obligations.FramingOfCipherOperations : Prop :=
  ∀ (c : Context) (f : Byte), c.Valid → f &&& 0x04 ≠ 0 →
    let p := c.pos.toNat
    let R := c.rate.toNat
    let fl := framingFlags f (bindRole f c.i0)
    beginOp f c =
      { c with
        st := (beginOp f c).st
        pos := 0
        posBegin := 0
        curFlags := f
        i0 := bindRole f c.i0 } ∧
    (p + 2 ≤ R →
      ∃ v : Vector Byte Config.stateBytes,
        (∀ j, v[j]?.getD 0 = memRead c j ^^^ (if j = p then c.posBegin else 0) ^^^
          (if j = p + 1 then fl else 0) ^^^ (if j = p + 2 then c.pos + 1 else 0) ^^^
          (if j = p + 3 then 0x04 else 0) ^^^ (if j = R + 1 then 0x80 else 0)) ∧
        (beginOp f c).st = keccakBytes v) ∧
    (p + 1 = R →
      ∃ v w : Vector Byte Config.stateBytes,
        (∀ j, v[j]?.getD 0 = memRead c j ^^^ (if j = p then c.posBegin else 0) ^^^
          (if j = R then c.rate else 0) ^^^ (if j = R + 1 then 0x84 else 0)) ∧
        (∀ j, w[j]?.getD 0 = (keccakBytes v)[j]?.getD 0 ^^^ (if j = 0 then fl else 0) ^^^
          (if j = 2 then 0x04 else 0) ^^^ (if j = R + 1 then 0x80 else 0)) ∧
        (beginOp f c).st = keccakBytes w)

/-- Permutations the framing applies (R185): for an operation with C, 1, or 2 when `pos` = R - 1; for
one without C, none unless a framing byte reaches R. With C, `pos` and `posBegin` always end at 0. -/
def Obligations.FramingPermutationCounts : Prop :=
  ∀ (c : Context) (f : Byte), c.Valid →
    let p := c.pos.toNat
    let R := c.rate.toNat
    (f &&& 0x04 ≠ 0 →
      (beginOp f c).pos = 0 ∧ (beginOp f c).posBegin = 0 ∧
      (p + 3 ≤ R → framingPermutations f c = 1) ∧ (p + 2 = R → framingPermutations f c = 1) ∧
      (p + 1 = R → framingPermutations f c = 2)) ∧
    (f &&& 0x04 = 0 → framingPermutations f c = if p + 2 < R then 0 else 1)

/-! ## The operations: they complete, and the registers they write -/

/-- AD, SEND_CLR and RECV_CLR complete in every operational state, with every data (R220, R223, R224):
the registers written, the rest unchanged, and the response. A continuation needs `curFlags` = FLAGS. -/
def Obligations.AbsorbingOperationsComplete : Prop :=
  ∀ (s : State) (m more : Bool) (data : List Byte), s.Operational →
    let R := s.ctx.rate.toNat
    let start := if more then s.ctx.pos.toNat else s.ctx.pos.toNat + 2
    let runs (i : Instr) (flags : Byte) (bound : Role) (out : List Byte) : Prop :=
      (more = true → s.ctx.curFlags = flags) →
      ∃ t, exec i s = .next t ∧ s.SameStatus t ∧ t.response = some ⟨0x00010000, out⟩ ∧
        t.ctx.pos.toNat = (start + data.length) % R ∧
        t.ctx.posBegin =
          (if R ≤ start + data.length then 0 else if more then s.ctx.posBegin else s.ctx.pos + 1) ∧
        t.ctx.rate = s.ctx.rate ∧ t.ctx.initialized = s.ctx.initialized ∧ t.ctx.curFlags = flags ∧
        t.ctx.i0 = if more = false ∧ s.ctx.i0 = .undecided then bound else s.ctx.i0
    runs (.ad m more data) (if m then 0x12 else 0x02) .undecided [] ∧
    runs (.sendClr m more data) (if m then 0x1A else 0x0A) .initiator data ∧
    runs (.recvClr m more data) (if m then 0x1B else 0x0B) .responder data

/-- KEY, PRF, SEND_ENC, RECV_ENC, SEND_MAC and RATCHET complete in every operational state, with every
operand (R221, R222, R225, R226, R227, R229). Without MORE the data starts at byte 0 of a fresh block. The
response is OK, and OUT has as many bytes as the operation returns. -/
def Obligations.CipherOperationsComplete : Prop :=
  ∀ (s : State) (m more : Bool) (data : List Byte) (len : Word), s.Operational →
    let R := s.ctx.rate.toNat
    let start := if more then s.ctx.pos.toNat else 0
    let runs (i : Instr) (flags : Byte) (bound : Role) (n nOut : Nat) : Prop :=
      (more = true → s.ctx.curFlags = flags) →
      ∃ t out, exec i s = .next t ∧ s.SameStatus t ∧
        t.response = some ⟨0x00010000, out⟩ ∧ out.length = nOut ∧
        t.ctx.pos.toNat = (start + n) % R ∧
        t.ctx.posBegin =
          (if R ≤ start + n then 0 else if more then s.ctx.posBegin else 0) ∧
        t.ctx.rate = s.ctx.rate ∧ t.ctx.initialized = s.ctx.initialized ∧ t.ctx.curFlags = flags ∧
        t.ctx.i0 = if more = false ∧ s.ctx.i0 = .undecided then bound else s.ctx.i0
    runs (.key more data) 0x06 .undecided data.length 0 ∧
    runs (.prf more len) 0x07 .undecided len.toNat len.toNat ∧
    runs (.sendEnc m more data) (if m then 0x1E else 0x0E) .initiator data.length data.length ∧
    runs (.recvEnc m more data) (if m then 0x1F else 0x0F) .responder data.length data.length ∧
    runs (.sendMac m more len) (if m then 0x1C else 0x0C) .initiator len.toNat len.toNat ∧
    (more = false → runs (.ratchet m len) (if m then 0x14 else 0x04) .undecided len.toNat 0)

/-- RECV_MAC without MORE completes in every operational state with every data (R228): the registers are
written whether the check passes or fails, ESTATE stays READY, OUT is empty, and a zero-length MAC always
verifies (R347). -/
def Obligations.RecvMacCompletes : Prop :=
  ∀ (s : State) (m : Bool) (data : List Byte), s.Operational →
    ∃ t status, exec (.recvMac m false data) s = .next t ∧ s.SameStatus t ∧
      t.response = some ⟨status, []⟩ ∧ (status = 0x00010000 ∨ status = 0x00010001) ∧
      (data = [] → status = 0x00010000) ∧
      t.ctx.pos.toNat = data.length % s.ctx.rate.toNat ∧ t.ctx.posBegin = 0 ∧
      t.ctx.rate = s.ctx.rate ∧ t.ctx.initialized = s.ctx.initialized ∧
      t.ctx.curFlags = (if m then 0x1D else 0x0D) ∧
      t.ctx.i0 = if s.ctx.i0 = .undecided then .responder else s.ctx.i0

/-! ## The operations: the state bytes and the output inside a block

Each statement gives every state byte after the data phase from the context `c` in which it starts:
`beginOp` for MORE = 0 (the framing statements say what that is), the context itself for MORE = 1. For data
of every length, OperationsRunTheDuplex gives the context and the output as those of the duplex primitive,
which DuplexChunking, ByteEffectOfEachPhase and BlockBoundaryRoutine then give byte by byte, up to the end of
a block and across it. -/

/-- Every operation runs the duplex primitive on its whole data, of every length (R189, R190, R160): the
state it leaves is that of the duplex with the operation's phase, `curFlags` and the role being those
`beginOp` set; OUT is the processed buffer, or empty; RECV_MAC answers AUTH_FAILED exactly when a processed
byte is not zero (R188). ESTATE, FCODE and the commands still issued stay. -/
def Obligations.OperationsRunTheDuplex : Prop :=
  ∀ (s : State) (m more : Bool) (data : List Byte) (len : Word), s.Operational →
    let z := List.replicate len.toNat (0 : Byte)
    let runs (i : Instr) (flags : Byte) (buf : List Byte) (cbefore : Bool)
        (answer : Context → Response) : Prop :=
      let c := openOp flags more s.ctx
      (more = true → s.ctx.curFlags = flags) →
      exec i s = .next { s with
        ctx := duplexContext buf cbefore false c
        response := some (answer c) }
    runs (.ad m more data) (if m then 0x12 else 0x02) data false (fun _ => ⟨0x00010000, []⟩) ∧
    runs (.key more data) 0x06 data true (fun _ => ⟨0x00010000, []⟩) ∧
    runs (.prf more len) 0x07 z true (fun c => ⟨0x00010000, duplexOutput z true false c⟩) ∧
    runs (.sendClr m more data) (if m then 0x1A else 0x0A) data false (fun _ => ⟨0x00010000, data⟩) ∧
    runs (.recvClr m more data) (if m then 0x1B else 0x0B) data false (fun _ => ⟨0x00010000, data⟩) ∧
    runs (.sendEnc m more data) (if m then 0x1E else 0x0E) data false
      (fun c => ⟨0x00010000, duplexOutput data false true c⟩) ∧
    runs (.recvEnc m more data) (if m then 0x1F else 0x0F) data true
      (fun c => ⟨0x00010000, duplexOutput data true false c⟩) ∧
    runs (.sendMac m more len) (if m then 0x1C else 0x0C) z false
      (fun c => ⟨0x00010000, duplexOutput z false true c⟩) ∧
    (more = false → runs (.recvMac m more data) (if m then 0x1D else 0x0D) data true (fun c =>
      ⟨if ∀ b ∈ duplexOutput data true false c, b = 0 then 0x00010000 else 0x00010001, []⟩)) ∧
    (more = false → runs (.ratchet m len) (if m then 0x14 else 0x04) z true
      (fun _ => ⟨0x00010000, []⟩))

/-- AD, SEND_CLR and RECV_CLR inside a block (R220, R223, R224, R190): each data byte is XORed into its
state byte, every other byte stays, and the clear operations echo their data. -/
def Obligations.AbsorbingDataInsideABlock : Prop :=
  ∀ (s : State) (m more : Bool) (data : List Byte), s.Operational →
    let runs (i : Instr) (flags : Byte) (out : List Byte) : Prop :=
      let c := openOp flags more s.ctx
      (more = true → s.ctx.curFlags = flags) → c.pos.toNat + data.length < c.rate.toNat →
      ∃ t, exec i s = .next t ∧ t.response = some ⟨0x00010000, out⟩ ∧
        ∀ j, memRead t.ctx j = memRead c j ^^^
          (if c.pos.toNat ≤ j ∧ j < c.pos.toNat + data.length then data.getD (j - c.pos.toNat) 0
           else 0)
    runs (.ad m more data) (if m then 0x12 else 0x02) [] ∧
    runs (.sendClr m more data) (if m then 0x1A else 0x0A) data ∧
    runs (.recvClr m more data) (if m then 0x1B else 0x0B) data

/-- KEY, RECV_ENC, RECV_MAC, PRF and RATCHET inside a block (R221, R226, R228, R222, R229, R190): the
data, or LEN zero bytes, replaces its state bytes and every other byte stays. RECV_ENC returns the data
XOR the old bytes and PRF the old bytes; KEY and RATCHET return nothing; RECV_MAC answers OK exactly when
every data byte equals the state byte it meets, AUTH_FAILED otherwise (R188). -/
def Obligations.OverwritingDataInsideABlock : Prop :=
  ∀ (s : State) (m more : Bool) (data : List Byte) (len : Word), s.Operational →
    let runs (i : Instr) (flags : Byte) (buf : List Byte) (answer : Context → Response) : Prop :=
      let c := openOp flags more s.ctx
      (more = true → s.ctx.curFlags = flags) → c.pos.toNat + buf.length < c.rate.toNat →
      ∃ t, exec i s = .next t ∧ t.response = some (answer c) ∧
        ∀ j, memRead t.ctx j =
          if c.pos.toNat ≤ j ∧ j < c.pos.toNat + buf.length then buf.getD (j - c.pos.toNat) 0
          else memRead c j
    runs (.key more data) 0x06 data (fun _ => ⟨0x00010000, []⟩) ∧
    runs (.recvEnc m more data) (if m then 0x1F else 0x0F) data (fun c => ⟨0x00010000,
      (List.range data.length).map fun i => data.getD i 0 ^^^ memRead c (c.pos.toNat + i)⟩) ∧
    (more = false → runs (.recvMac m more data) (if m then 0x1D else 0x0D) data (fun c =>
      ⟨if ∀ i < data.length, data.getD i 0 = memRead c (c.pos.toNat + i) then 0x00010000
        else 0x00010001, []⟩)) ∧
    runs (.prf more len) 0x07 (List.replicate len.toNat 0) (fun c => ⟨0x00010000,
      (List.range len.toNat).map fun i => memRead c (c.pos.toNat + i)⟩) ∧
    (more = false → runs (.ratchet m len) (if m then 0x14 else 0x04) (List.replicate len.toNat 0)
      (fun _ => ⟨0x00010000, []⟩))

/-- SEND_ENC and SEND_MAC inside a block (R225, R227, R190): the state byte is the ciphertext; a MAC byte
is the state byte, which stays; every other byte stays. -/
def Obligations.SendingDataInsideABlock : Prop :=
  ∀ (s : State) (m more : Bool) (data : List Byte) (len : Word), s.Operational →
    (let flags : Byte := if m then 0x1E else 0x0E
     let c := openOp flags more s.ctx
     (more = true → s.ctx.curFlags = flags) → c.pos.toNat + data.length < c.rate.toNat →
     ∃ t, exec (.sendEnc m more data) s = .next t ∧
      t.response = some ⟨0x00010000,
        (List.range data.length).map fun i => memRead c (c.pos.toNat + i) ^^^ data.getD i 0⟩ ∧
      ∀ j, memRead t.ctx j = memRead c j ^^^
        (if c.pos.toNat ≤ j ∧ j < c.pos.toNat + data.length then data.getD (j - c.pos.toNat) 0
         else 0)) ∧
    (let flags : Byte := if m then 0x1C else 0x0C
     let c := openOp flags more s.ctx
     (more = true → s.ctx.curFlags = flags) → c.pos.toNat + len.toNat < c.rate.toNat →
     ∃ t, exec (.sendMac m more len) s = .next t ∧
      t.response = some ⟨0x00010000,
        (List.range len.toNat).map fun i => memRead c (c.pos.toNat + i)⟩ ∧
      ∀ j, memRead t.ctx j = memRead c j)

/-! ## Streaming and pairing -/

/-- Streaming equivalence (R193): for every operation that admits MORE, `OP a` then `OP.MORE b` leaves the
same context as `OP (a ++ b)`, and the two OUT fields, concatenated, are the one OUT. The first command
may itself be a continuation. -/
def Obligations.StreamingEquivalence : Prop :=
  ∀ (s : State) (m more : Bool) (a b : List Byte) (la lb : Word), s.Operational →
    la.toNat + lb.toNat < 2 ^ 32 →
    let splits (flags : Byte) (whole first second : Instr) : Prop :=
      (more = true → s.ctx.curFlags = flags) →
      ∃ t u v, exec whole s = .next t ∧ exec first s = .next u ∧ exec second u = .next v ∧
        v.ctx = t.ctx ∧ lastOut u ++ lastOut v = lastOut t
    splits (if m then 0x12 else 0x02) (.ad m more (a ++ b)) (.ad m more a) (.ad m true b) ∧
    splits 0x06 (.key more (a ++ b)) (.key more a) (.key true b) ∧
    splits 0x07 (.prf more (la + lb)) (.prf more la) (.prf true lb) ∧
    splits (if m then 0x1A else 0x0A)
      (.sendClr m more (a ++ b)) (.sendClr m more a) (.sendClr m true b) ∧
    splits (if m then 0x1B else 0x0B)
      (.recvClr m more (a ++ b)) (.recvClr m more a) (.recvClr m true b) ∧
    splits (if m then 0x1E else 0x0E)
      (.sendEnc m more (a ++ b)) (.sendEnc m more a) (.sendEnc m true b) ∧
    splits (if m then 0x1F else 0x0F)
      (.recvEnc m more (a ++ b)) (.recvEnc m more a) (.recvEnc m true b) ∧
    splits (if m then 0x1C else 0x0C)
      (.sendMac m more (la + lb)) (.sendMac m more la) (.sendMac m true lb)

/-- Zero-length operations (R194): a command with MORE = 1 and LEN = 0 changes nothing but the response,
and a command with MORE = 0 and LEN = 0 does its framing and nothing else. -/
def Obligations.ZeroLengthOperations : Prop :=
  ∀ (s : State) (m : Bool), s.Operational →
    let continues (i : Instr) (flags : Byte) : Prop :=
      s.ctx.curFlags = flags → exec i s = .next { s with response := some ⟨0x00010000, []⟩ }
    let frames (i : Instr) (flags : Byte) : Prop :=
      exec i s = .next { s with ctx := beginOp flags s.ctx, response := some ⟨0x00010000, []⟩ }
    (continues (.ad m true []) (if m then 0x12 else 0x02) ∧ continues (.key true []) 0x06 ∧
      continues (.prf true 0) 0x07 ∧ continues (.sendClr m true []) (if m then 0x1A else 0x0A) ∧
      continues (.recvClr m true []) (if m then 0x1B else 0x0B) ∧
      continues (.sendEnc m true []) (if m then 0x1E else 0x0E) ∧
      continues (.recvEnc m true []) (if m then 0x1F else 0x0F) ∧
      continues (.sendMac m true 0) (if m then 0x1C else 0x0C)) ∧
    (frames (.ad m false []) (if m then 0x12 else 0x02) ∧ frames (.key false []) 0x06 ∧
      frames (.prf false 0) 0x07 ∧ frames (.sendClr m false []) (if m then 0x1A else 0x0A) ∧
      frames (.recvClr m false []) (if m then 0x1B else 0x0B) ∧
      frames (.sendEnc m false []) (if m then 0x1E else 0x0E) ∧
      frames (.recvEnc m false []) (if m then 0x1F else 0x0F) ∧
      frames (.sendMac m false 0) (if m then 0x1C else 0x0C) ∧
      frames (.recvMac m false []) (if m then 0x1D else 0x0D) ∧
      frames (.ratchet m 0) (if m then 0x14 else 0x04))

/-- Paired operations keep two parties' transcripts equal (R230). The operations without T run the same
on both, whatever the roles. The transport operations pair a send with the matching receive, when the
parties hold opposite roles once the operation has bound them: clear data is echoed on both sides, the
receiver of a ciphertext gets the plaintext back, and the receiver of a MAC answers OK. -/
def Obligations.PairedOperationsKeepTranscripts : Prop :=
  ∀ (s r : State) (m : Bool) (data : List Byte) (len : Word), s.Operational → r.Operational →
    s.ctx.SameTranscript r.ctx →
    (∀ i ∈ [Instr.ad m false data, .key false data, .prf false len, .ratchet m len],
      ∃ s' r', exec i s = .next s' ∧ exec i r = .next r' ∧ s'.ctx.SameTranscript r'.ctx ∧
        s'.response = r'.response) ∧
    ((bindRole 0x08 s.ctx.i0).Opposite (bindRole 0x09 r.ctx.i0) →
      (∃ s' r', exec (.sendClr m false data) s = .next s' ∧
        exec (.recvClr m false data) r = .next r' ∧
        s'.ctx.SameTranscript r'.ctx ∧ lastOut s' = data ∧ lastOut r' = data) ∧
      (∃ s' r', exec (.sendEnc m false data) s = .next s' ∧
        exec (.recvEnc m false (lastOut s')) r = .next r' ∧
        s'.ctx.SameTranscript r'.ctx ∧ lastOut r' = data) ∧
      (∃ s' r', exec (.sendMac m false len) s = .next s' ∧
        exec (.recvMac m false (lastOut s')) r = .next r' ∧
        s'.ctx.SameTranscript r'.ctx ∧ r'.response = some ⟨0x00010000, []⟩))

/-- The receiver accepts exactly the sender's MAC: a MAC of the sender's length verifies if and only if
it is the sender's, whatever its length (R188, R227, R230). -/
def Obligations.OnlyTheSendersMacVerifies : Prop :=
  ∀ (s r s' r' : State) (m : Bool) (len : Word) (mac : List Byte), s.Operational → r.Operational →
    s.ctx.SameTranscript r.ctx →
    (bindRole 0x08 s.ctx.i0).Opposite (bindRole 0x09 r.ctx.i0) →
    exec (.sendMac m false len) s = .next s' → mac.length = len.toNat →
    exec (.recvMac m false mac) r = .next r' →
    (r'.response = some ⟨0x00010000, []⟩ ↔ mac = lastOut s')

/-! ## INIT, SAVE and LOAD -/

/-- INIT with level 128 or 256 completes in every state, FAULTED included (R260, R266): READY, no fault
code, the STROBE rate, the protocol AD's registers, and a context that depends on the level and the
protocol string alone. -/
def Obligations.InitCompletes : Prop :=
  ∀ (s r : State) (level : BitVec 16) (proto : List Byte), level = 128 ∨ level = 256 →
    ∃ t u, exec (.init level proto) s = .next t ∧ exec (.init level proto) r = .next u ∧
      t.estate = .ready ∧ t.fcode = .none ∧ t.inbox = s.inbox ∧
      t.response = some ⟨0x00010000, []⟩ ∧ t.ctx = u.ctx ∧
      t.ctx.rate = (if level = 128 then 166 else 134) ∧ t.ctx.initialized = true ∧
      t.ctx.curFlags = 0x12 ∧ t.ctx.i0 = .undecided ∧
      t.ctx.pos.toNat = (2 + proto.length) % t.ctx.rate.toNat ∧
      t.ctx.posBegin = if t.ctx.rate.toNat ≤ 2 + proto.length then 0 else 1

/-- INIT (R261 to R266, R168), in every state: the bootstrap is F, without padding, of the state that
holds the 18 prefix bytes at 0..17 and zero above, with R then the STROBE rate and `initialized` 1; the
context INIT leaves is that of the protocol AD (flags A|M) on the bootstrap, which for an empty protocol
string is its framing alone. -/
def Obligations.InitBootstrap : Prop :=
  ∀ level : BitVec 16, level = 128 ∨ level = 256 →
    (∀ (s : State) (proto : List Byte), ∃ t, exec (.init level proto) s = .next t ∧
      t.ctx = duplexContext proto false false (beginOp 0x12 (initBootstrapped level)) ∧
      (proto = [] → t.ctx = beginOp 0x12 (initBootstrapped level))) ∧
    ∃ v : Vector Byte Config.stateBytes,
      (∀ j, v[j]?.getD 0 =
        [(0x01 : Byte), (if level = 128 then 0xA8 else 0x88), 0x01, 0x00, 0x01, 0x60, 0x53, 0x54, 0x52,
          0x4F, 0x42, 0x45, 0x76, 0x31, 0x2E, 0x30, 0x2E, 0x32].getD j 0) ∧
      initBootstrapped level =
        { st := keccakBytes v
          pos := 0
          posBegin := 0
          rate := if level = 128 then 166 else 134
          curFlags := 0
          initialized := true
          i0 := .undecided }

/-- INIT ends with the protocol AD, so `AD.M.MORE` right after it continues the protocol string (R265,
R195). -/
def Obligations.InitContinuesTheProtocolString : Prop :=
  ∀ (s : State) (level : BitVec 16) (a b : List Byte), level = 128 ∨ level = 256 →
    ∃ t u v, exec (.init level (a ++ b)) s = .next t ∧ exec (.init level a) s = .next u ∧
      exec (.ad true true b) u = .next v ∧ v.ctx = t.ctx

/-- INIT with any other level answers INVALID_SECURITY_LEVEL and changes nothing, not ESTATE and not
FCODE, in every state (R302). -/
def Obligations.InitInvalidLevel : Prop :=
  ∀ (s : State) (level : BitVec 16) (proto : List Byte), level ≠ 128 → level ≠ 256 →
    exec (.init level proto) s =
      .next { s with
        response := some ⟨0x02 ||| ((faultByte s.fcode).setWidth 32 <<< 8) |||
          ((statusBits s.estate).setWidth 32 <<< 16), []⟩ }

/-- SAVE in an operational state (R267, R268): the 206-byte image, byte by byte, and nothing changes. -/
def Obligations.SaveReturnsTheImage : Prop :=
  ∀ s : State, s.Operational →
    ∃ img : List Byte, exec .save s = .next { s with response := some ⟨0x00010000, img⟩ } ∧
      img.length = 206 ∧ (∀ j < 200, img[j]? = some (memRead s.ctx j)) ∧
      img.drop 200 = [s.ctx.pos, s.ctx.posBegin, s.ctx.rate, s.ctx.curFlags,
        if s.ctx.initialized then 1 else 0,
        match s.ctx.i0 with | .undecided => 0 | .initiator => 1 | .responder => 2]

/-- LOAD in UNINIT or READY (R269, R270): exactly the images that meet the seven conditions of R270 are
installed, byte by byte; every other image answers INVALID_IMAGE and changes nothing. -/
def Obligations.LoadInstallsExactlyValidImages : Prop :=
  ∀ (s : State) (img : List Byte), s.estate ≠ .faulted → s.fcode = .none →
    let byte (k : Nat) : Byte := img.getD k 0
    let valid : Prop := img.length = 206 ∧ byte 204 = 1 ∧ (byte 202 = 166 ∨ byte 202 = 134) ∧
      byte 200 < byte 202 ∧ byte 201 ≤ byte 200 ∧ byte 203 &&& 0xE0 = 0 ∧
      (byte 205 = 0 ∨ byte 205 = 1 ∨ byte 205 = 2)
    (valid → ∃ t, exec (.load img) s = .next t ∧ t.estate = .ready ∧ t.fcode = .none ∧
      t.inbox = s.inbox ∧ t.response = some ⟨0x00010000, []⟩ ∧
      (∀ j < 200, memRead t.ctx j = byte j) ∧ t.ctx.pos = byte 200 ∧ t.ctx.posBegin = byte 201 ∧
      t.ctx.rate = byte 202 ∧ t.ctx.curFlags = byte 203 ∧ t.ctx.initialized = true ∧
      (t.ctx.i0 = .undecided ↔ byte 205 = 0) ∧ (t.ctx.i0 = .initiator ↔ byte 205 = 1) ∧
      (t.ctx.i0 = .responder ↔ byte 205 = 2)) ∧
    (¬ valid → exec (.load img) s = .next { s with
      response := some ⟨0x03 ||| ((statusBits s.estate).setWidth 32 <<< 16), []⟩ })

/-- A LOAD of a SAVE image restores the context exactly (R269, R271): on the same engine or another, in
UNINIT or READY. -/
def Obligations.SaveThenLoadRestores : Prop :=
  ∀ s s' r : State, s.Operational → r.estate ≠ .faulted → exec .save s = .next s' →
    ∃ t, exec (.load (lastOut s')) r = .next t ∧ t.estate = .ready ∧ t.ctx = s.ctx

/-! ## Faults, refusals and their priority -/

/-- NOT_READY (R310): in UNINIT every operation command with ARG = 0 and RSV = 0, whatever its flags, and
SAVE fault with code 7 and leave the context. -/
def Obligations.NotReadyFault : Prop :=
  ∀ (s : State) (c : Command) (rest : List HostEvent), s.estate = .uninit →
    s.inbox = .command c :: rest → framed c = true →
    (c.cmdw &&& 0xFFFFFC00 = 0 ∨ (c.cmdw = 0x00002000 ∧ c.len = 0)) →
    step s = .next { s with
      inbox := rest
      estate := .faulted
      fcode := .notReady
      response := some ⟨0x00020704, []⟩ }

/-- UNNAMED_COMMAND (R308), outside FAULTED: CMD 4..15, RSV not 0, ARG not 0 outside INIT, bits 9:0 not
zero in INIT, SAVE or LOAD, LEN not 0 in SAVE; and on a READY engine, where neither flag check comes
first (R313), an operation word whose FLAGS and SRC are no row of R96, and RATCHET with MORE. -/
def Obligations.UnnamedCommandFault : Prop :=
  ∀ (s : State) (c : Command) (rest : List HostEvent), s.estate ≠ .faulted →
    s.inbox = .command c :: rest → framed c = true →
    let cmd := (c.cmdw >>> 12) &&& 0xF
    let flags : Byte := c.cmdw.extractLsb' 0 8
    let src := c.cmdw.getLsbD 9
    (3 < cmd ∨ c.cmdw &&& 0xC00 ≠ 0 ∨ (cmd ≠ 1 ∧ c.cmdw >>> 16 ≠ 0) ∨
      (cmd ≠ 0 ∧ c.cmdw &&& 0x3FF ≠ 0) ∨ (cmd = 2 ∧ c.len ≠ 0) ∨
      (s.estate = .ready ∧ cmd = 0 ∧ flags &&& 0xE0 = 0 ∧
        ¬ (src = true ∧ (flags &&& 0x09 = 0x09 ∨ flags &&& 0x03 = 0x02)) ∧
        ((src = false ∧ flags ∉ [(0x02 : Byte), 0x12, 0x06, 0x0A, 0x1A, 0x0B, 0x1B, 0x0E, 0x1E, 0x0F, 0x1F,
            0x0D, 0x1D]) ∨
          (src = true ∧ flags ∉ [(0x07 : Byte), 0x0C, 0x1C, 0x04, 0x14]) ∨
          (src = true ∧ flags ∈ [(0x04 : Byte), 0x14] ∧ c.cmdw.getLsbD 8 = true)))) →
    step s = .next { s with
      inbox := rest
      estate := .faulted
      fcode := .unnamedCommand
      response := some ⟨0x00020604, []⟩ }

/-- OUTPUT_FLAGS and RESERVED_FLAG (R307, R303), on a READY engine: an operation command with SRC = 1
and flags `output` cannot produce faults with code 5; one with K, bit 6 or bit 7 set, where that check
does not come first (R313), with code 1. -/
def Obligations.FlagFaults : Prop :=
  ∀ (s : State) (c : Command) (rest : List HostEvent), s.estate = .ready →
    s.inbox = .command c :: rest → framed c = true → c.cmdw &&& 0xFFFFFC00 = 0 →
    let flags : Byte := c.cmdw.extractLsb' 0 8
    let output : Prop := c.cmdw.getLsbD 9 = true ∧ (flags &&& 0x09 = 0x09 ∨ flags &&& 0x03 = 0x02)
    (output → step s = .next { s with
      inbox := rest
      estate := .faulted
      fcode := .outputFlags
      response := some ⟨0x00020504, []⟩ }) ∧
    (flags &&& 0xE0 ≠ 0 → ¬ output → step s = .next { s with
      inbox := rest
      estate := .faulted
      fcode := .reservedFlag
      response := some ⟨0x00020104, []⟩ })

/-- STREAM_MISMATCH and MAC_STREAMING (R305, R306): an operation with MORE = 1 whose FLAGS differs from
`curFlags` faults with code 3, RECV_MAC among them; RECV_MAC with MORE = 1 and `curFlags` = FLAGS faults
with code 4. Nothing else changes. -/
def Obligations.StreamingFaults : Prop :=
  ∀ (s : State) (m : Bool) (data : List Byte) (len : Word), s.estate = .ready →
    let faults (i : Instr) (flags : Byte) : Prop := s.ctx.curFlags ≠ flags →
      exec i s = .next { s with
        estate := .faulted
        fcode := .streamMismatch
        response := some ⟨0x00020304, []⟩ }
    faults (.ad m true data) (if m then 0x12 else 0x02) ∧ faults (.key true data) 0x06 ∧
    faults (.prf true len) 0x07 ∧ faults (.sendClr m true data) (if m then 0x1A else 0x0A) ∧
    faults (.recvClr m true data) (if m then 0x1B else 0x0B) ∧
    faults (.sendEnc m true data) (if m then 0x1E else 0x0E) ∧
    faults (.recvEnc m true data) (if m then 0x1F else 0x0F) ∧
    faults (.sendMac m true len) (if m then 0x1C else 0x0C) ∧
    faults (.recvMac m true data) (if m then 0x1D else 0x0D) ∧
    (s.ctx.curFlags = (if m then 0x1D else 0x0D) →
      exec (.recvMac m true data) s = .next { s with
        estate := .faulted
        fcode := .macStreaming
        response := some ⟨0x00020404, []⟩ })

/-- Fault entry (R309), whatever the command: a step that takes the engine into FAULTED leaves the
context as it was, puts a code in FCODE that is neither 0 nor DUPLEX_CONFLICT, and answers FAULT with that
code and no data. -/
def Obligations.FaultEntry : Prop :=
  ∀ s t : State, step s = .next t → s.estate ≠ .faulted → t.estate = .faulted →
    t.ctx = s.ctx ∧ t.fcode ≠ .none ∧ t.fcode ≠ .duplexConflict ∧ t.inbox = s.inbox.tail ∧
    t.response = some ⟨0x00020004 ||| ((faultByte t.fcode).setWidth 32 <<< 8), []⟩

/-- REFUSED_FAULTED (R315): in FAULTED every command except a well-formed INIT does nothing, and answers
0x05 with FCODE, which still holds the code of the fault. -/
def Obligations.FaultedRefuses : Prop :=
  ∀ (s : State) (c : Command) (rest : List HostEvent), s.estate = .faulted →
    s.inbox = .command c :: rest → framed c = true → c.cmdw &&& 0xFFFF ≠ 0x1000 →
    step s = .next { s with
      inbox := rest
      response := some ⟨0x00020005 ||| ((faultByte s.fcode).setWidth 32 <<< 8), []⟩ }

/-- Leaving FAULTED (R316): only a well-formed INIT with a valid level, which sets READY and FCODE = 0,
and reset, also one that abandons a command, leave it; an INIT with an invalid level stays FAULTED; both ways out do lead out. -/
def Obligations.LeavingFaulted : Prop :=
  ∀ s : State, s.estate = .faulted →
    (∀ t, step s = .next t → t.estate ≠ .faulted →
      (∃ e rest, s.inbox = e :: rest ∧ e.isReset = true ∧ t.estate = .uninit) ∨
      (∃ c rest, s.inbox = .command c :: rest ∧ (c.cmdw = 0x00801000 ∨ c.cmdw = 0x01001000) ∧
        t.estate = .ready)) ∧
    (∀ c rest, s.inbox = .command c :: rest → framed c = true →
      (c.cmdw = 0x00801000 ∨ c.cmdw = 0x01001000) →
      ∃ t, step s = .next t ∧ t.estate = .ready ∧ t.fcode = .none) ∧
    (∀ c rest, s.inbox = .command c :: rest → framed c = true → c.cmdw &&& 0xFFFF = 0x1000 →
      c.cmdw ≠ 0x00801000 → c.cmdw ≠ 0x01001000 →
      step s = .next { s with
        inbox := rest
        response := some ⟨0x00020002 ||| ((faultByte s.fcode).setWidth 32 <<< 8), []⟩ }) ∧
    (∀ e rest, s.inbox = e :: rest → e.isReset = true →
      ∃ t, step s = .next t ∧ t.estate = .uninit ∧ t.fcode = .none)

/-! ## Steps -/

/-- When the oldest event is a command that decodes to an instruction, the step takes it out of the inbox
and runs that instruction, and issuing the encoding of a well-formed instruction runs that instruction
(R10, R90, R313). -/
def Obligations.StepRunsTheDecodedCommand : Prop :=
  (∀ (s : State) (c : Command) (i : Instr) (rest : List HostEvent), s.inbox = .command c :: rest →
    decode c = .ok i → step s = exec i { s with inbox := rest }) ∧
  (∀ (s : State) (i : Instr), i.wellFormed = true → issueNow i s = exec i s)

/-- Every command and every reset completes (R325, R166): from a state that meets the invariant, with a
command issued or a reset arriving, the step gives a next state, and takes exactly that event out. That a
reset leaves the events issued after it, and takes out with it the command it abandons, is the model's
choice (log 6). -/
def Obligations.EveryCommandCompletes : Prop :=
  ∀ (s : State) (e : HostEvent) (rest : List HostEvent), s.Inv → s.inbox = e :: rest →
    (∀ c, e = .command c → framed c = true) → ∃ t, step s = .next t ∧ t.inbox = rest

/-- The only stops (logs 2, 3 and 4, the model's choice where the spec gives no effect): nothing issued,
a triple that is no command, and a READY engine whose context would index outside the state. -/
def Obligations.TheOnlyStops : Prop :=
  ∀ s : State,
    (∀ r, step s = .refused r ↔
      (r = .noCommand ∧ s.inbox = []) ∨
      (r = .malformedCommand ∧ ∃ c rest, s.inbox = .command c :: rest ∧ framed c = false)) ∧
    (∀ f, step s = .fault f → s.estate = .ready ∧ indicesInRange s.ctx = false)

/-- Reset (R340, R38): UNINIT, FCODE 0 and every context element zero, in the state after reset and after
a reset event from every state, READY and FAULTED included. A command in progress when reset arrives is
abandoned: it gives no response, it leaves none of its effect, and it does not run afterwards, since
nothing is still issued but events from after it. That the response is none even where an earlier command
had been answered is the model's choice (log 6): reset clears the last response. -/
def Obligations.ResetGivesTheResetState : Prop :=
  let isReset (t : State) : Prop :=
    t.estate = .uninit ∧ t.fcode = .none ∧ (∀ j, memRead t.ctx j = 0) ∧ t.ctx.pos = 0 ∧
      t.ctx.posBegin = 0 ∧ t.ctx.rate = 0 ∧ t.ctx.curFlags = 0 ∧ t.ctx.initialized = false ∧
      t.ctx.i0 = .undecided
  isReset State.reset ∧
  (∀ (s : State) (rest : List HostEvent), s.inbox = .reset :: rest → ∃ t, step s = .next t ∧ isReset t) ∧
  (∀ (s : State) (c : Command) (rest : List HostEvent), s.inbox = .resetDuring c :: rest →
    ∃ t, step s = .next t ∧ isReset t ∧ t.response = none ∧ t.inbox <:+ rest)

/-- The state after reset meets the invariant. -/
def Obligations.ResetMeetsTheInvariant : Prop := State.reset.Inv

/-- Every step keeps the invariant (R29, R31): a READY engine holds a context that meets R29, FCODE is 0
outside FAULTED, and in FAULTED it holds a code that can be raised. -/
def Obligations.StepKeepsTheInvariant : Prop :=
  ∀ s t : State, s.Inv → step s = .next t → t.Inv

/-- The status word (R103, R104): after every command the response holds RESULT in 7:0, and FCODE and
ESTATE as they are after the command in 15:8 and 17:16; bits 31:18 are zero, and RESULT is at most 5
(R105). -/
def Obligations.StatusWordReadsTheRegisters : Prop :=
  ∀ (s t : State) (c : Command) (rest : List HostEvent), s.inbox = .command c :: rest →
    step s = .next t →
    ∃ r, t.response = some r ∧ r.status.extractLsb' 18 14 = 0 ∧
      r.status.extractLsb' 0 8 ≤ (5 : Byte) ∧ r.status.extractLsb' 8 8 = faultByte t.fcode ∧
      r.status.extractLsb' 16 2 = statusBits t.estate

/-- The four outcome kinds (R300): the result code fixes what happens to ESTATE and FCODE, and which
outcomes leave the context. Success leaves READY, and FCODE as it was but for INIT, which clears it; a
user-visible error leaves ESTATE and FCODE, and the context too unless it is AUTH_FAILED, which only a READY
engine's RECV_MAC gives; a fault writes FCODE and a refusal leaves it, both leave the context, and the engine
is FAULTED. OUT is empty unless the result is OK (R102). What a success and AUTH_FAILED do to the context is
the command's own rule (OperationsRunTheDuplex and the INIT, SAVE and LOAD statements). -/
def Obligations.OutcomeKinds : Prop :=
  ∀ (s t : State) (c : Command) (rest : List HostEvent) (r : Response),
    s.inbox = .command c :: rest → step s = .next t → t.response = some r →
    let result : Byte := r.status.extractLsb' 0 8
    (result = 0 → t.estate = .ready ∧
      (c.cmdw &&& 0xFFFF = 0x1000 → t.fcode = .none) ∧
      (c.cmdw &&& 0xFFFF ≠ 0x1000 → t.fcode = s.fcode)) ∧
    (result = 1 → s.estate = .ready ∧ t.estate = .ready ∧ t.fcode = s.fcode ∧
      c.cmdw &&& 0xFFFFFFEF = 0x0D) ∧
    (result = 2 ∨ result = 3 → t.estate = s.estate ∧ t.fcode = s.fcode ∧ t.ctx = s.ctx) ∧
    (result = 4 → t.estate = .faulted ∧ s.estate ≠ .faulted ∧ t.ctx = s.ctx ∧
      t.fcode ≠ .none ∧ t.fcode ≠ .duplexConflict) ∧
    (result = 5 → t.estate = .faulted ∧ s.estate = .faulted ∧ t.fcode = s.fcode ∧ t.ctx = s.ctx) ∧
    (result ≠ 0 → r.out = [])

/-- Who writes what (R33): whatever the instruction and the outcome, an operation never writes `R` or
`initialized`, writes `curFlags` and `i0` only with MORE = 0 (and `i0` only with T), SAVE writes no
context element, LOAD never writes FCODE, and no instruction touches the commands still issued. -/
def Obligations.AccessTable : Prop :=
  ∀ (i : Instr) (s t : State), exec i s = .next t →
    t.inbox = s.inbox ∧
    ((∀ level proto, i ≠ .init level proto) → (∀ img, i ≠ .load img) →
      t.ctx.rate = s.ctx.rate ∧ t.ctx.initialized = s.ctx.initialized ∧
      (encodeWord i &&& 0x100 ≠ 0 → t.ctx.curFlags = s.ctx.curFlags ∧ t.ctx.i0 = s.ctx.i0) ∧
      (encodeWord i &&& 0x08 = 0 → t.ctx.i0 = s.ctx.i0)) ∧
    (i = .save → t.ctx = s.ctx) ∧
    (∀ img, i = .load img → t.fcode = s.fcode)

/-- The role is monotone (R182, R27): once `i0` is not Undecided, only reset, INIT or LOAD changes it. -/
def Obligations.RoleIsMonotone : Prop :=
  ∀ s t : State, step s = .next t → s.ctx.i0 ≠ .undecided → t.ctx.i0 ≠ s.ctx.i0 →
    (∃ e rest, s.inbox = e :: rest ∧ e.isReset = true) ∨
    (∃ c rest, s.inbox = .command c :: rest ∧
      (c.cmdw &&& 0xFFFF = 0x1000 ∨ c.cmdw = 0x00003000))

/-- The context is observable only in READY (R343, R314): two states that agree on everything a host can
see, and on the context only where the engine is READY, take steps that answer the same and end in states
that agree in the same way. -/
def Obligations.ContextHiddenUnlessReady : Prop :=
  ∀ s t : State, s.Indistinguishable t →
    (∀ s', step s = .next s' → ∃ t', step t = .next t' ∧ s'.Indistinguishable t') ∧
    (∀ f, step s = .fault f → step t = .fault f) ∧
    (∀ r, step s = .refused r → step t = .refused r)

/-- The work of a command is bounded (R325): an operation applies at most (2 + LEN) div R + 2
permutations, and INIT one and those of its protocol AD, which run at the STROBE rate. -/
def Obligations.PermutationBound : Prop :=
  (∀ (c : Context) (flags : Byte) (buf : List Byte) (more : Bool), c.Valid →
    operatePermutations flags buf more c ≤ (2 + buf.length) / c.rate.toNat + 2) ∧
  (∀ (level : BitVec 16) (proto : List Byte), level = 128 ∨ level = 256 →
    initPermutations level proto =
      1 + (2 + proto.length) / (if level = 128 then 166 else 134))

/-! ## Several engines -/

/-- Engines share nothing (R323, R40): a step of engine k leaves every other engine as it is, and two
engines' steps can be taken in either order. -/
def Obligations.EnginesAreIndependent : Prop :=
  (∀ (k : Nat) (y z : System), stepEngine k y = some (.next z) →
    z.engines.length = y.engines.length ∧ ∀ j, j ≠ k → z.engines[j]? = y.engines[j]?) ∧
  (∀ (j k : Nat) (y u v : System), j ≠ k → stepEngine j y = some (.next u) →
    stepEngine k y = some (.next v) →
    ∃ z, stepEngine k u = some (.next z) ∧ stepEngine j v = some (.next z))

/-- CLONE (R271, R109): the clone's context equals the original's, which stays as it was, and no other
engine changes. -/
def Obligations.CloneCopiesTheContext : Prop :=
  ∀ (y : System) (e f : Nat) (s r : State), e ≠ f → y.engines[e]? = some s →
    y.engines[f]? = some r → s.Operational → r.estate ≠ .faulted →
    ∃ z s' r', cloneEngine e f y = some z ∧ z.engines[e]? = some s' ∧ z.engines[f]? = some r' ∧
      s'.ctx = s.ctx ∧ r'.ctx = s.ctx ∧ s'.estate = .ready ∧ r'.estate = .ready ∧
      ∀ j, j ≠ e → j ≠ f → z.engines[j]? = y.engines[j]?
end

