-- ==== Sys2Proof/Laws/Decode.lean ====
section
/-! SUPPORT. The encoding: the fields of the words the encoder writes, the framing of an encoding, and
what the decoder can answer. -/

namespace Sys2Proof

open Sys2Proof.Machine

/-! ## Fields of an operation word -/

@[simp] theorem wordFlags_opWord (f : Byte) (more src : Bool) : wordFlags (opWord f more src) = f := by
  unfold wordFlags opWord
  ext i hi
  cases more <;> cases src <;> interval_cases i <;> simp

@[simp] theorem wordMore_opWord (f : Byte) (more src : Bool) : wordMore (opWord f more src) = more := by
  unfold wordMore opWord
  cases more <;> cases src <;> simp

@[simp] theorem wordSrc_opWord (f : Byte) (more src : Bool) : wordSrc (opWord f more src) = src := by
  unfold wordSrc opWord
  cases more <;> cases src <;> simp

@[simp] theorem wordRsv_opWord (f : Byte) (more src : Bool) : wordRsv (opWord f more src) = 0 := by
  unfold wordRsv opWord
  ext i hi
  cases more <;> cases src <;> interval_cases i <;> simp

@[simp] theorem wordCmd_opWord (f : Byte) (more src : Bool) : wordCmd (opWord f more src) = 0 := by
  unfold wordCmd opWord
  ext i hi
  cases more <;> cases src <;> interval_cases i <;> simp

@[simp] theorem wordArg_opWord (f : Byte) (more src : Bool) : wordArg (opWord f more src) = 0 := by
  unfold wordArg opWord
  ext i hi
  cases more <;> cases src <;> interval_cases i <;> simp

/-! ## Fields of an INIT word -/

@[simp] theorem wordCmd_init (level : BitVec 16) :
    wordCmd (initWord level) = 1 := by
  unfold wordCmd initWord
  ext i hi
  interval_cases i <;> simp

@[simp] theorem wordRsv_init (level : BitVec 16) :
    wordRsv (initWord level) = 0 := by
  unfold wordRsv initWord
  ext i hi
  interval_cases i <;> simp

@[simp] theorem wordLow_init (level : BitVec 16) :
    wordLow (initWord level) = 0 := by
  unfold wordLow initWord
  ext i hi
  interval_cases i <;> simp

@[simp] theorem wordArg_init (level : BitVec 16) :
    wordArg (initWord level) = level := by
  unfold wordArg initWord
  ext i hi
  interval_cases i <;> simp

/-! ## Framing -/

/-- The length word of data that fits it. -/
theorem ofNat_length_toNat {data : List Byte} (h : fitsLen data = true) :
    (BitVec.ofNat 32 data.length).toNat = data.length := by
  simpa [fitsLen] using h

/-- A word takes data-in or not, by the instruction (R90). -/
theorem takesData_encodeWord (i : Instr) :
    takesData (encodeWord i) =
      match i with
      | .prf _ _ | .sendMac _ _ _ | .ratchet _ _ | .save => false
      | .ad _ _ _ | .key _ _ | .sendClr _ _ _ | .recvClr _ _ _ | .sendEnc _ _ _ | .recvEnc _ _ _
      | .recvMac _ _ _ | .init _ _ | .load _ => true := by
  cases i <;> simp [takesData, encodeWord] <;> decide +revert

/-- What the decoder answers with an instruction has passed the framing check and the word checks. -/
theorem decode_ok_iff (c : Command) (i : Instr) :
    decode c = .ok i ↔ framed c = true ∧ decodeWord c = .ok i := by
  unfold decode
  split
  · next h =>
    cases hd : decodeWord c <;> simp [h]
  · next h => simp [h]

/-- What the decoder answers with an illegal word has passed the framing check. -/
theorem decode_illegal_iff (c : Command) (why : IllegalWord) :
    decode c = .error (.illegal why) ↔ framed c = true ∧ decodeWord c = .error why := by
  unfold decode
  split
  · next h =>
    cases hd : decodeWord c <;> simp [h]
  · next h => simp [h]

/-- The decoder finds no command exactly in a triple that is not framed. -/
theorem decode_misframed_iff (c : Command) : decode c = .error .misframed ↔ framed c = false := by
  unfold decode
  split
  · next h =>
    cases hd : decodeWord c <;> simp [h]
  · next h => simp [h]

end Sys2Proof
end

