-- ==== Sys2Proof/Laws/State.lean ====
section
/-! SUPPORT. One lemma per field per update of the state: what each shared operation writes and what it
leaves. -/

namespace Sys2Proof.Machine

/-! ## The state byte space -/

@[simp] theorem memWrite_pos (c : Context) (i : Nat) (v : Byte) : (memWrite c i v).pos = c.pos := rfl
@[simp] theorem memWrite_posBegin (c : Context) (i : Nat) (v : Byte) :
    (memWrite c i v).posBegin = c.posBegin := rfl
@[simp] theorem memWrite_rate (c : Context) (i : Nat) (v : Byte) : (memWrite c i v).rate = c.rate := rfl
@[simp] theorem memWrite_curFlags (c : Context) (i : Nat) (v : Byte) :
    (memWrite c i v).curFlags = c.curFlags := rfl
@[simp] theorem memWrite_initialized (c : Context) (i : Nat) (v : Byte) :
    (memWrite c i v).initialized = c.initialized := rfl
@[simp] theorem memWrite_i0 (c : Context) (i : Nat) (v : Byte) : (memWrite c i v).i0 = c.i0 := rfl

@[simp] theorem memXor_pos (c : Context) (i : Nat) (v : Byte) : (memXor c i v).pos = c.pos := rfl
@[simp] theorem memXor_posBegin (c : Context) (i : Nat) (v : Byte) :
    (memXor c i v).posBegin = c.posBegin := rfl
@[simp] theorem memXor_rate (c : Context) (i : Nat) (v : Byte) : (memXor c i v).rate = c.rate := rfl
@[simp] theorem memXor_curFlags (c : Context) (i : Nat) (v : Byte) :
    (memXor c i v).curFlags = c.curFlags := rfl
@[simp] theorem memXor_initialized (c : Context) (i : Nat) (v : Byte) :
    (memXor c i v).initialized = c.initialized := rfl
@[simp] theorem memXor_i0 (c : Context) (i : Nat) (v : Byte) : (memXor c i v).i0 = c.i0 := rfl

/-! ## The block-boundary routine -/

@[simp] theorem padBlock_pos (c : Context) : (padBlock c).pos = c.pos := by unfold padBlock; split <;> rfl
@[simp] theorem padBlock_posBegin (c : Context) : (padBlock c).posBegin = c.posBegin := by
  unfold padBlock; split <;> rfl
@[simp] theorem padBlock_rate (c : Context) : (padBlock c).rate = c.rate := by
  unfold padBlock; split <;> rfl
@[simp] theorem padBlock_curFlags (c : Context) : (padBlock c).curFlags = c.curFlags := by
  unfold padBlock; split <;> rfl
@[simp] theorem padBlock_initialized (c : Context) : (padBlock c).initialized = c.initialized := by
  unfold padBlock; split <;> rfl
@[simp] theorem padBlock_i0 (c : Context) : (padBlock c).i0 = c.i0 := by unfold padBlock; split <;> rfl

@[simp] theorem runF_pos (c : Context) : (runF c).pos = 0 := rfl
@[simp] theorem runF_posBegin (c : Context) : (runF c).posBegin = 0 := rfl
@[simp] theorem runF_rate (c : Context) : (runF c).rate = c.rate := by
  simp [runF]
@[simp] theorem runF_curFlags (c : Context) : (runF c).curFlags = c.curFlags := by
  simp [runF]
@[simp] theorem runF_initialized (c : Context) : (runF c).initialized = c.initialized := by
  simp [runF]
@[simp] theorem runF_i0 (c : Context) : (runF c).i0 = c.i0 := by
  simp [runF]

/-! ## One turn of the byte loop -/

@[simp] theorem absorbByte_pos (cb : Bool) (c : Context) (b : Byte) : (absorbByte cb c b).pos = c.pos := rfl
@[simp] theorem absorbByte_posBegin (cb : Bool) (c : Context) (b : Byte) :
    (absorbByte cb c b).posBegin = c.posBegin := rfl
@[simp] theorem absorbByte_rate (cb : Bool) (c : Context) (b : Byte) :
    (absorbByte cb c b).rate = c.rate := rfl
@[simp] theorem absorbByte_curFlags (cb : Bool) (c : Context) (b : Byte) :
    (absorbByte cb c b).curFlags = c.curFlags := rfl
@[simp] theorem absorbByte_initialized (cb : Bool) (c : Context) (b : Byte) :
    (absorbByte cb c b).initialized = c.initialized := rfl
@[simp] theorem absorbByte_i0 (cb : Bool) (c : Context) (b : Byte) : (absorbByte cb c b).i0 = c.i0 := rfl

@[simp] theorem advance_rate (c : Context) : (advance c).rate = c.rate := by
  unfold advance; split <;> simp
@[simp] theorem advance_curFlags (c : Context) : (advance c).curFlags = c.curFlags := by
  unfold advance; split <;> simp
@[simp] theorem advance_initialized (c : Context) : (advance c).initialized = c.initialized := by
  unfold advance; split <;> simp
@[simp] theorem advance_i0 (c : Context) : (advance c).i0 = c.i0 := by unfold advance; split <;> simp

@[simp] theorem byteStep_rate (cb : Bool) (c : Context) (b : Byte) : (byteStep cb c b).rate = c.rate := by
  simp [byteStep]
@[simp] theorem byteStep_curFlags (cb : Bool) (c : Context) (b : Byte) :
    (byteStep cb c b).curFlags = c.curFlags := by simp [byteStep]
@[simp] theorem byteStep_initialized (cb : Bool) (c : Context) (b : Byte) :
    (byteStep cb c b).initialized = c.initialized := by simp [byteStep]
@[simp] theorem byteStep_i0 (cb : Bool) (c : Context) (b : Byte) : (byteStep cb c b).i0 = c.i0 := by
  simp [byteStep]

/-! ## Responses and faults -/

@[simp] theorem respond_ctx (r : Result) (out : List Byte) (s : State) : (respond r out s).ctx = s.ctx := rfl
@[simp] theorem respond_estate (r : Result) (out : List Byte) (s : State) :
    (respond r out s).estate = s.estate := rfl
@[simp] theorem respond_fcode (r : Result) (out : List Byte) (s : State) :
    (respond r out s).fcode = s.fcode := rfl
@[simp] theorem respond_inbox (r : Result) (out : List Byte) (s : State) :
    (respond r out s).inbox = s.inbox := rfl
@[simp] theorem respond_response (r : Result) (out : List Byte) (s : State) :
    (respond r out s).response = some ⟨statusWord r s.fcode s.estate, out⟩ := rfl

@[simp] theorem raiseFault_ctx (code : FaultCode) (s : State) : (raiseFault code s).ctx = s.ctx := rfl
@[simp] theorem raiseFault_estate (code : FaultCode) (s : State) :
    (raiseFault code s).estate = .faulted := rfl
@[simp] theorem raiseFault_fcode (code : FaultCode) (s : State) : (raiseFault code s).fcode = code := rfl
@[simp] theorem raiseFault_inbox (code : FaultCode) (s : State) :
    (raiseFault code s).inbox = s.inbox := rfl
@[simp] theorem raiseFault_response (code : FaultCode) (s : State) :
    (raiseFault code s).response = some ⟨statusWord .fault code .faulted, []⟩ := rfl

@[simp] theorem refuseFaulted_ctx (s : State) : (refuseFaulted s).ctx = s.ctx := rfl
@[simp] theorem refuseFaulted_estate (s : State) : (refuseFaulted s).estate = s.estate := rfl
@[simp] theorem refuseFaulted_fcode (s : State) : (refuseFaulted s).fcode = s.fcode := rfl
@[simp] theorem refuseFaulted_inbox (s : State) : (refuseFaulted s).inbox = s.inbox := rfl
@[simp] theorem refuseFaulted_response (s : State) :
    (refuseFaulted s).response = some ⟨statusWord .refusedFaulted s.fcode s.estate, []⟩ := rfl

@[simp] theorem becomeReady_ctx (c : Context) (s : State) : (becomeReady c s).ctx = c := rfl
@[simp] theorem becomeReady_estate (c : Context) (s : State) : (becomeReady c s).estate = .ready := rfl
@[simp] theorem becomeReady_fcode (c : Context) (s : State) : (becomeReady c s).fcode = .none := rfl
@[simp] theorem becomeReady_inbox (c : Context) (s : State) : (becomeReady c s).inbox = s.inbox := rfl
@[simp] theorem becomeReady_response (c : Context) (s : State) :
    (becomeReady c s).response = s.response := rfl

/-- An abandoned command leaves nothing: the state is that of the reset (R340). -/
@[simp] theorem abandonEvent_eq (c : Command) (rest : List HostEvent) :
    abandonEvent c rest = resetEvent rest := rfl
@[simp] theorem resetEvent_ctx (rest : List HostEvent) : (resetEvent rest).ctx = Context.reset := rfl
@[simp] theorem resetEvent_estate (rest : List HostEvent) : (resetEvent rest).estate = .uninit := rfl
@[simp] theorem resetEvent_fcode (rest : List HostEvent) : (resetEvent rest).fcode = .none := rfl
@[simp] theorem resetEvent_inbox (rest : List HostEvent) : (resetEvent rest).inbox = rest := rfl
@[simp] theorem resetEvent_response (rest : List HostEvent) : (resetEvent rest).response = none := rfl

end Sys2Proof.Machine
end

