-- ==== Sys2Proof/Laws/Memory.lean ====
section
/-! SUPPORT. The state byte space: a read after a write, and the two views of the state. -/

namespace Sys2Proof.Machine

/-- A read outside 0..199 gives 0; the rules never form one (R61). -/
theorem memRead_outside (c : Context) {j : Nat} (h : Config.stateBytes ≤ j) : memRead c j = 0 := by
  simp [memRead, Vector.getElem?_eq_none h]

/-- A read after a write of a byte in 0..199. -/
theorem memRead_memWrite (c : Context) (i j : Nat) (v : Byte) (h : i < Config.stateBytes) :
    memRead (memWrite c i v) j = if j = i then v else memRead c j := by
  simp only [memRead, memWrite, Vector.getElem?_setIfInBounds]
  by_cases hj : i = j
  · subst hj; simp [h]
  · simp [hj, Ne.symm hj]

/-- A read after an XOR into a byte of 0..199. -/
theorem memRead_memXor (c : Context) (i j : Nat) (v : Byte) (h : i < Config.stateBytes) :
    memRead (memXor c i v) j = if j = i then memRead c j ^^^ v else memRead c j := by
  rw [memXor, memRead_memWrite c i j _ h]
  split
  · next hj => rw [hj]
  · rfl

/-- A write leaves every other byte alone. -/
theorem memRead_memWrite_other (c : Context) {i j : Nat} (v : Byte) (h : j ≠ i) :
    memRead (memWrite c i v) j = memRead c j := by
  simp [memRead, memWrite, Ne.symm h]

/-- An XOR leaves every other byte alone. -/
theorem memRead_memXor_other (c : Context) {i j : Nat} (v : Byte) (h : j ≠ i) :
    memRead (memXor c i v) j = memRead c j := memRead_memWrite_other c _ h

/-- Reading depends on the state bytes alone. -/
theorem memRead_congr {c d : Context} (h : c.st = d.st) (j : Nat) : memRead c j = memRead d j := by
  simp [memRead, h]

/-- Two states with the same 200 bytes are the same. -/
theorem st_ext {c d : Context} (h : ∀ j < Config.stateBytes, memRead c j = memRead d j) :
    c.st = d.st := by
  apply Vector.ext
  intro j hj
  have := h j hj
  simpa [memRead, Vector.getElem?_eq_getElem hj] using this

/-- The permutation reads lanes and bytes from the list of a vector; the same element by index. -/
theorem toList_getD {α : Type} {n : Nat} (v : Vector α n) (i : Nat) (d : α) :
    v.toList.getD i d = v[i]?.getD d := by
  simp [List.getD_eq_getElem?_getD, Vector.getElem?_toList]

/-- The lanes a coordinate function builds, read back at coordinates taken mod 5 (R131). -/
theorem laneAt_lanesOf (f : Nat → Nat → Lane) (x y : Nat) :
    laneAt (lanesOf f) x y = f (x % 5) (y % 5) := by
  have hx : x % 5 < 5 := Nat.mod_lt _ (by decide)
  have hy : y % 5 < 5 := Nat.mod_lt _ (by decide)
  unfold laneAt
  generalize x % 5 = u at *
  generalize y % 5 = v at *
  interval_cases u <;> interval_cases v <;> rfl

end Sys2Proof.Machine
end

