-- ==== Sys2Proof/Laws/Duplex.lean ====
section
/-! SUPPORT. The duplex primitive: what a turn of the byte loop can do, what the loop and the forced
routine leave, and where the indices stay. -/

namespace Sys2Proof.Machine

/-! ## Range -/

/-- The range condition in numbers. -/
theorem indicesInRange_iff (c : Context) :
    indicesInRange c = true ↔ c.pos.toNat < c.rate.toNat ∧ c.rate.toNat + 1 < 200 := by
  simp [indicesInRange, BitVec.lt_def]

/-- Where the indices are in range, the position after a byte does not wrap. -/
theorem pos_succ_toNat {c : Context} (h : indicesInRange c = true) :
    (c.pos + 1).toNat = c.pos.toNat + 1 := by
  have := (indicesInRange_iff c).1 h
  rw [BitVec.toNat_add, show (1 : Byte).toNat = 1 from rfl]
  omega

/-- The block is full exactly when the next position is R. -/
theorem pos_succ_eq_rate_iff {c : Context} (h : indicesInRange c = true) :
    c.pos + 1 = c.rate ↔ c.pos.toNat + 1 = c.rate.toNat := by
  rw [← BitVec.toNat_inj, pos_succ_toNat h]

/-! ## One turn -/

/-- What a turn of the byte loop can do: it ends the block and permutes, or it moves `pos` by one. -/
theorem byteStep_cases (cb : Bool) (c : Context) (b : Byte) :
    (c.pos + 1 = c.rate ∧ byteStep cb c b = runF { absorbByte cb c b with pos := c.pos + 1 }) ∨
    (c.pos + 1 ≠ c.rate ∧ byteStep cb c b = { absorbByte cb c b with pos := c.pos + 1 }) := by
  unfold byteStep advance
  by_cases h : c.pos + 1 = c.rate
  · exact .inl ⟨h, if_pos h⟩
  · exact .inr ⟨h, if_neg h⟩

/-- The position after a turn, in numbers. -/
theorem byteStep_pos_toNat (cb : Bool) {c : Context} (b : Byte) (h : indicesInRange c = true) :
    (byteStep cb c b).pos.toNat = (c.pos.toNat + 1) % c.rate.toNat := by
  have hr := (indicesInRange_iff c).1 h
  obtain ⟨he, hb⟩ | ⟨he, hb⟩ := byteStep_cases cb c b <;> rw [hb]
  · rw [pos_succ_eq_rate_iff h] at he
    simp [he]
  · rw [Ne, pos_succ_eq_rate_iff h] at he
    show (c.pos + 1).toNat = _
    rw [pos_succ_toNat h, Nat.mod_eq_of_lt (by omega)]

/-- `posBegin` after a turn: 0 when the block ends, unchanged otherwise. -/
theorem byteStep_posBegin (cb : Bool) (c : Context) (b : Byte) :
    (byteStep cb c b).posBegin = if c.pos + 1 = c.rate then 0 else c.posBegin := by
  obtain ⟨he, hb⟩ | ⟨he, hb⟩ := byteStep_cases cb c b
  · rw [hb, if_pos he, runF_posBegin]
  · rw [hb, if_neg he]; rfl

/-- A turn keeps the indices in range. -/
theorem byteStep_inRange (cb : Bool) {c : Context} (b : Byte) (h : indicesInRange c = true) :
    indicesInRange (byteStep cb c b) = true := by
  have hr := (indicesInRange_iff c).1 h
  rw [indicesInRange_iff, byteStep_pos_toNat cb b h, byteStep_rate]
  exact ⟨Nat.mod_lt _ (by omega), hr.2⟩

/-- The new byte of a turn: the data byte with `cbefore`, the XOR without (R163). -/
theorem memRead_absorbByte (cb : Bool) {c : Context} (b : Byte) (h : indicesInRange c = true) (j : Nat) :
    memRead (absorbByte cb c b) j =
      if j = c.pos.toNat then (if cb then b else memRead c j ^^^ b) else memRead c j := by
  have hr := (indicesInRange_iff c).1 h
  rw [absorbByte, memRead_memXor _ _ _ _ (by simp only [Config.stateBytes]; omega)]
  split
  · next hj =>
    cases cb with
    | false => simp [unmasked]
    | true => rw [hj, unmasked, if_pos rfl, BitVec.xor_comm b, ← BitVec.xor_assoc]; simp
  · rfl

/-! ## The loop -/

@[simp] theorem loopContext_nil (cb : Bool) (c : Context) : loopContext cb c [] = c := rfl

@[simp] theorem loopContext_cons (cb : Bool) (c : Context) (b : Byte) (rest : List Byte) :
    loopContext cb c (b :: rest) = loopContext cb (byteStep cb c b) rest := rfl

@[simp] theorem loopOutput_nil (cb ca : Bool) (c : Context) : loopOutput cb ca c [] = [] := rfl

@[simp] theorem loopOutput_cons (cb ca : Bool) (c : Context) (b : Byte) (rest : List Byte) :
    loopOutput cb ca c (b :: rest) =
      processedByte cb ca c b :: loopOutput cb ca (byteStep cb c b) rest := rfl

theorem loopContext_append (cb : Bool) (c : Context) (a b : List Byte) :
    loopContext cb c (a ++ b) = loopContext cb (loopContext cb c a) b := by
  induction a generalizing c with
  | nil => rfl
  | cons x a ih => exact ih _

theorem loopOutput_append (cb ca : Bool) (c : Context) (a b : List Byte) :
    loopOutput cb ca c (a ++ b) =
      loopOutput cb ca c a ++ loopOutput cb ca (loopContext cb c a) b := by
  induction a generalizing c with
  | nil => rfl
  | cons x a ih => simp [ih]

@[simp] theorem loopOutput_length (cb ca : Bool) (c : Context) (data : List Byte) :
    (loopOutput cb ca c data).length = data.length := by
  induction data generalizing c with
  | nil => rfl
  | cons x a ih => simp [ih]

@[simp] theorem loopContext_rate (cb : Bool) (c : Context) (data : List Byte) :
    (loopContext cb c data).rate = c.rate := by
  induction data generalizing c with
  | nil => rfl
  | cons x a ih => simp [ih]

@[simp] theorem loopContext_curFlags (cb : Bool) (c : Context) (data : List Byte) :
    (loopContext cb c data).curFlags = c.curFlags := by
  induction data generalizing c with
  | nil => rfl
  | cons x a ih => simp [ih]

@[simp] theorem loopContext_initialized (cb : Bool) (c : Context) (data : List Byte) :
    (loopContext cb c data).initialized = c.initialized := by
  induction data generalizing c with
  | nil => rfl
  | cons x a ih => simp [ih]

@[simp] theorem loopContext_i0 (cb : Bool) (c : Context) (data : List Byte) :
    (loopContext cb c data).i0 = c.i0 := by
  induction data generalizing c with
  | nil => rfl
  | cons x a ih => simp [ih]

theorem loopContext_inRange (cb : Bool) {c : Context} (data : List Byte)
    (h : indicesInRange c = true) : indicesInRange (loopContext cb c data) = true := by
  induction data generalizing c with
  | nil => exact h
  | cons x a ih => exact ih (byteStep_inRange cb x h)

/-- The position after the loop: the bytes counted modulo the rate (R164). -/
theorem loopContext_pos_toNat (cb : Bool) {c : Context} (data : List Byte)
    (h : indicesInRange c = true) :
    (loopContext cb c data).pos.toNat = (c.pos.toNat + data.length) % c.rate.toNat := by
  induction data generalizing c with
  | nil =>
    have := (indicesInRange_iff c).1 h
    simp [Nat.mod_eq_of_lt this.1]
  | cons x a ih =>
    rw [loopContext_cons, ih (byteStep_inRange cb x h), byteStep_pos_toNat cb x h, byteStep_rate,
      Nat.mod_add_mod, List.length_cons, Nat.add_right_comm, Nat.add_assoc]

/-! ## The forced routine and the whole primitive -/

/-- What the forced routine can do: run, or nothing. -/
theorem forceBlock_cases (f : Bool) (c : Context) :
    (f = true ∧ c.pos ≠ 0 ∧ forceBlock f c = runF c) ∨
    ((f = false ∨ c.pos = 0) ∧ forceBlock f c = c) := by
  unfold forceBlock
  cases f with
  | false => exact .inr ⟨.inl rfl, rfl⟩
  | true =>
    by_cases hp : c.pos = 0
    · exact .inr ⟨.inr hp, by rw [hp]; rfl⟩
    · exact .inl ⟨rfl, hp, if_pos (by simpa using hp)⟩

@[simp] theorem forceBlock_false (c : Context) : forceBlock false c = c := rfl

@[simp] theorem forceBlock_rate (f : Bool) (c : Context) : (forceBlock f c).rate = c.rate := by
  unfold forceBlock; split <;> simp
@[simp] theorem forceBlock_curFlags (f : Bool) (c : Context) :
    (forceBlock f c).curFlags = c.curFlags := by unfold forceBlock; split <;> simp
@[simp] theorem forceBlock_initialized (f : Bool) (c : Context) :
    (forceBlock f c).initialized = c.initialized := by unfold forceBlock; split <;> simp
@[simp] theorem forceBlock_i0 (f : Bool) (c : Context) : (forceBlock f c).i0 = c.i0 := by
  unfold forceBlock; split <;> simp

theorem forceBlock_inRange (f : Bool) {c : Context} (h : indicesInRange c = true) :
    indicesInRange (forceBlock f c) = true := by
  have hr := (indicesInRange_iff c).1 h
  obtain ⟨-, -, hb⟩ | ⟨-, hb⟩ := forceBlock_cases f c <;> rw [hb]
  · rw [indicesInRange_iff]
    simp only [runF_pos, runF_rate]
    exact ⟨by simpa using (by omega : 0 < c.rate.toNat), hr.2⟩
  · exact h

@[simp] theorem duplexContext_rate (data : List Byte) (cb f : Bool) (c : Context) :
    (duplexContext data cb f c).rate = c.rate := by simp [duplexContext]
@[simp] theorem duplexContext_curFlags (data : List Byte) (cb f : Bool) (c : Context) :
    (duplexContext data cb f c).curFlags = c.curFlags := by simp [duplexContext]
@[simp] theorem duplexContext_initialized (data : List Byte) (cb f : Bool) (c : Context) :
    (duplexContext data cb f c).initialized = c.initialized := by simp [duplexContext]
@[simp] theorem duplexContext_i0 (data : List Byte) (cb f : Bool) (c : Context) :
    (duplexContext data cb f c).i0 = c.i0 := by simp [duplexContext]

theorem duplexContext_inRange (data : List Byte) (cb f : Bool) {c : Context}
    (h : indicesInRange c = true) : indicesInRange (duplexContext data cb f c) = true :=
  forceBlock_inRange f (loopContext_inRange cb data h)

end Sys2Proof.Machine
end

