-- ==== Sys2Proof/Laws/Operate.lean ====
section
/-! SUPPORT. The operation layer: the registers `beginOp` and `operate` write, and that they keep the
invariants of R29. -/

namespace Sys2Proof.Machine

/-! ## Registers -/

@[simp] theorem beginOp_rate (f : Byte) (c : Context) : (beginOp f c).rate = c.rate := by
  simp [beginOp]
@[simp] theorem beginOp_curFlags (f : Byte) (c : Context) : (beginOp f c).curFlags = f := rfl
@[simp] theorem beginOp_initialized (f : Byte) (c : Context) :
    (beginOp f c).initialized = c.initialized := by simp [beginOp]
@[simp] theorem beginOp_i0 (f : Byte) (c : Context) : (beginOp f c).i0 = bindRole f c.i0 := by
  simp [beginOp]

@[simp] theorem openOp_true (f : Byte) (c : Context) : openOp f true c = c := rfl
@[simp] theorem openOp_false (f : Byte) (c : Context) : openOp f false c = beginOp f c := rfl

@[simp] theorem operateContext_rate (f : Byte) (buf : List Byte) (more : Bool) (c : Context) :
    (operateContext f buf more c).rate = c.rate := by cases more <;> simp [operateContext]
@[simp] theorem operateContext_initialized (f : Byte) (buf : List Byte) (more : Bool) (c : Context) :
    (operateContext f buf more c).initialized = c.initialized := by
  cases more <;> simp [operateContext]
theorem operateContext_curFlags (f : Byte) (buf : List Byte) (more : Bool) (c : Context) :
    (operateContext f buf more c).curFlags = if more then c.curFlags else f := by
  cases more <;> simp [operateContext]
theorem operateContext_i0 (f : Byte) (buf : List Byte) (more : Bool) (c : Context) :
    (operateContext f buf more c).i0 = if more then c.i0 else bindRole f c.i0 := by
  cases more <;> simp [operateContext]

@[simp] theorem operateOutput_length (f : Byte) (buf : List Byte) (more : Bool) (c : Context) :
    (operateOutput f buf more c).length = buf.length := by simp [operateOutput, duplexOutput]

/-- A role that is bound stays as it is (R182). -/
theorem bindRole_bound (f : Byte) {r : Role} (h : r ≠ .undecided) : bindRole f r = r := by
  cases r <;> simp_all [bindRole]

/-- An operation without T binds no role (R182). -/
theorem bindRole_noT (f : Byte) (r : Role) (h : hasFlag f flagT = false) : bindRole f r = r := by
  simp [bindRole, h]

/-! ## The range of the indices -/

theorem Context.Valid.inRange {c : Context} (h : c.Valid) : indicesInRange c = true := by
  obtain ⟨hr, hp, -⟩ := h
  rw [indicesInRange_iff]
  rw [BitVec.lt_def] at hp
  obtain hr | hr := hr <;> rw [hr] at hp ⊢ <;> exact ⟨hp, by decide⟩

theorem beginOp_inRange (f : Byte) {c : Context} (h : indicesInRange c = true) :
    indicesInRange (beginOp f c) = true := by
  have : indicesInRange { c with i0 := bindRole f c.i0, posBegin := c.pos + 1 } = true := h
  exact duplexContext_inRange _ _ _ this

theorem operateContext_inRange (f : Byte) (buf : List Byte) (more : Bool) {c : Context}
    (h : indicesInRange c = true) : indicesInRange (operateContext f buf more c) = true := by
  cases more with
  | true => exact duplexContext_inRange _ _ _ h
  | false => exact duplexContext_inRange _ _ _ (beginOp_inRange f h)

/-! ## posBegin stays at or below pos (R29, item 3) -/

/-- After a byte, `posBegin <= pos`, even when `posBegin` stood one past `pos` before it. -/
theorem byteStep_posBegin_le (cb : Bool) {c : Context} (b : Byte) (h : indicesInRange c = true)
    (hp : c.posBegin.toNat ≤ c.pos.toNat + 1) :
    (byteStep cb c b).posBegin ≤ (byteStep cb c b).pos := by
  obtain ⟨-, hb⟩ | ⟨-, hb⟩ := byteStep_cases cb c b <;> rw [hb]
  · simp
  · show c.posBegin ≤ c.pos + 1
    rw [BitVec.le_def, pos_succ_toNat h]
    exact hp

theorem loopContext_posBegin_le (cb : Bool) {c : Context} (data : List Byte)
    (h : indicesInRange c = true) (hp : c.posBegin ≤ c.pos) :
    (loopContext cb c data).posBegin ≤ (loopContext cb c data).pos := by
  induction data generalizing c with
  | nil => exact hp
  | cons x a ih =>
    refine ih (byteStep_inRange cb x h) (byteStep_posBegin_le cb x h ?_)
    rw [BitVec.le_def] at hp
    omega

theorem forceBlock_posBegin_le (f : Bool) {c : Context} (hp : c.posBegin ≤ c.pos) :
    (forceBlock f c).posBegin ≤ (forceBlock f c).pos := by
  obtain ⟨-, -, hb⟩ | ⟨-, hb⟩ := forceBlock_cases f c <;> rw [hb]
  · simp
  · exact hp

theorem beginOp_posBegin_le (f : Byte) {c : Context} (h : indicesInRange c = true) :
    (beginOp f c).posBegin ≤ (beginOp f c).pos := by
  have hr : indicesInRange { c with i0 := bindRole f c.i0, posBegin := c.pos + 1 } = true := h
  refine forceBlock_posBegin_le _ (c := loopContext _ _ [_, _]) ?_
  rw [loopContext_cons]
  refine loopContext_posBegin_le _ _ (byteStep_inRange _ _ hr) (byteStep_posBegin_le _ _ hr ?_)
  show (c.pos + 1).toNat ≤ c.pos.toNat + 1
  rw [pos_succ_toNat h]

/-- `operate` keeps the invariants of R29 for a flag word without K, bit 6 and bit 7. -/
theorem operateContext_valid (f : Byte) (buf : List Byte) (more : Bool) {c : Context} (h : c.Valid)
    (hf : f &&& 0xE0 = 0) : (operateContext f buf more c).Valid := by
  have hr := h.inRange
  have hr' := operateContext_inRange f buf more hr
  refine ⟨by simpa using h.1, ?_, ?_, by simpa using h.2.2.2.1, ?_⟩
  · rw [BitVec.lt_def]
    exact ((indicesInRange_iff _).1 hr').1
  · cases more with
    | true => exact loopContext_posBegin_le _ _ hr h.2.2.1
    | false => exact loopContext_posBegin_le _ _ (beginOp_inRange f hr) (beginOp_posBegin_le f hr)
  · rw [operateContext_curFlags]
    split
    · exact h.2.2.2.2
    · exact hf

end Sys2Proof.Machine
end

