-- ==== Sys2Proof/Laws/Outcome.lean ====
section
/-! SUPPORT. What a command can answer: one inversion lemma per shared operation, per control command
and for the step. -/

namespace Sys2Proof.Machine

/-- The context and response of an operation that passed its checks (R189). -/
theorem runOperate_next {f : Byte} {buf : List Byte} {more : Bool} {s t : State}
    (h : runOperate f buf more s = .next t) :
    indicesInRange s.ctx = true ∧
    t = respond (operateResult f (operateOutput f buf more s.ctx))
      (operatePayload f (operateOutput f buf more s.ctx))
      { s with ctx := operateContext f buf more s.ctx } := by
  unfold runOperate at h
  split at h
  · next hr => exact ⟨hr, by simpa using h.symm⟩
  · cases h

/-- In range, an operation that passed its checks completes. -/
theorem runOperate_inRange (f : Byte) (buf : List Byte) (more : Bool) {s : State}
    (h : indicesInRange s.ctx = true) :
    runOperate f buf more s = .next (respond (operateResult f (operateOutput f buf more s.ctx))
      (operatePayload f (operateOutput f buf more s.ctx))
      { s with ctx := operateContext f buf more s.ctx }) := if_pos h

/-- What the checks common to the operations can do (R313). -/
theorem checkedOp_next {f : Byte} {more : Bool} {s t : State}
    {body : Host.Outcome State Fault Refusal} (h : checkedOp f more s body = .next t) :
    (s.estate = .faulted ∧ t = refuseFaulted s) ∨
    (s.estate = .uninit ∧ t = raiseFault .notReady s) ∨
    (s.estate = .ready ∧ more = true ∧ s.ctx.curFlags ≠ f ∧ t = raiseFault .streamMismatch s) ∨
    (s.estate = .ready ∧ (more = true → s.ctx.curFlags = f) ∧ body = .next t) := by
  unfold checkedOp at h
  split at h
  · next he => exact .inl ⟨he, by simpa using h.symm⟩
  · next he => exact .inr (.inl ⟨he, by simpa using h.symm⟩)
  · next he =>
    split at h
    · next hc =>
      simp only [Bool.and_eq_true, bne_iff_ne, ne_eq] at hc
      exact .inr (.inr (.inl ⟨he, hc.1, hc.2, by simpa using h.symm⟩))
    · next hc =>
      refine .inr (.inr (.inr ⟨he, fun hm => ?_, h⟩))
      by_contra hf
      exact hc (by simp [hm, hf])

/-- The checks pass in READY with the flags of the operation in progress. -/
theorem checkedOp_ready (f : Byte) (more : Bool) {s : State}
    (body : Host.Outcome State Fault Refusal) (h : s.estate = .ready)
    (hf : more = true → s.ctx.curFlags = f) : checkedOp f more s body = body := by
  cases more with
  | false => simp [checkedOp, h]
  | true => simp [checkedOp, h, hf rfl]

/-- What an operation command can do. -/
theorem operation_next {f : Byte} {buf : List Byte} {more : Bool} {s t : State}
    (h : operation f more buf s = .next t) :
    (s.estate = .faulted ∧ t = refuseFaulted s) ∨
    (s.estate = .uninit ∧ t = raiseFault .notReady s) ∨
    (s.estate = .ready ∧ more = true ∧ s.ctx.curFlags ≠ f ∧ t = raiseFault .streamMismatch s) ∨
    (s.estate = .ready ∧ (more = true → s.ctx.curFlags = f) ∧ indicesInRange s.ctx = true ∧
      t = respond (operateResult f (operateOutput f buf more s.ctx))
        (operatePayload f (operateOutput f buf more s.ctx))
        { s with ctx := operateContext f buf more s.ctx }) := by
  obtain h | h | h | ⟨he, hf, hb⟩ := checkedOp_next h
  · exact .inl h
  · exact .inr (.inl h)
  · exact .inr (.inr (.inl h))
  · exact .inr (.inr (.inr ⟨he, hf, runOperate_next hb⟩))

/-- In an operational state, with the flags of the operation in progress where it is continued, an
operation completes with the context and the result of `operate`. -/
theorem operation_completes (f : Byte) (more : Bool) (buf : List Byte) {s : State}
    (h : s.Operational) (hf : more = true → s.ctx.curFlags = f) :
    operation f more buf s = .next (respond (operateResult f (operateOutput f buf more s.ctx))
      (operatePayload f (operateOutput f buf more s.ctx))
      { s with ctx := operateContext f buf more s.ctx }) := by
  rw [operation, checkedOp_ready f more _ h.1 hf, runOperate_inRange f buf more h.2.2.inRange]

/-- What RECV_MAC can do: as an operation, and MAC_STREAMING for a continuation with its own flags. -/
theorem execRecvMac_next {m more : Bool} {data : List Byte} {s t : State}
    (h : execRecvMac m more data s = .next t) :
    (s.estate = .faulted ∧ t = refuseFaulted s) ∨
    (s.estate = .uninit ∧ t = raiseFault .notReady s) ∨
    (s.estate = .ready ∧ more = true ∧ s.ctx.curFlags ≠ withMeta flagsRecvMac m ∧
      t = raiseFault .streamMismatch s) ∨
    (s.estate = .ready ∧ more = true ∧ s.ctx.curFlags = withMeta flagsRecvMac m ∧
      t = raiseFault .macStreaming s) ∨
    (s.estate = .ready ∧ more = false ∧ indicesInRange s.ctx = true ∧
      t = respond
        (operateResult (withMeta flagsRecvMac m)
          (operateOutput (withMeta flagsRecvMac m) data false s.ctx))
        (operatePayload (withMeta flagsRecvMac m)
          (operateOutput (withMeta flagsRecvMac m) data false s.ctx))
        { s with ctx := operateContext (withMeta flagsRecvMac m) data false s.ctx }) := by
  obtain h | h | h | ⟨he, hf, hb⟩ := checkedOp_next h
  · exact .inl h
  · exact .inr (.inl h)
  · exact .inr (.inr (.inl h))
  · cases more with
    | true => exact .inr (.inr (.inr (.inl ⟨he, rfl, hf rfl, by simpa using hb.symm⟩)))
    | false => exact .inr (.inr (.inr (.inr ⟨he, rfl, runOperate_next hb⟩)))

/-- What INIT can do (R266). -/
theorem execInit_next {level : BitVec 16} {proto : List Byte} {s t : State}
    (h : execInit level proto s = .next t) :
    (validLevel level = true ∧ t = respond .ok [] (becomeReady (initContext level proto) s)) ∨
    (validLevel level = false ∧ t = respond .invalidSecurityLevel [] s) := by
  unfold execInit at h
  split at h
  · next hv => exact .inl ⟨hv, by simpa using h.symm⟩
  · next hv => exact .inr ⟨by simpa using hv, by simpa using h.symm⟩

/-- What SAVE can do (R267). -/
theorem execSave_next {s t : State} (h : execSave s = .next t) :
    (s.estate = .faulted ∧ t = refuseFaulted s) ∨
    (s.estate = .uninit ∧ t = raiseFault .notReady s) ∨
    (s.estate = .ready ∧ t = respond .ok (imageOf s.ctx) s) := by
  unfold execSave at h
  split at h
  · next he => exact .inl ⟨he, by simpa using h.symm⟩
  · next he => exact .inr (.inl ⟨he, by simpa using h.symm⟩)
  · next he => exact .inr (.inr ⟨he, by simpa using h.symm⟩)

/-- What LOAD can do (R269). -/
theorem execLoad_next {img : List Byte} {s t : State} (h : execLoad img s = .next t) :
    (s.estate = .faulted ∧ t = refuseFaulted s) ∨
    (s.estate ≠ .faulted ∧ validImage img = true ∧
      t = respond .ok [] { s with ctx := contextOfImage img, estate := .ready }) ∨
    (s.estate ≠ .faulted ∧ validImage img = false ∧ t = respond .invalidImage [] s) := by
  unfold execLoad at h
  split at h
  · next he => exact .inl ⟨he, by simpa using h.symm⟩
  all_goals
    next he =>
    split at h
    · next hv => exact .inr (.inl ⟨by simp [he], hv, by simpa using h.symm⟩)
    · next hv => exact .inr (.inr ⟨by simp [he], by simpa using hv, by simpa using h.symm⟩)

/-- What a command word that names no command can do (R313). -/
theorem rejectIllegal_cases (why : IllegalWord) (s : State) :
    (s.estate = .faulted ∧ rejectIllegal why s = refuseFaulted s) ∨
    (s.estate = .uninit ∧ checkedBeforeReady why = false ∧
      rejectIllegal why s = raiseFault .notReady s) ∨
    (s.estate ≠ .faulted ∧ (s.estate = .uninit → checkedBeforeReady why = true) ∧
      rejectIllegal why s = raiseFault (illegalCode why) s) := by
  unfold rejectIllegal
  cases he : s.estate with
  | faulted => exact .inl ⟨rfl, rfl⟩
  | ready => exact .inr (.inr ⟨by simp, by simp, rfl⟩)
  | uninit =>
    cases hc : checkedBeforeReady why with
    | false => exact .inr (.inl ⟨rfl, rfl, by simp⟩)
    | true => exact .inr (.inr ⟨by simp, by simp, by simp⟩)

/-- What a step can do: a reset, with or without a command in progress; an illegal word; or the
instruction of a command. -/
theorem step_next {s t : State} (h : step s = .next t) :
    (∃ e rest, s.inbox = e :: rest ∧ e.isReset = true ∧ t = resetEvent rest) ∨
    (∃ c rest why, s.inbox = .command c :: rest ∧ decode c = .error (.illegal why) ∧
      t = rejectIllegal why { s with inbox := rest }) ∨
    (∃ c rest i, s.inbox = .command c :: rest ∧ decode c = .ok i ∧
      exec i { s with inbox := rest } = .next t) := by
  unfold step at h
  split at h
  · cases h
  · next rest hi => exact .inl ⟨_, rest, hi, rfl, by simpa using h.symm⟩
  · next c rest hi => exact .inl ⟨_, rest, hi, rfl, by simpa using h.symm⟩
  · next c rest hi =>
    unfold stepCommand at h
    split at h
    · next i hd => exact .inr (.inr ⟨c, rest, i, hi, hd, h⟩)
    · next why hd => exact .inr (.inl ⟨c, rest, why, hi, hd, by simpa using h.symm⟩)
    · cases h

/-- A reset event of either kind leads to the reset state, from every state (R340). -/
theorem step_isReset {s : State} {e : HostEvent} {rest : List HostEvent} (hi : s.inbox = e :: rest)
    (he : e.isReset = true) : step s = .next (resetEvent rest) := by
  unfold step
  rw [hi]
  cases e with
  | command c => cases he
  | reset => rfl
  | resetDuring c => rfl

end Sys2Proof.Machine
end

