-- ==== Sys2Proof/Laws/PerInstr.lean ====
section
/-! SUPPORT. Statements for all instructions, one lemma per constructor of Instr. -/

namespace Sys2Proof.Laws

open Sys2Proof.Machine

/-- The encoding of a well-formed instruction is a command: its DATA has the length R90 asks for. -/
def EncodeFramed.Statement (i : Instr) : Prop := i.wellFormed = true → framed (encode i) = true

theorem EncodeFramed.ad (m more : Bool) (data : List Byte) :
    EncodeFramed.Statement (.ad m more data) := fun h => by
  simp [framed, encode, takesData_encodeWord, dataIn, encodeLen, ofNat_length_toNat h]

theorem EncodeFramed.key (more : Bool) (data : List Byte) :
    EncodeFramed.Statement (.key more data) := fun h => by
  simp [framed, encode, takesData_encodeWord, dataIn, encodeLen, ofNat_length_toNat h]

theorem EncodeFramed.prf (more : Bool) (len : Word) :
    EncodeFramed.Statement (.prf more len) := fun _ => by
  simp [framed, encode, takesData_encodeWord, dataIn]

theorem EncodeFramed.sendClr (m more : Bool) (data : List Byte) :
    EncodeFramed.Statement (.sendClr m more data) := fun h => by
  simp [framed, encode, takesData_encodeWord, dataIn, encodeLen, ofNat_length_toNat h]

theorem EncodeFramed.recvClr (m more : Bool) (data : List Byte) :
    EncodeFramed.Statement (.recvClr m more data) := fun h => by
  simp [framed, encode, takesData_encodeWord, dataIn, encodeLen, ofNat_length_toNat h]

theorem EncodeFramed.sendEnc (m more : Bool) (data : List Byte) :
    EncodeFramed.Statement (.sendEnc m more data) := fun h => by
  simp [framed, encode, takesData_encodeWord, dataIn, encodeLen, ofNat_length_toNat h]

theorem EncodeFramed.recvEnc (m more : Bool) (data : List Byte) :
    EncodeFramed.Statement (.recvEnc m more data) := fun h => by
  simp [framed, encode, takesData_encodeWord, dataIn, encodeLen, ofNat_length_toNat h]

theorem EncodeFramed.sendMac (m more : Bool) (len : Word) :
    EncodeFramed.Statement (.sendMac m more len) := fun _ => by
  simp [framed, encode, takesData_encodeWord, dataIn]

theorem EncodeFramed.recvMac (m more : Bool) (data : List Byte) :
    EncodeFramed.Statement (.recvMac m more data) := fun h => by
  simp [framed, encode, takesData_encodeWord, dataIn, encodeLen, ofNat_length_toNat h]

theorem EncodeFramed.ratchet (m : Bool) (len : Word) :
    EncodeFramed.Statement (.ratchet m len) := fun _ => by
  simp [framed, encode, takesData_encodeWord, dataIn]

theorem EncodeFramed.init (level : BitVec 16) (proto : List Byte) :
    EncodeFramed.Statement (.init level proto) := fun h => by
  simp [framed, encode, takesData_encodeWord, dataIn, encodeLen, ofNat_length_toNat h]

theorem EncodeFramed.save : EncodeFramed.Statement .save := fun _ => by
  simp [framed, encode, takesData_encodeWord, dataIn]

theorem EncodeFramed.load (img : List Byte) : EncodeFramed.Statement (.load img) := fun h => by
  simp [framed, encode, takesData_encodeWord, dataIn, encodeLen, ofNat_length_toNat h]

end Sys2Proof.Laws
end

