-- ==== Sys2Proof/Tests/Slice0.lean ====
section
/-! SUPPORT. Tests: the refused ill-formed terms, words written out from the encodings of R96 and R98,
vectors of 95_test_vectors.md, and one concrete witness for the hypotheses of each obligation. Expected
values come from the spec's tables, never from the model. -/

namespace Sys2Proof.Tests

open Sys2Proof Sys2Proof.Machine

-- One proof at a time: a thread for each proof in flight would need more memory than the check gives.
set_option Elab.async false

/-! ## Helpers -/

/-- IMG0 (95, section 4): st[i] = i, then pos 20, posBegin 1, R 166, curFlags 0x12, initialized 1, i0 0. -/
def img0 : List Byte :=
  (List.range 200).map (BitVec.ofNat 8) ++ [0x14, 0x01, 0xA6, 0x12, 0x01, 0x00]

/-- A READY engine with a context; nothing issued. -/
def readyWith (c : Context) : State :=
  { ctx := c, estate := .ready, fcode := .none, inbox := [], response := none }

/-- A context with state bytes i mod 256 and the scalars given (`pos/posBegin/R/curFlags/i0` in 95). -/
def context (pos posBegin rate curFlags : Byte) (i0 : Role) : Context :=
  { st := Vector.ofFn fun i => BitVec.ofNat 8 i.val
    pos := pos
    posBegin := posBegin
    rate := rate
    curFlags := curFlags
    initialized := true
    i0 := i0 }

/-- The engine after `LOAD IMG0`. -/
def engine0 : State := readyWith (context 20 1 166 0x12 .undecided)

/-- READY in the middle of an operation with these flags, 4 bytes below the end of the block. -/
def engineIn (flags : Byte) : State := readyWith (context 161 3 166 flags .undecided)

/-- An engine in FAULTED with the code of RESERVED_FLAG. -/
def faulted : State := { engine0 with estate := .faulted, fcode := .reservedFlag }

/-- The next state of one instruction, if it has one. -/
def after (i : Instr) (s : State) : Option State :=
  match exec i s with
  | .next t => some t
  | .fault _ => none
  | .refused _ => none

/-- The next state of one command, if it has one. -/
def issue (cmdw len : Word) (data : List Byte) (s : State) : Option State :=
  match step { s with inbox := [.command ⟨cmdw, len, data⟩] } with
  | .next t => some t
  | .fault _ => none
  | .refused _ => none

/-- What a vector of 95 shows of a state: status word, OUT, some state bytes, and the scalars. -/
def shown (skip n : Nat) (t : State) : Option Response × List Byte × List Byte × Role :=
  (t.response, (t.ctx.st.toList.drop skip).take n,
    [t.ctx.pos, t.ctx.posBegin, t.ctx.rate, t.ctx.curFlags], t.ctx.i0)

/-- "ABCD". -/
def abcd : List Byte := [0x41, 0x42, 0x43, 0x44]

/-! ## WellFormed refuses data that LEN cannot count -/

/-- One byte more than LEN can count. -/
def tooLong : List Byte := List.replicate (2 ^ 32) 0

theorem tooLong_refused : fitsLen tooLong = false := by
  simp only [fitsLen, tooLong, List.length_replicate, Nat.lt_irrefl, decide_false]

theorem test_illFormed_ad : (Instr.ad true false tooLong).wellFormed = false := by
  simp only [Instr.wellFormed, tooLong_refused]
theorem test_illFormed_key : (Instr.key false tooLong).wellFormed = false := by
  simp only [Instr.wellFormed, tooLong_refused]
theorem test_illFormed_sendClr : (Instr.sendClr false true tooLong).wellFormed = false := by
  simp only [Instr.wellFormed, tooLong_refused]
theorem test_illFormed_recvClr : (Instr.recvClr true true tooLong).wellFormed = false := by
  simp only [Instr.wellFormed, tooLong_refused]
theorem test_illFormed_sendEnc : (Instr.sendEnc false false tooLong).wellFormed = false := by
  simp only [Instr.wellFormed, tooLong_refused]
theorem test_illFormed_recvEnc : (Instr.recvEnc false false tooLong).wellFormed = false := by
  simp only [Instr.wellFormed, tooLong_refused]
theorem test_illFormed_recvMac : (Instr.recvMac false false tooLong).wellFormed = false := by
  simp only [Instr.wellFormed, tooLong_refused]
theorem test_illFormed_init : (Instr.init 128 tooLong).wellFormed = false := by
  simp only [Instr.wellFormed, tooLong_refused]
theorem test_illFormed_load : (Instr.load tooLong).wellFormed = false := by
  simp only [Instr.wellFormed, tooLong_refused]

/-! ## Decoding: words written from R91, R96 and R98

Operation words are written field by field: ARG(16) CMD(4) RSV(2) SRC(1) MORE(1) FLAGS(8: 0 0 K M T C
A I). -/

theorem test_decode_ad : decode ⟨0b0000000000000000_0000_00_0_0_00000010, 1, [0x61]⟩ =
    .ok (.ad false false [0x61]) := by decide
theorem test_decode_ad_m_more : decode ⟨0b0000000000000000_0000_00_0_1_00010010, 1, [0x61]⟩ =
    .ok (.ad true true [0x61]) := by decide
theorem test_decode_key : decode ⟨0b0000000000000000_0000_00_0_0_00000110, 2, [1, 2]⟩ =
    .ok (.key false [1, 2]) := by decide
theorem test_decode_prf : decode ⟨0b0000000000000000_0000_00_1_1_00000111, 12, []⟩ =
    .ok (.prf true 12) := by decide
theorem test_decode_sendClr : decode ⟨0b0000000000000000_0000_00_0_0_00011010, 0, []⟩ =
    .ok (.sendClr true false []) := by decide
theorem test_decode_recvClr : decode ⟨0b0000000000000000_0000_00_0_1_00001011, 1, [7]⟩ =
    .ok (.recvClr false true [7]) := by decide
theorem test_decode_sendEnc : decode ⟨0b0000000000000000_0000_00_0_0_00001110, 1, [7]⟩ =
    .ok (.sendEnc false false [7]) := by decide
theorem test_decode_recvEnc : decode ⟨0b0000000000000000_0000_00_0_0_00011111, 1, [7]⟩ =
    .ok (.recvEnc true false [7]) := by decide
theorem test_decode_sendMac : decode ⟨0b0000000000000000_0000_00_1_0_00001100, 32, []⟩ =
    .ok (.sendMac false false 32) := by decide
theorem test_decode_recvMac_more : decode ⟨0b0000000000000000_0000_00_0_1_00001101, 1, [7]⟩ =
    .ok (.recvMac false true [7]) := by decide
theorem test_decode_ratchet : decode ⟨0b0000000000000000_0000_00_1_0_00010100, 5, []⟩ =
    .ok (.ratchet true 5) := by decide
theorem test_decode_init : decode ⟨0b0000000010000000_0001_00_0_0_00000000, 1, [0x78]⟩ =
    .ok (.init 128 [0x78]) := by decide
theorem test_decode_save : decode ⟨0b0000000000000000_0010_00_0_0_00000000, 0, []⟩ = .ok .save := by
  decide
theorem test_decode_load : decode ⟨0b0000000000000000_0011_00_0_0_00000000, 1, [9]⟩ =
    .ok (.load [9]) := by decide

/-- DATA that does not have LEN bytes is no command (R90). -/
theorem test_decode_misframed : decode ⟨0x00000002, 2, [0x61]⟩ = .error .misframed := by decide
/-- The first failing check of R313 names the class. -/
theorem test_decode_illegal_classes :
    decode ⟨0x00004000, 0, []⟩ = .error (.illegal .reservedClass) ∧
    decode ⟨0x00000402, 0, []⟩ = .error (.illegal .reservedBits) ∧
    decode ⟨0x00801001, 0, []⟩ = .error (.illegal .initBits) ∧
    decode ⟨0x00002000, 1, []⟩ = .error (.illegal .saveFields) ∧
    decode ⟨0x00013000, 0, []⟩ = .error (.illegal .loadFields) ∧
    decode ⟨0x00010002, 0, []⟩ = .error (.illegal .opArg) ∧
    decode ⟨0x00000229, 0, []⟩ = .error (.illegal .outputFlags) ∧
    decode ⟨0x00000042, 0, []⟩ = .error (.illegal .reservedFlag) ∧
    decode ⟨0x00000016, 0, []⟩ = .error (.illegal .unnamedFlags) ∧
    decode ⟨0x00000314, 0, []⟩ = .error (.illegal .ratchetMore) := by decide
/-- P1's INIT as the bytes of a transport (R66, R107). -/
theorem test_parse_init :
    parseCommand [0x00, 0x10, 0x80, 0x00, 0x05, 0x00, 0x00, 0x00, 0x68, 0x65, 0x6C, 0x6C, 0x6F, 0x00] =
      some (⟨0x00801000, 5, [0x68, 0x65, 0x6C, 0x6C, 0x6F]⟩, [0x00]) := by decide
theorem test_decodeTableWord : decodeTableWord 32 0x00000207 = some (.prf false 0) := by decide
/-- The assembler of R108 on the spelling of 95. -/
theorem test_assemble :
    assemble "INIT 128, \"hello\"" = some (.init 128 [0x68, 0x65, 0x6C, 0x6C, 0x6F]) ∧
    assemble "AD.M.MORE 0x62" = some (.ad true true [0x62]) := by decide +kernel
/-- The spellings of R110: a row with its options, and a raw word with 8 hex digits. -/
theorem test_disassemble :
    syntaxName (.ad true true []) = "AD.M.MORE" ∧ syntaxName (.init 128 []) = "INIT" ∧
    disassemble 0x0000020C = "SEND_MAC" ∧ disassemble 0x0000010D = ".word 0x0000010D" := by
  decide +kernel
/-- The digits above 9, in the model's own case (log 17). -/
theorem test_hexWord : String.ofList (hexWord 0x89ABCDEF) = "89ABCDEF" := by decide +kernel

/-! ## The operations from IMG0 (95, section 4) -/

theorem test_load_img0 : (issue 0x3000 206 img0 State.reset).map (shown 20 6) =
    some (some ⟨0x00010000, []⟩, [0x14, 0x15, 0x16, 0x17, 0x18, 0x19], [20, 1, 166, 0x12],
      .undecided) := by decide +kernel
theorem test_ad : (after (.ad false false abcd) engine0).map (shown 20 6) =
    some (some ⟨0x00010000, []⟩, [0x15, 0x17, 0x57, 0x55, 0x5B, 0x5D], [26, 21, 166, 0x02],
      .undecided) := by decide +kernel
theorem test_sendClr_m : (after (.sendClr true false abcd) engine0).map (shown 20 6) =
    some (some ⟨0x00010000, abcd⟩, [0x15, 0x0F, 0x57, 0x55, 0x5B, 0x5D], [26, 21, 166, 0x1A],
      .initiator) := by decide +kernel
theorem test_recvClr : (after (.recvClr false false abcd) engine0).map (shown 20 6) =
    some (some ⟨0x00010000, abcd⟩, [0x15, 0x1F, 0x57, 0x55, 0x5B, 0x5D], [26, 21, 166, 0x0B],
      .responder) := by decide +kernel
/-- A Responder's SEND_CLR frames with I set (95, section 6.1). -/
theorem test_sendClr_responder :
    (after (.sendClr false false abcd) (readyWith (context 20 1 166 0x12 .responder))).map
      (shown 21 1) =
    some (some ⟨0x00010000, abcd⟩, [0x1E], [26, 21, 166, 0x0A], .responder) := by decide +kernel
theorem test_key : (after (.key false abcd) engine0).map (shown 0 8) =
    some (some ⟨0x00010000, []⟩, [0x41, 0x42, 0x43, 0x44, 0xF9, 0xF7, 0x33, 0xF7], [4, 0, 166, 0x06],
      .undecided) := by decide +kernel
theorem test_prf : (after (.prf false 4) engine0).map (shown 0 8) =
    some (some ⟨0x00010000, [0x6E, 0xA5, 0x85, 0xDC]⟩, [0, 0, 0, 0, 0x7E, 0x2C, 0x61, 0xA0],
      [4, 0, 166, 0x07], .undecided) := by decide +kernel
theorem test_sendEnc : (after (.sendEnc false false abcd) engine0).map (shown 0 8) =
    some (some ⟨0x00010000, [0xC3, 0xD9, 0x7D, 0x54]⟩, [0xC3, 0xD9, 0x7D, 0x54, 0x09, 0xD7, 0x4A, 0x58],
      [4, 0, 166, 0x0E], .initiator) := by decide +kernel
theorem test_recvEnc : (after (.recvEnc false false [0xC3, 0xD9, 0x7D, 0x54]) engine0).map
      (shown 0 8) =
    some (some ⟨0x00010000, abcd⟩, [0xC3, 0xD9, 0x7D, 0x54, 0x09, 0xD7, 0x4A, 0x58],
      [4, 0, 166, 0x0F], .responder) := by decide +kernel
theorem test_sendMac : (after (.sendMac true false 4) engine0).map (fun t => t.response) =
    some (some ⟨0x00010000, [0xD5, 0xBC, 0x29, 0xF3]⟩) := by decide +kernel
theorem test_recvMac : (after (.recvMac false false [0x5D, 0x30, 0x61, 0x8A]) engine0).map
      (shown 0 8) =
    some (some ⟨0x00010000, []⟩, [0x5D, 0x30, 0x61, 0x8A, 0xAC, 0x62, 0x89, 0x26],
      [4, 0, 166, 0x0D], .responder) := by decide +kernel
theorem test_recvMac_wrong : (after (.recvMac false false [0x5D, 0x30, 0x61, 0x8B]) engine0).map
      (fun t => (t.response, t.estate)) = some (some ⟨0x00010001, []⟩, .ready) := by decide +kernel
theorem test_ratchet_m : (after (.ratchet true 4) engine0).map (shown 0 8) =
    some (some ⟨0x00010000, []⟩, [0, 0, 0, 0, 0xF6, 0x39, 0x16, 0xA0], [4, 0, 166, 0x14],
      .undecided) := by decide +kernel
/-- `INIT 128, "hello"` (95, section 1.1: the document's own literal vector). -/
theorem test_init : (after (.init 128 [0x68, 0x65, 0x6C, 0x6C, 0x6F]) State.reset).map (shown 0 16) =
    some (some ⟨0x00010000, []⟩,
      [0x9C, 0x7F, 0x7E, 0xEA, 0x94, 0x91, 0x3A, 0xDA, 0x2A, 0xA7, 0x3C, 0x23, 0x55, 0x65, 0x35, 0x63],
      [7, 1, 166, 0x12], .undecided) := by decide +kernel
theorem test_save : (after .save engine0).map (fun t => t.response) =
    some (some ⟨0x00010000, img0⟩) := by decide +kernel
/-- The block boundary between two framing bytes (95, section 5, second case). -/
theorem test_ad_across_the_block :
    (after (.ad false false [0x55])
      (readyWith { context 165 3 166 0x02 .undecided with st := Vector.replicate 200 0 })).map
      (shown 0 4) =
    some (some ⟨0x00010000, []⟩, [0xD6, 0xEE, 0x52, 0xF3], [2, 0, 166, 0x02], .undecided) := by
  decide +kernel

/-! ## Faults and refusals (95, section 7): status words -/

/-- The status word of one command. -/
def statusOf (cmdw len : Word) (data : List Byte) (s : State) : Option Word :=
  ((issue cmdw len data s).bind (·.response)).map (·.status)

theorem test_faults_word :
    statusOf 0x00000229 0 [] engine0 = some 0x00020504 ∧
    statusOf 0x00000224 0 [] engine0 = some 0x00020104 ∧
    statusOf 0x00000082 0 [] engine0 = some 0x00020104 ∧
    statusOf 0x00000217 0 [] engine0 = some 0x00020604 ∧
    statusOf 0x00012000 0 [] engine0 = some 0x00020604 ∧
    statusOf 0x00000102 0 [] engine0 = some 0x00020304 := by decide +kernel
theorem test_notReady : statusOf 0x00000002 1 [0x61] State.reset = some 0x00020704 := by
  decide +kernel
theorem test_macStreaming : statusOf 0x0000010D 0 [] (engineIn 0x0D) = some 0x00020404 := by
  decide +kernel
theorem test_faulted :
    statusOf 0x00000002 1 [0x61] faulted = some 0x00020105 ∧
    statusOf 0x00C01000 1 [0x78] faulted = some 0x00020102 ∧
    statusOf 0x00801001 1 [0x78] faulted = some 0x00020105 := by decide +kernel
theorem test_load_invalid :
    statusOf 0x00003000 10 (List.replicate 10 0) State.reset = some 0x00000003 := by decide +kernel
/-- Reset while `AD "a"` is in progress (R340): no response, the reset state, and the command is gone. -/
theorem test_abandoned :
    step { engine0 with inbox := [.resetDuring ⟨0x00000002, 1, [0x61]⟩] } = .next State.reset := rfl
/-- The first step after reset runs the word the host's probe places. -/
theorem test_withFetchWord :
    step (State.reset.withFetchWord 32 0x00002000) = exec .save State.reset := rfl

/-! ## Witnesses: a concrete state and operands that meet the hypotheses of each obligation

One theorem for each obligation that has hypotheses; a conjunct for each clause, at a boundary of its
range where it has one. -/

theorem engine0_operational : engine0.Operational := by decide +kernel
/-- The flag words of the operations that admit MORE, and of RECV_MAC. -/
def flagWords : List Byte :=
  [0x02, 0x12, 0x06, 0x07, 0x0A, 0x1A, 0x0B, 0x1B, 0x0E, 0x1E, 0x0F, 0x1F, 0x0C, 0x1C, 0x0D, 0x1D]

/-- Every form has an operational state in which it may be continued. -/
theorem engineIn_operational :
    ∀ f ∈ flagWords, (engineIn f).Operational ∧ (engineIn f).ctx.curFlags = f :=
  fun f hf => ⟨⟨rfl, rfl, .inl rfl, (by decide : (161 : Byte) < 166), (by decide : (3 : Byte) ≤ 161), rfl,
    by revert f; decide⟩, rfl⟩

/-- Data of four bytes is the longest that stays inside the block of `engineIn`. -/
theorem engineIn_room (f : Byte) :
    (openOp f true (engineIn f).ctx).pos.toNat + abcd.length <
      (openOp f true (engineIn f).ctx).rate.toNat := by
  show (161 : Byte).toNat + 4 < (166 : Byte).toNat
  decide

theorem witness_DecodeOfEncode :
    (Instr.load img0).wellFormed = true ∧ (Instr.ad true true []).wellFormed = true ∧
    (Instr.prf true 0xFFFFFFFF).wellFormed = true ∧ (Instr.init 0xFFFF [0]).wellFormed = true := by
  decide +kernel
theorem witness_EncodeOfDecode : decode ⟨0x00000112, 1, [0x61]⟩ = .ok (.ad true true [0x61]) := by
  decide
theorem witness_DecoderFollowsOpcodeTable :
    (∀ r ∈ opcodeTable, ∃ c : Command, framed c = true ∧ r.covers c.cmdw = true ∧
      (r.name = "SAVE" → c.len = 0)) ∧
    decode ⟨0x00002000, 0, []⟩ = .ok .save :=
  ⟨fun r hr => ⟨⟨r.bits, 0, []⟩, by revert r; decide⟩, by decide⟩
theorem witness_ByteTransportRoundTrip :
    framed ⟨0x00000002, 1, [0x61]⟩ = true ∧ framed ⟨0x00000207, 0xFFFFFFFF, []⟩ = true := by decide
theorem witness_DisassemblyNamesTheRow :
    namedButFaults (.recvMac true false []) = false ∧
    ∀ r ∈ opcodeTable, r.covers 0x00004000 = false := by decide
theorem witness_MetaChangesOnlyTheFlagByte : (0x0F : Byte) &&& 0x10 = 0 := by decide
theorem witness_ResponderFlipsTheFramingByte :
    (0x0B : Byte) &&& 0x08 ≠ 0 ∧ (0x02 : Byte) &&& 0x08 = 0 ∧ Role.initiator ≠ .responder := by decide
theorem witness_LanesAreAViewOfTheBytes : 24 < 25 ∧ 63 < 64 := by decide
theorem witness_StepMappingsAtALane : 4 < 5 ∧ 0 < 5 := by decide
/-- At the end of the block, where two padding bytes meet, and inside it. -/
theorem witness_BlockBoundaryRoutine :
    (let c := context 166 3 166 0x02 .undecided; c.pos ≤ c.rate ∧ c.rate.toNat + 1 < 200) ∧
    (let c := context 1 0 134 0x06 .undecided; c.pos ≤ c.rate ∧ c.rate.toNat + 1 < 200) ∧
    (let c := { context 168 0 168 0 .undecided with initialized := false }
     c.pos ≤ c.rate ∧ c.rate.toNat + 1 < 200) := by decide +kernel
theorem witness_ByteEffectOfEachPhase :
    (let c := context 164 3 166 0x02 .undecided
     c.pos < c.rate ∧ c.rate.toNat + 1 < 200 ∧ c.pos.toNat + 1 < c.rate.toNat) ∧
    (let c := context 165 3 166 0x02 .undecided
     c.pos < c.rate ∧ c.rate.toNat + 1 < 200 ∧ c.pos.toNat + 1 = c.rate.toNat) ∧
    ¬ (true = true ∧ false = true) ∧ ¬ (false = true ∧ false = true) := by decide +kernel
/-- A forced routine that fires, one that does not because the data ends the block, and none. -/
theorem witness_DuplexPositionBookkeeping :
    let c := context 165 3 166 0x02 .undecided
    indicesInRange c = true ∧
    (true = true ∧ (c.pos.toNat + [0, 0].length) % c.rate.toNat ≠ 0) ∧
    ¬ (true = true ∧ (c.pos.toNat + [0].length) % c.rate.toNat ≠ 0) := by decide +kernel
theorem witness_CapacityIsolation :
    (let c := context 164 3 166 0x02 .undecided
     indicesInRange c = true ∧ c.pos.toNat + [0].length < c.rate.toNat ∧
       c.pos.toNat + [0, 0].length ≤ c.rate.toNat ∧ c.rate.toNat ≤ 166 ∧ c.pos ≤ c.rate) ∧
    (∀ j < 166, (engine0.ctx.st.setIfInBounds 166 0)[j]?.getD 0 = memRead engine0.ctx j) := by
  decide +kernel
theorem witness_FramingInsideABlock :
    let c := context 163 3 166 0x02 .responder
    c.Valid ∧ (0x0A : Byte) &&& 0x04 = 0 ∧ c.pos.toNat + 2 < c.rate.toNat := by decide +kernel
/-- The flag byte ends the block; only the first framing byte fits; both fit with room. -/
theorem witness_FramingOfCipherOperations :
    (0x06 : Byte) &&& 0x04 ≠ 0 ∧
    (let c := context 164 3 166 0x02 .undecided; c.Valid ∧ c.pos.toNat + 2 = c.rate.toNat) ∧
    (let c := context 165 3 166 0x02 .undecided; c.Valid ∧ c.pos.toNat + 1 = c.rate.toNat) ∧
    (let c := context 0 0 134 0x02 .undecided; c.Valid ∧ c.pos.toNat + 2 ≤ c.rate.toNat) := by
  decide +kernel
theorem witness_FramingPermutationCounts :
    ((0x06 : Byte) &&& 0x04 ≠ 0 ∧ (0x02 : Byte) &&& 0x04 = 0) ∧
    (let c := context 163 3 166 0x02 .undecided; c.Valid ∧ c.pos.toNat + 3 ≤ c.rate.toNat) ∧
    (let c := context 164 3 166 0x02 .undecided; c.Valid ∧ c.pos.toNat + 2 = c.rate.toNat) ∧
    (let c := context 165 3 166 0x02 .undecided; c.Valid ∧ c.pos.toNat + 1 = c.rate.toNat) := by
  decide +kernel
/-- Every form has a state in which it is continued (and with MORE = 0 every operational state serves). -/
theorem witness_AbsorbingOperationsComplete :
    ∀ f ∈ flagWords, (engineIn f).Operational ∧ (engineIn f).ctx.curFlags = f :=
  engineIn_operational
theorem witness_CipherOperationsComplete :
    ∀ f ∈ flagWords, (engineIn f).Operational ∧ (engineIn f).ctx.curFlags = f :=
  engineIn_operational
theorem witness_RecvMacCompletes : engine0.Operational := engine0_operational
/-- Four bytes from the end of the block, data of four bytes is the longest inside it. -/
theorem witness_AbsorbingDataInsideABlock :
    ∀ f ∈ flagWords, (engineIn f).Operational ∧ (engineIn f).ctx.curFlags = f ∧
      (openOp f true (engineIn f).ctx).pos.toNat + abcd.length <
        (openOp f true (engineIn f).ctx).rate.toNat :=
  fun f hf => ⟨(engineIn_operational f hf).1, (engineIn_operational f hf).2, engineIn_room f⟩
theorem witness_OverwritingDataInsideABlock :
    (∀ f ∈ flagWords, (engineIn f).Operational ∧ (engineIn f).ctx.curFlags = f ∧
      (openOp f true (engineIn f).ctx).pos.toNat + abcd.length <
        (openOp f true (engineIn f).ctx).rate.toNat) ∧
    engine0.Operational ∧ (openOp 0x0D false engine0.ctx).pos.toNat + 165 <
      (openOp 0x0D false engine0.ctx).rate.toNat :=
  ⟨fun f hf => ⟨(engineIn_operational f hf).1, (engineIn_operational f hf).2, engineIn_room f⟩,
    engine0_operational, by decide +kernel⟩
theorem witness_SendingDataInsideABlock :
    ∀ f ∈ flagWords, (engineIn f).Operational ∧ (engineIn f).ctx.curFlags = f ∧
      (openOp f true (engineIn f).ctx).pos.toNat + abcd.length <
        (openOp f true (engineIn f).ctx).rate.toNat :=
  fun f hf => ⟨(engineIn_operational f hf).1, (engineIn_operational f hf).2, engineIn_room f⟩
theorem witness_StreamingEquivalence :
    (∀ f ∈ flagWords, (engineIn f).Operational ∧ (engineIn f).ctx.curFlags = f) ∧
    (0xFFFFFFFE : Word).toNat + (1 : Word).toNat < 2 ^ 32 := ⟨engineIn_operational, by decide⟩
theorem witness_ZeroLengthOperations :
    ∀ f ∈ flagWords, (engineIn f).Operational ∧ (engineIn f).ctx.curFlags = f :=
  engineIn_operational

/-- A Responder that holds engine0's transcript. -/
def responder0 : State := readyWith (context 20 1 166 0x0B .responder)

theorem responder0_operational : responder0.Operational := by decide +kernel
theorem responder0_transcript : engine0.ctx.SameTranscript responder0.ctx := ⟨rfl, rfl, rfl, rfl, rfl⟩
/-- Two undecided parties, and an Initiator's peer. -/
theorem witness_PairedOperationsKeepTranscripts :
    engine0.Operational ∧ responder0.Operational ∧ engine0.ctx.SameTranscript responder0.ctx ∧
    (bindRole 0x08 engine0.ctx.i0).Opposite (bindRole 0x09 responder0.ctx.i0) ∧
    (bindRole 0x08 engine0.ctx.i0).Opposite (bindRole 0x09 engine0.ctx.i0) :=
  ⟨engine0_operational, responder0_operational, responder0_transcript, by decide, by decide⟩
theorem witness_OnlyTheSendersMacVerifies :
    engine0.Operational ∧ responder0.Operational ∧ engine0.ctx.SameTranscript responder0.ctx ∧
    (bindRole 0x08 engine0.ctx.i0).Opposite (bindRole 0x09 responder0.ctx.i0) ∧
    (∃ s', exec (.sendMac false false 4) engine0 = .next s') ∧ abcd.length = (4 : Word).toNat ∧
    (∃ r', exec (.recvMac false false abcd) responder0 = .next r') :=
  ⟨engine0_operational, responder0_operational, responder0_transcript, by decide,
    ⟨_, operation_completes (withMeta flagsSendMac false) false (zeros (4 : Word).toNat)
      engine0_operational (by decide)⟩, rfl,
    ⟨_, (checkedOp_ready (s := responder0) (withMeta flagsRecvMac false) false _ rfl (by decide)).trans
      (runOperate_inRange (withMeta flagsRecvMac false) abcd false responder0_operational.2.2.inRange)⟩⟩

theorem witness_InitCompletes :
    ((128 : BitVec 16) = 128 ∨ (128 : BitVec 16) = 256) ∧
    ((256 : BitVec 16) = 128 ∨ (256 : BitVec 16) = 256) := by decide
theorem witness_OperationsRunTheDuplex :
    ∀ f ∈ flagWords, (engineIn f).Operational ∧ (engineIn f).ctx.curFlags = f :=
  engineIn_operational
theorem witness_InitBootstrap : (256 : BitVec 16) = 128 ∨ (256 : BitVec 16) = 256 := by decide
theorem witness_InitContinuesTheProtocolString :
    (128 : BitVec 16) = 128 ∨ (128 : BitVec 16) = 256 := by decide
theorem witness_InitInvalidLevel :
    ((127 : BitVec 16) ≠ 128 ∧ (127 : BitVec 16) ≠ 256) ∧
    ((257 : BitVec 16) ≠ 128 ∧ (257 : BitVec 16) ≠ 256) := by decide
theorem witness_SaveReturnsTheImage : engine0.Operational := engine0_operational

/-- The seven conditions of R270. -/
def meetsR270 (img : List Byte) : Prop :=
  img.length = 206 ∧ img.getD 204 0 = 1 ∧ (img.getD 202 0 = 166 ∨ img.getD 202 0 = 134) ∧
    img.getD 200 0 < img.getD 202 0 ∧ img.getD 201 0 ≤ img.getD 200 0 ∧ img.getD 203 0 &&& 0xE0 = 0 ∧
    (img.getD 205 0 = 0 ∨ img.getD 205 0 = 1 ∨ img.getD 205 0 = 2)

/-- The validation lines of 95, section 9: IMG0, R = 134 with pos = 133, and pos = R. -/
theorem witness_LoadInstallsExactlyValidImages :
    State.reset.estate ≠ .faulted ∧ State.reset.fcode = .none ∧ meetsR270 img0 ∧
    meetsR270 (((img0.set 202 134).set 200 133)) ∧ ¬ meetsR270 (img0.set 200 166) ∧
    ¬ meetsR270 (img0.set 205 3) := by
  unfold meetsR270
  decide +kernel
theorem witness_SaveThenLoadRestores :
    ∃ s', engine0.Operational ∧ State.reset.estate ≠ .faulted ∧ exec .save engine0 = .next s' :=
  ⟨_, engine0_operational, by decide, rfl⟩

/-- A command issued to a state, with nothing issued after it. -/
def issued (cmdw len : Word) (data : List Byte) (s : State) : State :=
  { s with inbox := [.command ⟨cmdw, len, data⟩] }

theorem witness_NotReadyFault :
    State.reset.estate = .uninit ∧
    (framed ⟨0x000003FF, 0, []⟩ = true ∧ (0x000003FF : Word) &&& 0xFFFFFC00 = 0) ∧
    (framed ⟨0x00002000, 0, []⟩ = true ∧ (0x00002000 : Word) = 0x00002000 ∧ (0 : Word) = 0) := by decide
/-- One word for each alternative, from 95, section 7. -/
theorem witness_UnnamedCommandFault :
    engine0.estate = .ready ∧ engine0.estate ≠ .faulted ∧ State.reset.estate ≠ .faulted ∧ framed ⟨0x00004000, 0, []⟩ = true ∧
    3 < ((0x00004000 : Word) >>> 12) &&& 0xF ∧ (0x00000402 : Word) &&& 0xC00 ≠ 0 ∧
    (((0x00010002 : Word) >>> 12) &&& 0xF ≠ 1 ∧ (0x00010002 : Word) >>> 16 ≠ 0) ∧
    (((0x00801001 : Word) >>> 12) &&& 0xF ≠ 0 ∧ (0x00801001 : Word) &&& 0x3FF ≠ 0) ∧
    (((0x00002000 : Word) >>> 12) &&& 0xF = 2 ∧ (1 : Word) ≠ 0) ∧
    ((0x16 : Byte) &&& 0xE0 = 0 ∧ (0x16 : Byte) ∉ [(0x02 : Byte), 0x12, 0x06, 0x0A, 0x1A, 0x0B, 0x1B,
      0x0E, 0x1E, 0x0F, 0x1F, 0x0D, 0x1D]) ∧
    ((0x17 : Byte) &&& 0xE0 = 0 ∧ ¬ ((0x17 : Byte) &&& 0x09 = 0x09 ∨ (0x17 : Byte) &&& 0x03 = 0x02) ∧
      (0x17 : Byte) ∉ [(0x07 : Byte), 0x0C, 0x1C, 0x04, 0x14]) ∧
    ((0x00000314 : Word).extractLsb' 0 8 = (0x14 : Byte) ∧ (0x00000314 : Word).getLsbD 8 = true) := by
  decide +kernel
theorem witness_FlagFaults :
    engine0.estate = .ready ∧ framed ⟨0x00000229, 0, []⟩ = true ∧ framed ⟨0x00000224, 0, []⟩ = true ∧
    ((0x00000229 : Word) &&& 0xFFFFFC00 = 0 ∧ (0x29 : Byte) &&& 0x09 = 0x09) ∧
    ((0x00000202 : Word) &&& 0xFFFFFC00 = 0 ∧ (0x02 : Byte) &&& 0x03 = 0x02) ∧
    ((0x00000224 : Word) &&& 0xFFFFFC00 = 0 ∧ (0x24 : Byte) &&& 0xE0 ≠ 0 ∧
      ¬ ((0x24 : Byte) &&& 0x09 = 0x09 ∨ (0x24 : Byte) &&& 0x03 = 0x02)) := by decide +kernel
theorem witness_StreamingFaults :
    engine0.estate = .ready ∧ engine0.ctx.curFlags ≠ 0x02 ∧ engine0.ctx.curFlags ≠ 0x0D ∧
    (engineIn 0x0D).estate = .ready ∧ (engineIn 0x0D).ctx.curFlags = 0x0D := by decide +kernel
theorem witness_FaultEntry : ∃ t, step (issued 0x00000022 0 [] engine0) = .next t ∧
    (issued 0x00000022 0 [] engine0).estate ≠ .faulted ∧ t.estate = .faulted :=
  ⟨_, rfl, by decide, rfl⟩
theorem witness_FaultedRefuses :
    faulted.estate = .faulted ∧ framed ⟨0x00002000, 0, []⟩ = true ∧
    (0x00002000 : Word) &&& 0xFFFF ≠ 0x1000 ∧ (0x00801001 : Word) &&& 0xFFFF ≠ 0x1000 := by
  decide +kernel
theorem witness_LeavingFaulted :
    faulted.estate = .faulted ∧ framed ⟨0x00801000, 1, [0x78]⟩ = true ∧
    ((0x00C01000 : Word) &&& 0xFFFF = 0x1000 ∧ (0x00C01000 : Word) ≠ 0x00801000 ∧
      (0x00C01000 : Word) ≠ 0x01001000) ∧
    (HostEvent.resetDuring ⟨0x00002000, 0, []⟩).isReset = true ∧
    ∃ t, step { faulted with inbox := [.reset] } = .next t ∧ t.estate ≠ .faulted :=
  ⟨rfl, by decide, by decide, rfl, _, rfl, by decide⟩
theorem witness_StepRunsTheDecodedCommand :
    (issued 0x00000002 1 [0x61] engine0).inbox = [.command ⟨0x00000002, 1, [0x61]⟩] ∧
    decode ⟨0x00000002, 1, [0x61]⟩ = .ok (.ad false false [0x61]) ∧
    (Instr.ad false false [0x61]).wellFormed = true := ⟨rfl, by decide, by decide⟩
theorem witness_EveryCommandCompletes :
    engine0.Inv ∧ State.reset.Inv ∧ faulted.Inv ∧ framed ⟨0x00000002, 1, [0x61]⟩ = true :=
  ⟨by decide +kernel, by decide, by decide +kernel, by decide⟩
/-- Each way to stop can happen. -/
theorem witness_TheOnlyStops :
    step State.reset = .refused .noCommand ∧
    step (issued 0x00000002 2 [0x61] engine0) = .refused .malformedCommand ∧
    step (issued 0x00000002 0 [] { engine0 with ctx := { engine0.ctx with pos := 200 } }) =
      .fault .stateIndex := ⟨rfl, rfl, rfl⟩
theorem witness_ResetGivesTheResetState :
    ({ faulted with inbox := [.reset] } : State).inbox = [.reset] ∧
    ({ engine0 with inbox := [.resetDuring ⟨0x00000002, 1, [0x61]⟩] } : State).inbox =
      [.resetDuring ⟨0x00000002, 1, [0x61]⟩] := ⟨rfl, rfl⟩
theorem witness_StepKeepsTheInvariant : ∃ t, (issued 0x00000022 0 [] engine0).Inv ∧
    step (issued 0x00000022 0 [] engine0) = .next t := ⟨_, by decide +kernel, rfl⟩
theorem witness_StatusWordReadsTheRegisters : ∃ t,
    (issued 0x00002000 0 [] engine0).inbox = [.command ⟨0x00002000, 0, []⟩] ∧
    step (issued 0x00002000 0 [] engine0) = .next t := ⟨_, rfl, rfl⟩
/-- One command for each result: 0, 2, 3, 4, 5. Result 1 is `test_recvMac_wrong`. -/
theorem witness_OutcomeKinds :
    statusOf 0x00002000 0 [] engine0 = some 0x00010000 ∧
    statusOf 0x00C01000 0 [] engine0 = some 0x00010002 ∧
    statusOf 0x00003000 0 [] engine0 = some 0x00010003 ∧
    statusOf 0x00000022 0 [] engine0 = some 0x00020104 ∧
    statusOf 0x00002000 0 [] faulted = some 0x00020105 := by decide +kernel
theorem witness_AccessTable :
    (after .save engine0).isSome = true ∧ (after (.load img0) engine0).isSome = true ∧
    (after (.ad false false [0x61]) engine0).isSome = true ∧
    (after (.ad true true []) engine0).isSome = true := by decide +kernel
theorem witness_RoleIsMonotone : ∃ t, step { responder0 with inbox := [.reset] } = .next t ∧
    responder0.ctx.i0 ≠ .undecided ∧ t.ctx.i0 ≠ responder0.ctx.i0 := ⟨_, rfl, by decide, by decide⟩
/-- Two FAULTED engines with different contexts. -/
theorem witness_ContextHiddenUnlessReady :
    faulted.Indistinguishable { faulted with ctx := Context.reset } ∧
    faulted.ctx ≠ Context.reset := by decide +kernel
theorem witness_PermutationBound :
    (context 165 3 166 0x02 .undecided).Valid ∧ (context 133 0 134 0x02 .undecided).Valid ∧
    ((256 : BitVec 16) = 128 ∨ (256 : BitVec 16) = 256) := by decide +kernel

/-- Engine e READY with a SAVE issued, engine f after reset with a reset issued. -/
def twoEngines : System :=
  { engines := [issued 0x00002000 0 [] engine0, { State.reset with inbox := [.reset] }] }

theorem witness_EnginesAreIndependent : ∃ u v, (0 : Nat) ≠ 1 ∧
    stepEngine 0 twoEngines = some (.next u) ∧ stepEngine 1 twoEngines = some (.next v) :=
  ⟨_, _, by decide, rfl, rfl⟩
theorem witness_CloneCopiesTheContext :
    (0 : Nat) ≠ 1 ∧ twoEngines.engines[0]? = some (issued 0x00002000 0 [] engine0) ∧
    twoEngines.engines[1]? = some { State.reset with inbox := [.reset] } ∧
    (issued 0x00002000 0 [] engine0).Operational ∧
    ({ State.reset with inbox := [.reset] } : State).estate ≠ .faulted :=
  ⟨by decide, rfl, rfl, by decide +kernel, by decide⟩

end Sys2Proof.Tests
end

section
/-! PROOFS. The round trip of the encoding, and the step of a command that decodes. -/

namespace Sys2Proof

open Sys2Proof.Machine

/-! ## The decoder on the words of the encoder -/

/-- An operation word passes every check of R313 down to the row, when its flag word has no reserved flag
and is no output that R307 forbids. -/
theorem decodeWord_opWord {f : Byte} {more src : Bool} (len : Word) (data : List Byte)
    (hout : (src && outputForbidden f) = false) (hres : reservedSet f = false) :
    decodeWord ⟨opWord f more src, len, data⟩ =
      decodeRow f src more ⟨opWord f more src, len, data⟩ := by
  simp [decodeWord, decodeOp, hout, hres]

/-- The word of an instruction names that instruction (R96, R98): an operation word passes the checks, and
its flag word then computes to its row once M is known. -/
theorem decodeWord_encode (i : Instr) : decodeWord (encode i) = .ok i := by
  cases i with
  | ad m more data => cases m <;> exact decodeWord_opWord _ data rfl rfl |>.trans rfl
  | key more data => exact decodeWord_opWord _ data rfl rfl |>.trans rfl
  | prf more len => exact decodeWord_opWord len [] rfl rfl |>.trans rfl
  | sendClr m more data => cases m <;> exact decodeWord_opWord _ data rfl rfl |>.trans rfl
  | recvClr m more data => cases m <;> exact decodeWord_opWord _ data rfl rfl |>.trans rfl
  | sendEnc m more data => cases m <;> exact decodeWord_opWord _ data rfl rfl |>.trans rfl
  | recvEnc m more data => cases m <;> exact decodeWord_opWord _ data rfl rfl |>.trans rfl
  | sendMac m more len => cases m <;> exact decodeWord_opWord len [] rfl rfl |>.trans rfl
  | recvMac m more data => cases m <;> exact decodeWord_opWord _ data rfl rfl |>.trans rfl
  | ratchet m len => cases m <;> exact decodeWord_opWord len [] rfl rfl |>.trans rfl
  | init level proto => simp [decodeWord, encode, encodeWord, dataIn]
  | save => rfl
  | load img => simp [decodeWord, encode, encodeWord, dataIn, wordCmd, wordRsv, wordLow, wordArg]

/-- The encoding of a well-formed instruction is a command (R90). -/
theorem framed_encode {i : Instr} (h : i.wellFormed = true) : framed (encode i) = true := by
  cases i with
  | ad m more data => exact Laws.EncodeFramed.ad m more data h
  | key more data => exact Laws.EncodeFramed.key more data h
  | prf more len => exact Laws.EncodeFramed.prf more len h
  | sendClr m more data => exact Laws.EncodeFramed.sendClr m more data h
  | recvClr m more data => exact Laws.EncodeFramed.recvClr m more data h
  | sendEnc m more data => exact Laws.EncodeFramed.sendEnc m more data h
  | recvEnc m more data => exact Laws.EncodeFramed.recvEnc m more data h
  | sendMac m more len => exact Laws.EncodeFramed.sendMac m more len h
  | recvMac m more data => exact Laws.EncodeFramed.recvMac m more data h
  | ratchet m len => exact Laws.EncodeFramed.ratchet m len h
  | init level proto => exact Laws.EncodeFramed.init level proto h
  | save => exact Laws.EncodeFramed.save h
  | load img => exact Laws.EncodeFramed.load img h

/-- The decoder inverts the encoder on well-formed instructions (R90, R96, R98). -/
theorem decode_encode {i : Instr} (h : i.wellFormed = true) : decode (encode i) = .ok i :=
  (decode_ok_iff _ _).2 ⟨framed_encode h, decodeWord_encode i⟩

end Sys2Proof

namespace Sys2Proof.Machine

/-! ## The step of a command -/

/-- With a command as the oldest event, the step takes it out and answers it (R10). -/
theorem step_command {s : State} {c : Command} {rest : List HostEvent}
    (hi : s.inbox = .command c :: rest) : step s = stepCommand c { s with inbox := rest } := by
  simp only [step, hi]

/-- A command that decodes runs its instruction (R313). -/
theorem stepCommand_of_decode {c : Command} {i : Instr} (hd : decode c = .ok i) (s : State) :
    stepCommand c s = exec i s := by
  simp only [stepCommand, hd]

/-- A step whose oldest event is a command that decodes runs the instruction on the state without that
event (R10, R313). -/
theorem step_of_decode {s : State} {c : Command} {i : Instr} {rest : List HostEvent}
    (hi : s.inbox = .command c :: rest) (hd : decode c = .ok i) :
    step s = exec i { s with inbox := rest } :=
  (step_command hi).trans (stepCommand_of_decode hd _)

/-- Settles O46: the step takes the command out and runs what it decodes to, and an encoding decodes to
its instruction. -/
theorem stepRunsTheDecodedCommand : Obligations.StepRunsTheDecodedCommand :=
  ⟨fun _ _ _ _ hi hd => step_of_decode hi hd, fun _ _ hw => step_of_decode rfl (decode_encode hw)⟩

end Sys2Proof.Machine
end

section
/-! PROOFS. The state of the engine: the fields of a command word, what an instruction can do, the invariant of
R29 and R31, the writers of R33, the role, reset, several engines, and the two views of the state bytes. -/

namespace Sys2Proof

open Sys2Proof.Machine

/-! ## The fields of a command word (R91) -/

/-- A command word has MORE set exactly when its bit 8 is 1 (R91). -/
theorem and_more_eq_zero_iff (w : Word) : w &&& 0x100 = 0 ↔ wordMore w = false := by
  rw [show (0x100 : Word) = BitVec.twoPow 32 8 from rfl, BitVec.and_twoPow, wordMore]
  cases w.getLsbD 8 <;> decide

/-- A command word has T clear in its FLAGS exactly when its bit 3 is 0 (R91, R92). -/
theorem and_flagT_eq_zero_iff (w : Word) : w &&& 0x08 = 0 ↔ hasFlag (wordFlags w) flagT = false := by
  have hbit : (wordFlags w).getLsbD 3 = w.getLsbD 3 := by simp [wordFlags]
  rw [hasFlag, show flagT = BitVec.twoPow 8 3 from rfl, show (0x08 : Word) = BitVec.twoPow 32 3 from rfl,
    BitVec.and_twoPow, BitVec.and_twoPow, hbit]
  cases w.getLsbD 3 <;> decide

/-- A command word is its fields in order (R91); RSV and CMDW[9:0] are the 12 bits below CMD. -/
theorem word_eq_fields (w : Word) : w = wordArg w ++ (wordCmd w ++ (wordRsv w ++ wordLow w)) := by
  unfold wordArg wordCmd wordRsv wordLow
  rw [BitVec.extractLsb'_append_extractLsb'_eq_extractLsb' (by decide),
    BitVec.extractLsb'_append_extractLsb'_eq_extractLsb' (by decide),
    BitVec.extractLsb'_append_extractLsb'_eq_extractLsb' (by decide)]
  exact BitVec.extractLsb'_eq_self.symm

/-- The low half of a command word: everything but ARG (R91). -/
theorem word_low_half (w : Word) :
    w &&& 0xFFFF = (0 : BitVec 16) ++ (wordCmd w ++ (wordRsv w ++ wordLow w)) := by
  conv_lhs => rw [word_eq_fields w, show (0xFFFF : Word) = (0 : BitVec 16) ++ BitVec.allOnes 16 from rfl,
    BitVec.and_append, BitVec.and_allOnes]
  simp

/-- No row of R96 is a control command. -/
theorem decodeRow_not_control {flags : Byte} {src more : Bool} {c : Command} {i : Instr}
    (h : decodeRow flags src more c = .ok i) :
    (∀ level proto, i ≠ .init level proto) ∧ (∀ img, i ≠ .load img) := by
  unfold decodeRow at h
  dsimp only at h
  repeat' split at h
  all_goals (cases h <;> simp)

/-- No operation word names INIT or LOAD (R96, R98). -/
theorem decodeOp_not_control {c : Command} {i : Instr} (h : decodeOp c = .ok i) :
    (∀ level proto, i ≠ .init level proto) ∧ (∀ img, i ≠ .load img) := by
  unfold decodeOp at h
  split at h
  · cases h
  · split at h
    · cases h
    · split at h
      · cases h
      · exact decodeRow_not_control h

/-- What a word that names an instruction looks like (R98, R313): RSV is 0, and it is INIT, SAVE or LOAD with
the fields R98 asks to be 0, or an operation word. -/
theorem decodeWord_ok_cases {c : Command} {i : Instr} (h : decodeWord c = .ok i) :
    wordRsv c.cmdw = 0 ∧
    ((wordCmd c.cmdw = 1 ∧ wordLow c.cmdw = 0 ∧ i = .init (wordArg c.cmdw) c.data) ∨
     (wordCmd c.cmdw = 2 ∧ wordLow c.cmdw = 0 ∧ wordArg c.cmdw = 0 ∧ c.len = 0 ∧ i = .save) ∨
     (wordCmd c.cmdw = 3 ∧ wordLow c.cmdw = 0 ∧ wordArg c.cmdw = 0 ∧ i = .load c.data) ∨
     (wordCmd c.cmdw = 0 ∧ decodeOp c = .ok i)) := by
  unfold decodeWord at h
  split_ifs at h with hclass hrsv hinit hz hsave hz hload hz
  all_goals refine ⟨not_not.1 hrsv, ?_⟩
  · cases h
    exact .inl ⟨hinit, not_not.1 hz, rfl⟩
  · cases h
    simp only [not_or, not_not] at hz
    exact .inr (.inl ⟨hsave, hz.1, hz.2.1, hz.2.2, rfl⟩)
  · cases h
    simp only [not_or, not_not] at hz
    exact .inr (.inr (.inl ⟨hload, hz.1, hz.2, rfl⟩))
  · exact .inr (.inr (.inr ⟨by bv_omega, h⟩))

/-- The words that INIT is sent as (R98). -/
theorem cmdw_of_decode_init {c : Command} {level : BitVec 16} {proto : List Byte}
    (h : decode c = .ok (.init level proto)) : c.cmdw &&& 0xFFFF = 0x1000 := by
  obtain ⟨-, hw⟩ := (decode_ok_iff _ _).1 h
  obtain ⟨hrsv, ⟨hcmd, hlow, -⟩ | ⟨-, -, -, -, hi⟩ | ⟨-, -, -, hi⟩ | ⟨-, hop⟩⟩ := decodeWord_ok_cases hw
  · rw [word_low_half, hcmd, hrsv, hlow]
    rfl
  · cases hi
  · cases hi
  · exact absurd rfl ((decodeOp_not_control hop).1 level proto)

/-- The one word that LOAD is sent as (R98). -/
theorem cmdw_of_decode_load {c : Command} {img : List Byte} (h : decode c = .ok (.load img)) :
    c.cmdw = 0x00003000 := by
  obtain ⟨-, hw⟩ := (decode_ok_iff _ _).1 h
  obtain ⟨hrsv, ⟨-, -, hi⟩ | ⟨-, -, -, -, hi⟩ | ⟨hcmd, hlow, harg, -⟩ | ⟨-, hop⟩⟩ := decodeWord_ok_cases hw
  · cases hi
  · cases hi
  · rw [word_eq_fields c.cmdw, hcmd, hrsv, hlow, harg]
    rfl
  · exact absurd rfl ((decodeOp_not_control hop).2 img)

end Sys2Proof

namespace Sys2Proof.Machine

/-! ## What an instruction can do -/

/-- A fault code that an engine can hold in FAULTED: not 0, and not the code that is reserved (R304, R312). -/
abbrev FaultCode.Raisable (code : FaultCode) : Prop := code ≠ .none ∧ code ≠ .duplexConflict

/-- What an instruction can do to a state: be refused, fault, answer without touching anything else, run
`operate` with the flags and MORE of its own word, or install the context of an INIT or of a LOAD. -/
inductive ExecEffect (i : Instr) (s : State) : State → Prop
  /-- R315. -/
  | refuse (he : s.estate = .faulted) : ExecEffect i s (refuseFaulted s)
  /-- R309. -/
  | fault (code : FaultCode) (he : s.estate ≠ .faulted) (hc : code.Raisable) :
      ExecEffect i s (raiseFault code s)
  /-- SAVE, and INIT and LOAD with an operand they do not accept (R267, R302, R311). -/
  | answer (r : Result) (out : List Byte) : ExecEffect i s (respond r out s)
  /-- R189. -/
  | operate {f : Byte} {more src : Bool} {buf : List Byte} {t : State} (he : s.estate = .ready)
      (hw : encodeWord i = opWord f more src) (hf : f &&& 0xE0 = 0)
      (hrun : runOperate f buf more s = .next t) : ExecEffect i s t
  /-- R266. -/
  | init (level : BitVec 16) (proto : List Byte) (hi : i = .init level proto)
      (hv : validLevel level = true) :
      ExecEffect i s (respond .ok [] (becomeReady (initContext level proto) s))
  /-- R269. -/
  | load (img : List Byte) (hi : i = .load img) (he : s.estate ≠ .faulted)
      (hv : validImage img = true) :
      ExecEffect i s (respond .ok [] { s with ctx := contextOfImage img, estate := .ready })

/-- Behind the checks of R313 only the body of an operation is left to look at, in READY. -/
theorem checkedOp_effect {i : Instr} {f : Byte} {more : Bool} {s t : State}
    {body : Host.Outcome State Fault Refusal} (h : checkedOp f more s body = .next t)
    (hbody : s.estate = .ready → body = .next t → ExecEffect i s t) : ExecEffect i s t := by
  obtain ⟨he, rfl⟩ | ⟨he, rfl⟩ | ⟨he, -, -, rfl⟩ | ⟨he, -, hb⟩ := checkedOp_next h
  · exact .refuse he
  · exact .fault _ (by simp [he]) (by decide)
  · exact .fault _ (by simp [he]) (by decide)
  · exact hbody he hb

/-- An operation runs `operate` with the flags and MORE of its word. -/
theorem operation_effect {i : Instr} {f : Byte} {more src : Bool} {buf : List Byte} {s t : State}
    (hw : encodeWord i = opWord f more src) (hf : f &&& 0xE0 = 0)
    (h : operation f more buf s = .next t) : ExecEffect i s t :=
  checkedOp_effect h fun he hb => .operate he hw hf hb

/-- A base flag word of R96 has no reserved bit, with M or without (R92, R93). -/
theorem withMeta_reserved {base : Byte} (m : Bool) (h : base &&& 0xE0 = 0) :
    withMeta base m &&& 0xE0 = 0 := by
  cases m with
  | false => exact h
  | true =>
    show (base ||| flagM) &&& 0xE0 = 0
    rw [BitVec.and_or_distrib_right, h]
    rfl

theorem execRecvMac_effect {m more : Bool} {data : List Byte} {s t : State}
    (h : execRecvMac m more data s = .next t) : ExecEffect (.recvMac m more data) s t := by
  refine checkedOp_effect h fun he hb => ?_
  cases more with
  | true =>
    obtain rfl : raiseFault .macStreaming s = t := by simpa using hb
    exact .fault _ (by simp [he]) (by decide)
  | false => exact .operate he rfl (withMeta_reserved m (by decide)) hb

theorem execInit_effect {level : BitVec 16} {proto : List Byte} {s t : State}
    (h : execInit level proto s = .next t) : ExecEffect (.init level proto) s t := by
  obtain ⟨hv, rfl⟩ | ⟨-, rfl⟩ := execInit_next h
  · exact .init level proto rfl hv
  · exact .answer _ _

theorem execSave_effect {s t : State} (h : execSave s = .next t) : ExecEffect .save s t := by
  obtain ⟨he, rfl⟩ | ⟨he, rfl⟩ | ⟨-, rfl⟩ := execSave_next h
  · exact .refuse he
  · exact .fault _ (by simp [he]) (by decide)
  · exact .answer _ _

theorem execLoad_effect {img : List Byte} {s t : State} (h : execLoad img s = .next t) :
    ExecEffect (.load img) s t := by
  obtain ⟨he, rfl⟩ | ⟨he, hv, rfl⟩ | ⟨-, -, rfl⟩ := execLoad_next h
  · exact .refuse he
  · exact .load img rfl he hv
  · exact .answer _ _

/-- Every instruction that gives a next state has one of the effects above. -/
theorem exec_effect {i : Instr} {s t : State} (h : exec i s = .next t) : ExecEffect i s t := by
  cases i with
  | ad m more data => exact operation_effect rfl (withMeta_reserved m (by decide)) h
  | key more data => exact operation_effect rfl (by decide) h
  | prf more len => exact operation_effect rfl (by decide) h
  | sendClr m more data => exact operation_effect rfl (withMeta_reserved m (by decide)) h
  | recvClr m more data => exact operation_effect rfl (withMeta_reserved m (by decide)) h
  | sendEnc m more data => exact operation_effect rfl (withMeta_reserved m (by decide)) h
  | recvEnc m more data => exact operation_effect rfl (withMeta_reserved m (by decide)) h
  | sendMac m more len => exact operation_effect rfl (withMeta_reserved m (by decide)) h
  | recvMac m more data => exact execRecvMac_effect h
  | ratchet m len => exact operation_effect rfl (withMeta_reserved m (by decide)) h
  | init level proto => exact execInit_effect h
  | save => exact execSave_effect h
  | load img => exact execLoad_effect h

/-! ## The contexts that INIT and LOAD install meet R29 -/

/-- The forced routine leaves `pos` at 0, whether it runs or not (R160, R164). -/
theorem forceBlock_true_pos (c : Context) : (forceBlock true c).pos = 0 := by
  obtain ⟨-, -, hb⟩ | ⟨hp, hb⟩ := forceBlock_cases true c <;> rw [hb]
  · rfl
  · exact hp.resolve_left (by decide)

theorem duplexContext_forced_pos (data : List Byte) (cb : Bool) (c : Context) :
    (duplexContext data cb true c).pos = 0 := forceBlock_true_pos _

theorem duplexContext_posBegin_le (data : List Byte) (cb f : Bool) {c : Context}
    (h : indicesInRange c = true) (hp : c.posBegin ≤ c.pos) :
    (duplexContext data cb f c).posBegin ≤ (duplexContext data cb f c).pos :=
  forceBlock_posBegin_le f (loopContext_posBegin_le cb data h hp)

/-- The bootstrap leaves a context that meets R29: the permutation is forced, so `pos` is 0, and R is the
bootstrap rate less 2 (R261 to R264). -/
theorem initBootstrapped_valid {level : BitVec 16} (h : validLevel level = true) :
    (initBootstrapped level).Valid := by
  have hlevel : level = 128 ∨ level = 256 := by simpa [validLevel] using h
  have hrange : indicesInRange (initZeroed level) = true := by
    obtain rfl | rfl := hlevel <;> decide
  have hrate : bootRate level - 2 = 166 ∨ bootRate level - 2 = 134 := by
    obtain rfl | rfl := hlevel <;> decide
  have hpos : (initBootstrapped level).pos = 0 := by
    simp only [initBootstrapped, duplexContext_forced_pos]
  have hbegin : (initBootstrapped level).posBegin ≤ (initBootstrapped level).pos := by
    simp only [initBootstrapped]
    exact duplexContext_posBegin_le _ _ _ hrange (BitVec.le_refl _)
  have hr : (initBootstrapped level).rate = bootRate level - 2 := by
    simp [initBootstrapped, initZeroed]
  refine ⟨hr ▸ hrate, ?_, hbegin, rfl, ?_⟩
  · rw [hpos, hr]
    obtain h | h := hrate <;> rw [h] <;> decide
  · simp [initBootstrapped, initZeroed]

/-- INIT leaves a context that meets R29 (R266). -/
theorem initContext_valid {level : BitVec 16} (proto : List Byte) (h : validLevel level = true) :
    (initContext level proto).Valid :=
  operateContext_valid _ _ _ (initBootstrapped_valid h) (by decide)

/-- The conditions of R270 on an image are those of R29 on the context it installs. -/
theorem contextOfImage_valid {img : List Byte} (h : validImage img = true) :
    (contextOfImage img).Valid := by
  simp only [validImage, Bool.and_eq_true, Bool.or_eq_true, beq_iff_eq, decide_eq_true_eq] at h
  obtain ⟨⟨⟨⟨⟨⟨-, -⟩, hrate⟩, hpos⟩, hbegin⟩, hflags⟩, -⟩ := h
  exact ⟨hrate, hpos, hbegin, rfl, hflags⟩

/-! ## The invariant -/

/-- Settles O50: UNINIT asks nothing of the context. -/
theorem resetMeetsTheInvariant : Obligations.ResetMeetsTheInvariant :=
  ⟨by simp [State.reset], fun _ => rfl, by simp [State.reset]⟩

/-- The reset state meets the invariant whatever is still issued. -/
theorem resetEvent_inv (rest : List HostEvent) : (resetEvent rest).Inv := resetMeetsTheInvariant

/-- Taking a fault that can be raised gives the invariant, from every state (R309). -/
theorem raiseFault_inv {code : FaultCode} (hc : code.Raisable) (s : State) :
    (raiseFault code s).Inv := ⟨by simp, by simp, fun _ => hc⟩

/-- An operational state meets the invariant. -/
theorem State.Operational.inv {s : State} (h : s.Operational) : s.Inv := by
  obtain ⟨he, hf, hc⟩ := h
  exact ⟨fun _ => hc, fun _ => hf, by simp [he]⟩

/-- In READY the invariant says that the state is operational. -/
theorem State.Inv.operational {s : State} (h : s.Inv) (he : s.estate = .ready) : s.Operational :=
  ⟨he, h.2.1 (by simp [he]), h.1 he⟩

/-- `operate` keeps an operational state operational. -/
theorem runOperate_operational {f : Byte} {buf : List Byte} {more : Bool} {s t : State}
    (hs : s.Operational) (hf : f &&& 0xE0 = 0) (h : runOperate f buf more s = .next t) :
    t.Operational := by
  obtain ⟨he, hfc, hc⟩ := hs
  obtain ⟨-, rfl⟩ := runOperate_next h
  exact ⟨he, hfc, operateContext_valid f buf more hc hf⟩

/-- Every effect of an instruction keeps the invariant. -/
theorem ExecEffect.inv {i : Instr} {s t : State} (h : ExecEffect i s t) (hs : s.Inv) : t.Inv := by
  cases h with
  | refuse => exact hs
  | fault code _ hc => exact raiseFault_inv hc s
  | answer => exact hs
  | operate he _ hf hrun => exact (runOperate_operational (hs.operational he) hf hrun).inv
  | init level proto _ hv => exact State.Operational.inv ⟨rfl, rfl, initContext_valid proto hv⟩
  | load img _ he hv =>
    have hfc : s.fcode = .none := hs.2.1 he
    exact State.Operational.inv ⟨rfl, by rw [respond_fcode, hfc], contextOfImage_valid hv⟩

/-- The code of a command word that names no command can be raised (R308). -/
theorem illegalCode_raisable (why : IllegalWord) : (illegalCode why).Raisable := by
  cases why <;> decide

/-- A command word that names no command keeps the invariant. -/
theorem rejectIllegal_inv (why : IllegalWord) {s : State} (hs : s.Inv) : (rejectIllegal why s).Inv := by
  obtain ⟨-, h⟩ | ⟨-, -, h⟩ | ⟨-, -, h⟩ := rejectIllegal_cases why s <;> rw [h]
  · exact hs
  · exact raiseFault_inv (by decide) s
  · exact raiseFault_inv (illegalCode_raisable why) s

/-- Settles O51: a step is a reset, an illegal word, or an instruction, and each of them keeps the
invariant; taking an event out of the inbox does not touch it. -/
theorem stepKeepsTheInvariant : Obligations.StepKeepsTheInvariant := by
  intro s t hs h
  obtain ⟨-, rest, -, -, rfl⟩ | ⟨-, rest, why, -, -, rfl⟩ | ⟨-, rest, i, -, -, he⟩ := step_next h
  · exact resetEvent_inv rest
  · exact rejectIllegal_inv why hs
  · exact (exec_effect he).inv hs

/-! ## Who writes what (R33) -/

/-- What R33 lets an operation with the flags and MORE of a command word write of the context: not `R`, not
`initialized`, `curFlags` and `i0` only with MORE = 0, and `i0` only with T. -/
abbrev Context.WrittenBy (w : Word) (c d : Context) : Prop :=
  d.rate = c.rate ∧ d.initialized = c.initialized ∧
    (w &&& 0x100 ≠ 0 → d.curFlags = c.curFlags ∧ d.i0 = c.i0) ∧ (w &&& 0x08 = 0 → d.i0 = c.i0)

/-- A command that leaves the context alone writes nothing that R33 forbids. -/
theorem Context.WrittenBy.refl (w : Word) (c : Context) : c.WrittenBy w c :=
  ⟨rfl, rfl, fun _ => ⟨rfl, rfl⟩, fun _ => rfl⟩

/-- `operate` with MORE = 1 leaves `curFlags` and `i0`; with MORE = 0 and without T it binds no role. -/
theorem operateContext_writtenBy (f : Byte) (buf : List Byte) (more src : Bool) (c : Context) :
    c.WrittenBy (opWord f more src) (operateContext f buf more c) := by
  refine ⟨operateContext_rate f buf more c, operateContext_initialized f buf more c, fun hm => ?_,
    fun ht => ?_⟩
  · obtain rfl : more = true := by
      rw [Ne, and_more_eq_zero_iff, wordMore_opWord] at hm
      simpa using hm
    simp [operateContext_curFlags, operateContext_i0]
  · have hT : hasFlag f flagT = false := by
      rwa [and_flagT_eq_zero_iff, wordFlags_opWord] at ht
    simp [operateContext_i0, bindRole_noT f c.i0 hT]

/-- No instruction touches the commands still issued. -/
theorem ExecEffect.inbox {i : Instr} {s t : State} (h : ExecEffect i s t) : t.inbox = s.inbox := by
  cases h with
  | refuse => rfl
  | fault => rfl
  | answer => rfl
  | operate _ _ _ hrun => obtain ⟨-, rfl⟩ := runOperate_next hrun; rfl
  | init => rw [respond_inbox, becomeReady_inbox]
  | load => rw [respond_inbox]

/-- Only INIT and LOAD write more of the context than an operation may. -/
theorem ExecEffect.writtenBy {i : Instr} {s t : State} (h : ExecEffect i s t)
    (hinit : ∀ level proto, i ≠ .init level proto) (hload : ∀ img, i ≠ .load img) :
    s.ctx.WrittenBy (encodeWord i) t.ctx := by
  cases h with
  | refuse => exact .refl _ _
  | fault => exact .refl _ _
  | answer => exact .refl _ _
  | @operate f more src buf _ _ hw _ hrun =>
    obtain ⟨-, rfl⟩ := runOperate_next hrun
    rw [hw]
    exact operateContext_writtenBy f buf more src s.ctx
  | init level proto hi => exact absurd hi (hinit level proto)
  | load img hi => exact absurd hi (hload img)

/-- SAVE writes no context element, whatever it answers (R267). -/
theorem execSave_ctx {s t : State} (h : execSave s = .next t) : t.ctx = s.ctx := by
  obtain ⟨-, rfl⟩ | ⟨-, rfl⟩ | ⟨-, rfl⟩ := execSave_next h <;> rfl

/-- LOAD never writes FCODE, whatever it answers (R269). -/
theorem execLoad_fcode {img : List Byte} {s t : State} (h : execLoad img s = .next t) :
    t.fcode = s.fcode := by
  obtain ⟨-, rfl⟩ | ⟨-, -, rfl⟩ | ⟨-, -, rfl⟩ := execLoad_next h <;> simp

/-- Settles O54, by the effect of the instruction. -/
theorem accessTable : Obligations.AccessTable := by
  intro i s t h
  refine ⟨(exec_effect h).inbox, (exec_effect h).writtenBy, ?_, ?_⟩
  · rintro rfl
    exact execSave_ctx h
  · rintro img rfl
    exact execLoad_fcode h

/-! ## The role (R27, R182) -/

/-- Only INIT and LOAD change a role that is bound: `operate` with MORE = 0 binds an undecided one. -/
theorem ExecEffect.init_or_load {i : Instr} {s t : State} (h : ExecEffect i s t)
    (hbound : s.ctx.i0 ≠ .undecided) (hrole : t.ctx.i0 ≠ s.ctx.i0) :
    (∃ level proto, i = .init level proto) ∨ (∃ img, i = .load img) := by
  cases h with
  | refuse => exact absurd rfl hrole
  | fault => exact absurd rfl hrole
  | answer => exact absurd rfl hrole
  | operate _ _ _ hrun =>
    obtain ⟨-, rfl⟩ := runOperate_next hrun
    refine absurd ?_ hrole
    simp [operateContext_i0, bindRole_bound _ hbound]
  | init level proto hi => exact .inl ⟨level, proto, hi⟩
  | load img hi => exact .inr ⟨img, hi⟩

/-- An illegal word leaves the context alone (R309, R315). -/
theorem rejectIllegal_ctx (why : IllegalWord) (s : State) : (rejectIllegal why s).ctx = s.ctx := by
  obtain ⟨-, h⟩ | ⟨-, -, h⟩ | ⟨-, -, h⟩ := rejectIllegal_cases why s <;> rw [h] <;> rfl

/-- Settles O55: a step that changes a bound role is a reset, or runs an instruction that changes it, which
only INIT and LOAD do. -/
theorem roleIsMonotone : Obligations.RoleIsMonotone := by
  intro s t h hbound hrole
  obtain ⟨e, rest, hi, he, -⟩ | ⟨c, rest, why, -, -, rfl⟩ | ⟨c, rest, i, hi, hd, he⟩ := step_next h
  · exact .inl ⟨e, rest, hi, he⟩
  · exact absurd (congrArg Context.i0 (rejectIllegal_ctx why _)) hrole
  · refine .inr ⟨c, rest, hi, ?_⟩
    obtain ⟨level, proto, rfl⟩ | ⟨img, rfl⟩ := (exec_effect he).init_or_load hbound hrole
    · exact .inl (cmdw_of_decode_init hd)
    · exact .inr (cmdw_of_decode_load hd)

/-! ## Reset (R38, R340) -/

/-- Every byte of the reset state is 0 (R38). -/
theorem memRead_reset (j : Nat) : memRead Context.reset j = 0 := by
  by_cases hj : j < Config.stateBytes
  · simp [memRead, Context.reset, hj]
  · exact memRead_outside _ (Nat.le_of_not_lt hj)

/-- Settles O49: both kinds of reset event lead to the reset state, and it is zero at every element. -/
theorem resetGivesTheResetState : Obligations.ResetGivesTheResetState := by
  unfold Obligations.ResetGivesTheResetState
  intro isReset
  have hreset (rest : List HostEvent) : isReset (resetEvent rest) :=
    ⟨rfl, rfl, memRead_reset, rfl, rfl, rfl, rfl, rfl, rfl⟩
  refine ⟨hreset [], fun s rest hi => ?_, fun s c rest hi => ?_⟩
  · exact ⟨resetEvent rest, step_isReset hi rfl, hreset rest⟩
  · exact ⟨resetEvent rest, step_isReset hi rfl, hreset rest, rfl, List.suffix_rfl⟩

/-! ## Several engines (R323) -/

/-- Engine k of a system steps exactly when there is one and its own step gives a next state, which is then
the only change to the system. -/
theorem stepEngine_next_iff (k : Nat) (y z : System) :
    stepEngine k y = some (.next z) ↔
      ∃ s t, y.engines[k]? = some s ∧ step s = .next t ∧ z = { engines := y.engines.set k t } := by
  unfold stepEngine
  cases hk : y.engines[k]? with
  | none => simp
  | some s => cases hs : step s <;> simp [hs, eq_comm]

/-- Settles O58: a step replaces one element of the list of engines, and replacements at two places commute. -/
theorem enginesAreIndependent : Obligations.EnginesAreIndependent := by
  refine ⟨fun k y z h => ?_, fun j k y u v hjk hu hv => ?_⟩
  · obtain ⟨s, t, -, -, rfl⟩ := (stepEngine_next_iff k y z).1 h
    exact ⟨List.length_set, fun j hj => List.getElem?_set_ne (Ne.symm hj)⟩
  · obtain ⟨sj, tj, hsj, hstepj, rfl⟩ := (stepEngine_next_iff j y u).1 hu
    obtain ⟨sk, tk, hsk, hstepk, rfl⟩ := (stepEngine_next_iff k y v).1 hv
    refine ⟨{ engines := (y.engines.set j tj).set k tk }, ?_, ?_⟩
    · exact (stepEngine_next_iff _ _ _).2
        ⟨sk, tk, by rw [← hsk]; exact List.getElem?_set_ne hjk, hstepk, rfl⟩
    · exact (stepEngine_next_iff _ _ _).2
        ⟨sj, tj, by rw [← hsj]; exact List.getElem?_set_ne (Ne.symm hjk), hstepj,
          by rw [List.set_comm _ _ hjk]⟩

/-! ## The two views of the state (R28, R63, R64) -/

/-- The bits of little-endian bytes put together: bit j is bit j mod 8 of byte j div 8. -/
theorem getLsbD_foldl_bytes (f : Nat → Byte) (n j : Nat) (hj : j < 64) :
    ((List.range n).foldl (fun (v : Lane) i => v ||| ((f i).setWidth 64 <<< (8 * i))) 0).getLsbD j =
      (decide (j < 8 * n) && (f (j / 8)).getLsbD (j % 8)) := by
  induction n with
  | zero => simp
  | succ n ih =>
    rw [List.range_succ, List.foldl_append, List.foldl_cons, List.foldl_nil, BitVec.getLsbD_or, ih,
      BitVec.getLsbD_shiftLeft, BitVec.getLsbD_setWidth]
    obtain hlt | ⟨hge, hin⟩ | hout : j < 8 * n ∨ (8 * n ≤ j ∧ j < 8 * (n + 1)) ∨ 8 * (n + 1) ≤ j := by
      omega
    · simp [hlt, show j < 8 * (n + 1) by omega]
    · obtain ⟨rfl, hm⟩ : n = j / 8 ∧ j % 8 = j - 8 * (j / 8) := by omega
      simp [hj, hin, hm, Nat.not_lt.2 hge, show j - 8 * (j / 8) < 64 by omega]
    · simp [Nat.not_lt.2 hout, show ¬ j < 8 * n by omega,
        BitVec.getLsbD_of_ge (f n) (j - 8 * n) (by omega)]

/-- Bit j of lane k of a state, in the bytes of the state (R28). -/
theorem getLsbD_lanesOfBytes (st : Vector Byte Config.stateBytes) {k j : Nat} (hk : k < 25) (hj : j < 64) :
    ((lanesOfBytes st)[k]?.getD 0).getLsbD j = (st[8 * k + j / 8]?.getD 0).getLsbD (j % 8) := by
  have hlane : (lanesOfBytes st)[k]?.getD 0 = laneOfBytes st k := by simp [lanesOfBytes, hk]
  rw [hlane, laneOfBytes, getLsbD_foldl_bytes (fun i => st.toList.getD (8 * k + i) 0) 8 j hj, toList_getD]
  simp [hj]

/-- Bit b of state byte i of a lane view, in the lanes (R63). -/
theorem getLsbD_bytesOfLanes (a : Lanes) {i b : Nat} (hi : i < Config.stateBytes) (hb : b < 8) :
    ((bytesOfLanes a)[i]?.getD 0).getLsbD b = (a[i / 8]?.getD 0).getLsbD (8 * (i % 8) + b) := by
  have hbyte : (bytesOfLanes a)[i]?.getD 0 = byteOfLane (a[i / 8]?.getD 0) (i % 8) := by
    simp [bytesOfLanes, hi]
  rw [hbyte, byteOfLane, BitVec.getLsbD_setWidth, BitVec.getLsbD_ushiftRight]
  simp [hb]

/-- Vectors of words are equal when they have the same bits. -/
theorem vector_ext_bits {n w : Nat} {u v : Vector (BitVec w) n}
    (h : ∀ i < n, ∀ j < w, (u[i]?.getD 0).getLsbD j = (v[i]?.getD 0).getLsbD j) : u = v := by
  refine Vector.ext fun i hi => BitVec.eq_of_getLsbD_eq fun j hj => ?_
  simpa [hi] using h i hi j hj

theorem bytesOfLanes_lanesOfBytes (st : Vector Byte Config.stateBytes) :
    bytesOfLanes (lanesOfBytes st) = st := by
  refine vector_ext_bits fun i hi b hb => ?_
  have hk : i / 8 < 25 := by simp only [Config.stateBytes] at hi; omega
  rw [getLsbD_bytesOfLanes _ hi hb, getLsbD_lanesOfBytes st hk (by omega),
    show 8 * (i / 8) + (8 * (i % 8) + b) / 8 = i by omega, show (8 * (i % 8) + b) % 8 = b by omega]

theorem lanesOfBytes_bytesOfLanes (a : Lanes) : lanesOfBytes (bytesOfLanes a) = a := by
  refine vector_ext_bits fun k hk j hj => ?_
  have hi : 8 * k + j / 8 < Config.stateBytes := by simp only [Config.stateBytes]; omega
  rw [getLsbD_lanesOfBytes _ hk hj, getLsbD_bytesOfLanes a hi (Nat.mod_lt _ (by decide)),
    show (8 * k + j / 8) / 8 = k by omega, show 8 * ((8 * k + j / 8) % 8) + j % 8 = j by omega]

/-- Settles O11: each view gives the bits of the other, so the two maps are inverse. -/
theorem lanesAreAViewOfTheBytes : Obligations.LanesAreAViewOfTheBytes :=
  ⟨fun st _ _ hk hj => getLsbD_lanesOfBytes st hk hj, bytesOfLanes_lanesOfBytes, lanesOfBytes_bytesOfLanes⟩

end Sys2Proof.Machine
end

section
/-! PROOFS. The byte transport: a word from its bytes, the parser on the first 8 bytes, and the layout of a
command. -/

namespace Sys2Proof

open Sys2Proof.Machine

/-! ## A word and its bytes (R66) -/

/-- Neighbouring fields of a word join to one field, so its four bytes join to the whole word. -/
theorem wordOfBytes_extract (w : Word) :
    wordOfBytes (w.extractLsb' 0 8) (w.extractLsb' 8 8) (w.extractLsb' 16 8) (w.extractLsb' 24 8) = w := by
  unfold wordOfBytes
  rw [BitVec.extractLsb'_append_extractLsb'_eq_extractLsb' (by decide),
    BitVec.extractLsb'_append_extractLsb'_eq_extractLsb' (by decide),
    BitVec.extractLsb'_append_extractLsb'_eq_extractLsb' (by decide)]
  exact BitVec.extractLsb'_eq_self

@[simp] theorem length_wordBytes (w : Word) : (wordBytes w).length = 4 := rfl

/-- Byte k of a word is its bits from 8k up (R66). -/
theorem getElem?_wordBytes (w : Word) {k : Nat} (hk : k < 4) :
    (wordBytes w)[k]? = some (w.extractLsb' (8 * k) 8) := by
  interval_cases k <;> rfl

/-! ## The parser and the layout (R107) -/

/-- The first 8 bytes give the parser both words; it then takes the data-in they announce, if the stream
holds that many bytes. -/
theorem parseCommand_wordBytes (cmdw len : Word) (tail : List Byte) :
    parseCommand (wordBytes cmdw ++ wordBytes len ++ tail) =
      let n := if takesData cmdw then len.toNat else 0
      if n ≤ tail.length then some ({ cmdw := cmdw, len := len, data := tail.take n }, tail.drop n)
      else none := by
  simp only [wordBytes, List.cons_append, List.nil_append, parseCommand, wordOfBytes_extract]

/-- The length of DATA in a command (R90). -/
theorem length_data_of_framed {c : Command} (h : framed c = true) :
    c.data.length = if takesData c.cmdw then c.len.toNat else 0 := by
  simpa only [framed, beq_iff_eq] using h

/-- The parser inverts the layout, whatever follows the command. -/
theorem parseCommand_commandBytes_append {c : Command} (h : framed c = true) (rest : List Byte) :
    parseCommand (commandBytes c ++ rest) = some (c, rest) := by
  rw [commandBytes, List.append_assoc, parseCommand_wordBytes, ← length_data_of_framed h]
  simp

theorem length_commandBytes (c : Command) : (commandBytes c).length = 8 + c.data.length := by
  rw [commandBytes, List.length_append, List.length_append, length_wordBytes, length_wordBytes]

/-- CMDW lies in bytes 0 to 3 of a command. -/
theorem getElem?_commandBytes_cmdw (c : Command) {k : Nat} (hk : k < 4) :
    (commandBytes c)[k]? = some (c.cmdw.extractLsb' (8 * k) 8) := by
  rw [commandBytes, List.append_assoc, List.getElem?_append_left hk, getElem?_wordBytes _ hk]

/-- LEN lies in bytes 4 to 7 of a command. -/
theorem getElem?_commandBytes_len (c : Command) {k : Nat} (hk : k < 4) :
    (commandBytes c)[4 + k]? = some (c.len.extractLsb' (8 * k) 8) := by
  rw [commandBytes, List.append_assoc, List.getElem?_append_right (by simp), length_wordBytes,
    Nat.add_sub_cancel_left, List.getElem?_append_left hk, getElem?_wordBytes _ hk]

/-- Settles O5: a word is the join of its bytes, so the parser reads back both words and with them the length
of DATA, which framing makes the length laid out. -/
theorem byteTransportRoundTrip : Obligations.ByteTransportRoundTrip := by
  intro c rest h
  refine ⟨parseCommand_commandBytes_append h rest, ?_, fun k hk => ?_⟩
  · rw [length_commandBytes, length_data_of_framed h]
  · exact ⟨getElem?_commandBytes_cmdw c hk, getElem?_commandBytes_len c hk⟩

end Sys2Proof
end

section
/-! PROOFS. The decoder against the encoder and the opcode table: a command that decodes is an encoding, a word
that a row of the table matches is the word of an instruction of that row, and the disassembly of a word. -/

namespace Sys2Proof

open Sys2Proof.Machine

/-- Settles O2: the encoding is framed, and its word names the instruction. -/
theorem decodeOfEncode : Obligations.DecodeOfEncode := fun _ h => decode_encode h

/-! ## A framed command with the word and the operand of an instruction is its encoding (R90, R101) -/

/-- The command word alone does not bound DATA: an instruction is well-formed when its data-in fits LEN. -/
theorem wellFormed_eq_fitsLen (i : Instr) : i.wellFormed = fitsLen (dataIn i) := by
  cases i <;> rfl

/-- An instruction with data-in is sent with the length of that data. -/
theorem encodeLen_of_takesData {i : Instr} (h : takesData (encodeWord i) = true) :
    encodeLen i = BitVec.ofNat 32 (dataIn i).length := by
  rw [takesData_encodeWord] at h
  cases i <;> simp [encodeLen, dataIn] at h ⊢

/-- An instruction without data-in sends none. -/
theorem dataIn_of_not_takesData {i : Instr} (h : takesData (encodeWord i) = false) : dataIn i = [] := by
  rw [takesData_encodeWord] at h
  cases i <;> simp [dataIn] at h ⊢

/-- For an instruction with data-in, framing makes LEN the length of DATA. -/
theorem encode_eq_of_data {c : Command} {i : Instr} (hf : framed c = true) (hw : encodeWord i = c.cmdw)
    (ht : takesData (encodeWord i) = true) (hdata : dataIn i = c.data) : encode i = c := by
  have hlen : c.data.length = c.len.toNat := by simpa [framed, ← hw, ht] using hf
  rw [encode, encodeLen_of_takesData ht, hw, hdata, hlen, BitVec.ofNat_toNat, BitVec.setWidth_eq]

/-- For an instruction without data-in, framing makes DATA empty. -/
theorem encode_eq_of_len {c : Command} {i : Instr} (hf : framed c = true) (hw : encodeWord i = c.cmdw)
    (ht : takesData (encodeWord i) = false) (hlen : encodeLen i = c.len) : encode i = c := by
  have hdata : c.data = [] := by simpa [framed, ← hw, ht] using hf
  rw [encode, dataIn_of_not_takesData ht, hw, hlen, ← hdata]

/-- A framed command that is the encoding of an instruction decodes to it. -/
theorem decode_of_encode_eq {c : Command} {i : Instr} (hf : framed c = true) (h : encode i = c) :
    decode c = .ok i :=
  (decode_ok_iff c i).2 ⟨hf, h ▸ decodeWord_encode i⟩

/-- Data-in that a framed command carries fits LEN. -/
theorem wellFormed_of_framed_encode {i : Instr} (h : framed (encode i) = true) : i.wellFormed = true := by
  rw [wellFormed_eq_fitsLen, fitsLen, decide_eq_true_eq]
  cases ht : takesData (encodeWord i) with
  | true =>
    have hlen : (dataIn i).length = (encodeLen i).toNat := by simpa [framed, encode, ht] using h
    exact hlen ▸ (encodeLen i).isLt
  | false => simp [dataIn_of_not_takesData ht]

/-- Settles O1: each command is the encoding of its instruction. -/
theorem specWordsDecode : Obligations.SpecWordsDecode := by
  refine ⟨?_, ?_, ?_, ?_, ?_, ?_, ?_, ?_, ?_, ?_, ?_, ?_, ?_, ?_⟩
  all_goals exact decode_of_encode_eq rfl rfl

/-! ## A command that decodes is an encoding -/

/-- A command word is determined by its fields (R91). -/
theorem word_ext {v w : Word} (harg : wordArg v = wordArg w) (hcmd : wordCmd v = wordCmd w)
    (hrsv : wordRsv v = wordRsv w) (hlow : wordLow v = wordLow w) : v = w := by
  rw [word_eq_fields v, word_eq_fields w, harg, hcmd, hrsv, hlow]

/-- CMDW[9:0] is FLAGS, MORE and SRC (R91). -/
theorem wordLow_eq_wordLow_opWord (w : Word) :
    wordLow w = wordLow (opWord (wordFlags w) (wordMore w) (wordSrc w)) := by
  unfold wordLow opWord wordMore wordSrc wordFlags
  ext k hk
  cases h8 : w.getLsbD 8 <;> cases h9 : w.getLsbD 9 <;> interval_cases k <;> simp_all

/-- A word with CMD, RSV and ARG zero is an operation word (R96). -/
theorem eq_opWord {w : Word} (harg : wordArg w = 0) (hcmd : wordCmd w = 0) (hrsv : wordRsv w = 0) :
    w = opWord (wordFlags w) (wordMore w) (wordSrc w) :=
  word_ext (by simp [harg]) (by simp [hcmd]) (by simp [hrsv]) (wordLow_eq_wordLow_opWord w)

/-- A word with the fields of an INIT is the INIT word of its ARG (R98). -/
theorem eq_initWord {w : Word} (hcmd : wordCmd w = 1) (hrsv : wordRsv w = 0) (hlow : wordLow w = 0) :
    w = initWord (wordArg w) :=
  word_ext (by simp) (by simp [hcmd]) (by simp [hrsv]) (by simp [hlow])

/-- An operation word that decodes has ARG zero and names its row (R96, R98). -/
theorem decodeOp_ok {c : Command} {i : Instr} (h : decodeOp c = .ok i) :
    wordArg c.cmdw = 0 ∧
      decodeRow (wordFlags c.cmdw) (wordSrc c.cmdw) (wordMore c.cmdw) c = .ok i := by
  unfold decodeOp at h
  split_ifs at h with harg
  exact ⟨not_not.1 harg, h⟩

/-- The low half of an INIT word, whatever its level (R98). -/
theorem initWord_low_half (level : BitVec 16) : initWord level &&& 0xFFFF = 0x1000 := by
  rw [word_low_half, wordCmd_init, wordRsv_init, wordLow_init]
  rfl

/-- A row of R96 gives back the flag word, SRC and MORE it was found by, and takes its operand from the
command. -/
theorem encode_of_decodeRow {flags : Byte} {src more : Bool} {c : Command} {i : Instr}
    (hf : framed c = true) (hw : c.cmdw = opWord flags more src)
    (h : decodeRow flags src more c = .ok i) : encode i = c := by
  simp only [decodeRow] at h
  generalize hasFlag flags flagM = m at h
  split_ifs at h with hsrc hrow hrow hrow hmore hrow hrow hrow hrow hrow hrow hrow
  all_goals cases h
  · exact encode_eq_of_len hf (by simp [hw, hsrc, encodeWord, hrow]) (takesData_encodeWord (.prf _ _)) rfl
  · exact encode_eq_of_len hf (by simp [hw, hsrc, encodeWord, hrow])
      (takesData_encodeWord (.sendMac _ _ _)) rfl
  · exact encode_eq_of_len hf (by simp [hw, hsrc, encodeWord, hrow, hmore])
      (takesData_encodeWord (.ratchet _ _)) rfl
  all_goals exact encode_eq_of_data hf (by simp [hw, hsrc, encodeWord, hrow]) (takesData_encodeWord _) rfl

/-- A command that decodes is the encoding of what it decodes to: the control words by their fields, an
operation word by its row. -/
theorem encode_of_decode {c : Command} {i : Instr} (h : decode c = .ok i) : encode i = c := by
  obtain ⟨hf, hword⟩ := (decode_ok_iff c i).1 h
  obtain ⟨hrsv, ⟨hcmd, hlow, rfl⟩ | ⟨hcmd, hlow, harg, hlen, rfl⟩ | ⟨hcmd, hlow, harg, rfl⟩ | ⟨hcmd, hop⟩⟩ :=
    decodeWord_ok_cases hword
  · exact encode_eq_of_data hf (eq_initWord hcmd hrsv hlow).symm (takesData_encodeWord _) rfl
  · exact encode_eq_of_len hf (word_ext harg.symm hcmd.symm hrsv.symm hlow.symm)
      (takesData_encodeWord .save) hlen.symm
  · exact encode_eq_of_data hf (cmdw_of_decode_load h).symm (takesData_encodeWord _) rfl
  · obtain ⟨harg, hrow⟩ := decodeOp_ok hop
    exact encode_of_decodeRow hf (eq_opWord harg hcmd hrsv) hrow

/-- Settles O3: the instruction's encoding is the command, which is framed, so its data fits LEN. -/
theorem encodeOfDecode : Obligations.EncodeOfDecode := by
  intro c i h
  obtain ⟨hf, -⟩ := (decode_ok_iff c i).1 h
  have he : encode i = c := encode_of_decode h
  exact ⟨he, wellFormed_of_framed_encode (he ▸ hf)⟩

/-! ## The operands of an instruction -/

/-- The instruction with the operands of a command: its DATA, or its LEN. A command word does not hold them, so
this changes nothing that the word says (R91). -/
def Instr.withOperands (c : Command) : Instr → Instr
  | .ad m more _ => .ad m more c.data
  | .key more _ => .key more c.data
  | .prf more _ => .prf more c.len
  | .sendClr m more _ => .sendClr m more c.data
  | .recvClr m more _ => .recvClr m more c.data
  | .sendEnc m more _ => .sendEnc m more c.data
  | .recvEnc m more _ => .recvEnc m more c.data
  | .sendMac m more _ => .sendMac m more c.len
  | .recvMac m more _ => .recvMac m more c.data
  | .ratchet m _ => .ratchet m c.len
  | .init level _ => .init level c.data
  | .save => .save
  | .load _ => .load c.data

@[simp] theorem encodeWord_withOperands (c : Command) (i : Instr) :
    encodeWord (i.withOperands c) = encodeWord i := by cases i <;> rfl

@[simp] theorem mnemonic_withOperands (c : Command) (i : Instr) :
    mnemonic (i.withOperands c) = mnemonic i := by cases i <;> rfl

@[simp] theorem syntaxName_withOperands (c : Command) (i : Instr) :
    syntaxName (i.withOperands c) = syntaxName i := by cases i <;> rfl

@[simp] theorem namedButFaults_withOperands (c : Command) (i : Instr) :
    namedButFaults (i.withOperands c) = namedButFaults i := by cases i <;> rfl

theorem dataIn_withOperands {c : Command} {i : Instr} (h : takesData (encodeWord i) = true) :
    dataIn (i.withOperands c) = c.data := by
  rw [takesData_encodeWord] at h
  cases i <;> simp [Instr.withOperands, dataIn] at h ⊢

theorem encodeLen_withOperands {c : Command} {i : Instr} (h : takesData (encodeWord i) = false)
    (hsave : i = .save → c.len = 0) : encodeLen (i.withOperands c) = c.len := by
  rw [takesData_encodeWord] at h
  cases i <;> simp_all [Instr.withOperands, encodeLen]

/-- A framed command with the word of an instruction decodes to that instruction, with the command's operands;
SAVE also asks for LEN = 0 (R98, R313). -/
theorem decode_of_encodeWord {c : Command} {i : Instr} (hf : framed c = true) (hw : encodeWord i = c.cmdw)
    (hsave : i = .save → c.len = 0) : decode c = .ok (i.withOperands c) := by
  have hw' : encodeWord (i.withOperands c) = c.cmdw := by rw [encodeWord_withOperands, hw]
  refine decode_of_encode_eq hf ?_
  cases ht : takesData (encodeWord i) with
  | true => exact encode_eq_of_data hf hw' (by simpa using ht) (dataIn_withOperands ht)
  | false => exact encode_eq_of_len hf hw' (by simpa using ht) (encodeLen_withOperands ht hsave)

/-! ## The opcode table (R96, R98) -/

/-- The word of an instruction matches the row of its mnemonic. -/
theorem exists_row_covers (i : Instr) :
    ∃ r ∈ opcodeTable, r.name = mnemonic i ∧ r.covers (encodeWord i) = true := by
  cases i with
  | ad m more => exact ⟨opcodeTable[0], List.getElem_mem _, rfl, by rw [encodeWord]; decide +revert⟩
  | key more => exact ⟨opcodeTable[1], List.getElem_mem _, rfl, by rw [encodeWord]; decide +revert⟩
  | prf more => exact ⟨opcodeTable[2], List.getElem_mem _, rfl, by rw [encodeWord]; decide +revert⟩
  | sendClr m more => exact ⟨opcodeTable[3], List.getElem_mem _, rfl, by rw [encodeWord]; decide +revert⟩
  | recvClr m more => exact ⟨opcodeTable[4], List.getElem_mem _, rfl, by rw [encodeWord]; decide +revert⟩
  | sendEnc m more => exact ⟨opcodeTable[5], List.getElem_mem _, rfl, by rw [encodeWord]; decide +revert⟩
  | recvEnc m more => exact ⟨opcodeTable[6], List.getElem_mem _, rfl, by rw [encodeWord]; decide +revert⟩
  | sendMac m more => exact ⟨opcodeTable[7], List.getElem_mem _, rfl, by rw [encodeWord]; decide +revert⟩
  | recvMac m more => exact ⟨opcodeTable[8], List.getElem_mem _, rfl, by rw [encodeWord]; decide +revert⟩
  | ratchet m => exact ⟨opcodeTable[9], List.getElem_mem _, rfl, by rw [encodeWord]; decide +revert⟩
  | init level => exact ⟨opcodeTable[10], List.getElem_mem _, rfl, beq_iff_eq.2 (initWord_low_half level)⟩
  | save => exact ⟨opcodeTable[11], List.getElem_mem _, rfl, by decide⟩
  | load => exact ⟨opcodeTable[12], List.getElem_mem _, rfl, by rw [encodeWord]; decide⟩

/-- A word is what a mask keeps and what it drops. -/
theorem eq_masked_or (w mask : Word) : w = w &&& mask ||| w &&& ~~~mask := by
  rw [← BitVec.and_or_distrib_left, BitVec.or_not_self, BitVec.and_allOnes]

/-- M and MORE are bits 4 and 8 of an operation word (R91, R92). -/
theorem opWord_withMeta_eq_or (base : Byte) (m more src : Bool) :
    opWord (withMeta base m) more src =
      opWord base false src ||| ((if m then 0x10 else 0) ||| if more then 0x100 else 0) := by
  have hm : (withMeta base m).setWidth 32 = base.setWidth 32 ||| if m then 0x10 else 0 := by
    cases m
    · simp [withMeta]
    · simp [withMeta, BitVec.setWidth_or, flagM]
  rw [opWord, opWord, hm]
  cases m <;> cases more <;> cases src <;> simp [BitVec.or_assoc]

/-- The mask of an operation's row drops M where the row allows it (`a`) and MORE where the row allows it (`b`),
so a word that matches is the row's word with those two bits of its own. -/
theorem eq_opWord_of_masked {w mask bits : Word} {base : Byte} {src : Bool} (a b : Bool)
    (hdrop : ~~~mask = (if a then 0x10 else 0) ||| if b then 0x100 else 0)
    (hbits : bits = opWord base false src) (h : w &&& mask = bits) :
    opWord (withMeta base (a && w.getLsbD 4)) (b && w.getLsbD 8) src = w := by
  have hM : (w &&& if a then 0x10 else 0) = if a && w.getLsbD 4 then 0x10 else 0 := by
    cases a
    · simp
    · exact BitVec.and_twoPow w 4
  have hMore : (w &&& if b then 0x100 else 0) = if b && w.getLsbD 8 then 0x100 else 0 := by
    cases b
    · simp
    · exact BitVec.and_twoPow w 8
  rw [opWord_withMeta_eq_or, ← hM, ← hMore, ← BitVec.and_or_distrib_left, ← hdrop, ← hbits, ← h]
  exact (eq_masked_or w mask).symm

/-- The mask of INIT's row drops ARG (R98). -/
theorem and_not_low_half (w : Word) : w &&& ~~~(0xFFFF : Word) = (wordArg w).setWidth 32 <<< 16 := by
  unfold wordArg
  ext k hk
  interval_cases k <;> simp

/-- A word that matches the row of INIT is the INIT word of its ARG. -/
theorem eq_initWord_of_masked {w : Word} (h : w &&& 0xFFFF = 0x1000) : initWord (wordArg w) = w := by
  show (0x1000 : Word) ||| (wordArg w).setWidth 32 <<< 16 = w
  rw [← h, ← and_not_low_half]
  exact (eq_masked_or w 0xFFFF).symm

/-- A word that matches a row is the word of an instruction with the row's mnemonic. -/
theorem exists_instr_of_covers {r : OpcodeRow} (hr : r ∈ opcodeTable) {w : Word} (h : r.covers w = true) :
    ∃ i, encodeWord i = w ∧ mnemonic i = r.name := by
  have h : w &&& r.mask = r.bits := beq_iff_eq.1 h
  simp only [opcodeTable, List.cons_append, List.nil_append, List.mem_cons, List.not_mem_nil, or_false] at hr
  obtain rfl | rfl | rfl | rfl | rfl | rfl | rfl | rfl | rfl | rfl | rfl | rfl | rfl := hr
  · exact ⟨.ad _ _ [], eq_opWord_of_masked true true (by decide) (by decide) h, rfl⟩
  · exact ⟨.key _ [], eq_opWord_of_masked false true (by decide) (by decide) h, rfl⟩
  · exact ⟨.prf _ 0, eq_opWord_of_masked false true (by decide) (by decide) h, rfl⟩
  · exact ⟨.sendClr _ _ [], eq_opWord_of_masked true true (by decide) (by decide) h, rfl⟩
  · exact ⟨.recvClr _ _ [], eq_opWord_of_masked true true (by decide) (by decide) h, rfl⟩
  · exact ⟨.sendEnc _ _ [], eq_opWord_of_masked true true (by decide) (by decide) h, rfl⟩
  · exact ⟨.recvEnc _ _ [], eq_opWord_of_masked true true (by decide) (by decide) h, rfl⟩
  · exact ⟨.sendMac _ _ 0, eq_opWord_of_masked true true (by decide) (by decide) h, rfl⟩
  · exact ⟨.recvMac _ _ [], eq_opWord_of_masked true true (by decide) (by decide) h, rfl⟩
  · exact ⟨.ratchet _ 0, eq_opWord_of_masked true false (by decide) (by decide) h, rfl⟩
  · exact ⟨.init (wordArg w) [], eq_initWord_of_masked h, rfl⟩
  · exact ⟨.save, h.symm.trans BitVec.and_allOnes, rfl⟩
  · exact ⟨.load [], h.symm.trans BitVec.and_allOnes, rfl⟩

/-- Settles O4: a matching word is the word of an instruction of the row, and conversely. -/
theorem decoderFollowsOpcodeTable : Obligations.DecoderFollowsOpcodeTable := by
  refine ⟨fun r hr c hf hcov hsave => ?_, fun c i h => ?_⟩
  · obtain ⟨i, hw, hname⟩ := exists_instr_of_covers hr hcov
    have hlen : i = .save → c.len = 0 := fun hi => hsave (by rw [← hname, hi]; rfl)
    exact ⟨i.withOperands c, decode_of_encodeWord hf hw hlen, by rw [mnemonic_withOperands, hname]⟩
  · rw [← encode_of_decode h]
    exact exists_row_covers i

/-! ## Disassembly (R110) -/

/-- A word alone is decoded with no DATA and LEN = 0, which is framed for every word (R110). -/
theorem framed_word (w : Word) : framed ⟨w, 0, []⟩ = true := by simp [framed]

/-- The word of an instruction is written by its name, or raw for RECV_MAC with MORE. -/
theorem disassemble_encodeWord (i : Instr) :
    disassemble (encodeWord i) =
      if namedButFaults i then ".word 0x" ++ String.ofList (hexWord (encodeWord i)) else syntaxName i := by
  have hd : decode ⟨encodeWord i, 0, []⟩ = .ok (i.withOperands ⟨encodeWord i, 0, []⟩) :=
    decode_of_encodeWord (framed_word _) rfl fun _ => rfl
  rw [disassemble, ((decode_ok_iff _ _).1 hd).2]
  simp

/-- Settles O6: the word of an instruction decodes to it, and a word that decodes to some instruction matches a
row. -/
theorem disassemblyNamesTheRow : Obligations.DisassemblyNamesTheRow := by
  refine ⟨fun i hi => by simp [disassemble_encodeWord, hi],
    fun m data => by simp [disassemble_encodeWord, namedButFaults], fun w hw => ?_⟩
  unfold disassemble
  split
  · next i hi =>
    obtain ⟨r, hr, -, hcov⟩ :=
      decoderFollowsOpcodeTable.2 _ i ((decode_ok_iff _ _).2 ⟨framed_word w, hi⟩)
    exact absurd hcov (by simp [hw r hr])
  · rfl

end Sys2Proof
end

section
/-! PROOFS. What a command answers: M in a flag word, that every event completes, and the outcome of a command
with the status word it is reported in. -/

namespace Sys2Proof.Machine

/-! ## M in a flag word (R93) -/

/-- A mask without M does not see M. -/
theorem or_meta_and (f : Byte) {mask : Byte} (h : 0x10 &&& mask = 0) : (f ||| 0x10) &&& mask = f &&& mask := by
  rw [BitVec.and_or_distrib_right, h]
  exact BitVec.or_zero

theorem hasFlag_or_meta (f : Byte) {bit : Byte} (h : 0x10 &&& bit = 0) :
    hasFlag (f ||| 0x10) bit = hasFlag f bit := by
  rw [hasFlag, hasFlag, or_meta_and f h]

theorem phaseAfter_or_meta (f : Byte) : phaseAfter (f ||| 0x10) = phaseAfter f := by
  rw [phaseAfter, phaseAfter, or_meta_and f (by decide)]

theorem phaseBefore_or_meta (f : Byte) : phaseBefore (f ||| 0x10) = phaseBefore f := by
  rw [phaseBefore, phaseBefore, hasFlag_or_meta f (by decide), phaseAfter_or_meta]

theorem resultClass_or_meta (f : Byte) : resultClass (f ||| 0x10) = resultClass f := by
  unfold resultClass
  rw [or_meta_and f (by decide), or_meta_and f (by decide), or_meta_and f (by decide)]

theorem bindRole_or_meta (f : Byte) (r : Role) : bindRole (f ||| 0x10) r = bindRole f r := by
  unfold bindRole
  rw [hasFlag_or_meta f (by decide), hasFlag_or_meta f (by decide)]

theorem outputForbidden_or_meta (f : Byte) : outputForbidden (f ||| 0x10) = outputForbidden f := by
  unfold outputForbidden
  rw [or_meta_and f (by decide), or_meta_and f (by decide)]

theorem reservedSet_or_meta (f : Byte) : reservedSet (f ||| 0x10) = reservedSet f := by
  rw [reservedSet, reservedSet, or_meta_and f (by decide)]

/-- The role mask inverts I and so keeps M (R183). -/
theorem framingFlags_or_meta (f : Byte) (r : Role) :
    framingFlags (f ||| 0x10) r = framingFlags f r ||| 0x10 := by
  have hflip : (f ||| 0x10) ^^^ flagI = (f ^^^ flagI) ||| 0x10 := by decide +revert
  unfold framingFlags
  rw [hasFlag_or_meta f (by decide), hflip]
  split <;> rfl

/-- Settles O7: no check that the rules make on a flag word looks at M, and the framing byte keeps it. -/
theorem metaChangesOnlyTheFlagByte : Obligations.MetaChangesOnlyTheFlagByte := fun f r _ =>
  ⟨phaseBefore_or_meta f, phaseAfter_or_meta f, resultClass_or_meta f, hasFlag_or_meta f (by decide),
    bindRole_or_meta f r, outputForbidden_or_meta f, reservedSet_or_meta f, framingFlags_or_meta f r⟩

/-! ## Every event completes -/

/-- The checks of R313 answer by themselves outside READY, so a body that completes in READY is enough. -/
theorem checkedOp_completes (f : Byte) (more : Bool) {s : State} {body : Host.Outcome State Fault Refusal}
    (h : s.estate = .ready → ∃ t, body = .next t) : ∃ t, checkedOp f more s body = .next t := by
  unfold checkedOp
  split
  · exact ⟨_, rfl⟩
  · exact ⟨_, rfl⟩
  · next he =>
    split
    · exact ⟨_, rfl⟩
    · exact h he

/-- A READY engine that meets the invariant forms no index outside the state (R61). -/
theorem State.Inv.runOperate_completes {s : State} (h : s.Inv) (f : Byte) (buf : List Byte) (more : Bool)
    (he : s.estate = .ready) : ∃ t, runOperate f buf more s = .next t :=
  ⟨_, runOperate_inRange f buf more (h.1 he).inRange⟩

theorem State.Inv.operation_completes {s : State} (h : s.Inv) (f : Byte) (more : Bool) (buf : List Byte) :
    ∃ t, operation f more buf s = .next t :=
  checkedOp_completes f more (h.runOperate_completes f buf more)

theorem State.Inv.execRecvMac_completes {s : State} (h : s.Inv) (m more : Bool) (data : List Byte) :
    ∃ t, execRecvMac m more data s = .next t := by
  refine checkedOp_completes _ _ fun he => ?_
  cases more with
  | true => exact ⟨_, rfl⟩
  | false => exact h.runOperate_completes _ data false he

theorem execInit_completes (level : BitVec 16) (proto : List Byte) (s : State) :
    ∃ t, execInit level proto s = .next t := by
  unfold execInit
  split <;> exact ⟨_, rfl⟩

theorem execSave_completes (s : State) : ∃ t, execSave s = .next t := by
  unfold execSave
  split <;> exact ⟨_, rfl⟩

theorem execLoad_completes (img : List Byte) (s : State) : ∃ t, execLoad img s = .next t := by
  unfold execLoad
  split
  · exact ⟨_, rfl⟩
  all_goals split <;> exact ⟨_, rfl⟩

/-- Every instruction completes from a state that meets the invariant (R325). -/
theorem State.Inv.exec_completes {s : State} (h : s.Inv) (i : Instr) : ∃ t, exec i s = .next t := by
  cases i with
  | ad m more data => exact h.operation_completes _ more data
  | key more data => exact h.operation_completes _ more data
  | prf more len => exact h.operation_completes _ more _
  | sendClr m more data => exact h.operation_completes _ more data
  | recvClr m more data => exact h.operation_completes _ more data
  | sendEnc m more data => exact h.operation_completes _ more data
  | recvEnc m more data => exact h.operation_completes _ more data
  | sendMac m more len => exact h.operation_completes _ more _
  | recvMac m more data => exact h.execRecvMac_completes m more data
  | ratchet m len => exact h.operation_completes _ false _
  | init level proto => exact execInit_completes level proto s
  | save => exact execSave_completes s
  | load img => exact execLoad_completes img s

/-- A framed command is an instruction or an illegal word, and each answers with a next state. -/
theorem State.Inv.stepCommand_completes {s : State} (h : s.Inv) {c : Command} (hf : framed c = true) :
    ∃ t, stepCommand c s = .next t := by
  unfold stepCommand
  split
  · next i _ => exact h.exec_completes i
  · exact ⟨_, rfl⟩
  · next hm => simp [(decode_misframed_iff c).1 hm] at hf

/-- An illegal word does not touch the commands still issued. -/
theorem rejectIllegal_inbox (why : IllegalWord) (s : State) : (rejectIllegal why s).inbox = s.inbox := by
  obtain ⟨-, h⟩ | ⟨-, -, h⟩ | ⟨-, -, h⟩ := rejectIllegal_cases why s <;> rw [h] <;> rfl

/-- A step takes exactly the oldest event out of the inbox. -/
theorem step_inbox {s t : State} {e : HostEvent} {rest : List HostEvent} (hi : s.inbox = e :: rest)
    (h : step s = .next t) : t.inbox = rest := by
  obtain ⟨_, _, hi', -, rfl⟩ | ⟨_, _, why, hi', -, rfl⟩ | ⟨_, _, i, hi', -, he⟩ := step_next h <;>
    obtain ⟨-, rfl⟩ := List.cons.inj (hi.symm.trans hi')
  · rfl
  · exact rejectIllegal_inbox why _
  · exact (exec_effect he).inbox

/-- Settles O47: a reset always answers, and a framed command does by the invariant, which the inbox is no part
of. -/
theorem everyCommandCompletes : Obligations.EveryCommandCompletes := by
  intro s e rest hs hi hframed
  have hnext : ∃ t, step s = .next t := by
    cases e with
    | command c =>
      rw [step_command hi]
      exact State.Inv.stepCommand_completes (s := { s with inbox := rest }) hs (hframed c rfl)
    | reset => exact ⟨_, step_isReset hi rfl⟩
    | resetDuring c => exact ⟨_, step_isReset hi rfl⟩
  obtain ⟨t, h⟩ := hnext
  exact ⟨t, h, step_inbox hi h⟩

/-! ## The status word (R104) -/

@[simp] theorem statusWord_result (r : Result) (f : FaultCode) (e : EngineStatus) :
    (statusWord r f e).extractLsb' 0 8 = resultByte r := by
  unfold statusWord
  ext k hk
  interval_cases k <;> simp

@[simp] theorem statusWord_fcode (r : Result) (f : FaultCode) (e : EngineStatus) :
    (statusWord r f e).extractLsb' 8 8 = faultByte f := by
  unfold statusWord
  ext k hk
  interval_cases k <;> simp

@[simp] theorem statusWord_estate (r : Result) (f : FaultCode) (e : EngineStatus) :
    (statusWord r f e).extractLsb' 16 2 = statusBits e := by
  unfold statusWord
  ext k hk
  interval_cases k <;> simp

@[simp] theorem statusWord_reserved (r : Result) (f : FaultCode) (e : EngineStatus) :
    (statusWord r f e).extractLsb' 18 14 = 0 := by
  unfold statusWord
  ext k hk
  interval_cases k <;> simp

/-! ## The outcome of a command (R300) -/

/-- What the command word `w` can do to the state, by the kinds of R300. -/
inductive CommandOutcome (w : Word) (s : State) : State → Prop
  /-- The refusal in FAULTED (R315). -/
  | refused (he : s.estate = .faulted) : CommandOutcome w s (refuseFaulted s)
  /-- A fault (R309). -/
  | faulted (code : FaultCode) (he : s.estate ≠ .faulted) (hc : code.Raisable) :
      CommandOutcome w s (raiseFault code s)
  /-- A user-visible error that leaves everything as it was (R302, R311). -/
  | rejected (r : Result) (hr : r = .invalidSecurityLevel ∨ r = .invalidImage) :
      CommandOutcome w s (respond r [] s)
  /-- AUTH_FAILED, which RECV_MAC without MORE answers (R188). -/
  | authFailed (ctx : Context) (he : s.estate = .ready) (hw : w &&& 0xFFFFFFEF = 0x0D) :
      CommandOutcome w s (respond .authFailed [] { s with ctx := ctx })
  /-- Success of a command other than INIT. -/
  | ok (ctx : Context) (out : List Byte) (hw : w &&& 0xFFFF ≠ 0x1000) :
      CommandOutcome w s (respond .ok out { s with ctx := ctx, estate := .ready })
  /-- Success of INIT (R266). -/
  | init (ctx : Context) (hw : w &&& 0xFFFF = 0x1000) :
      CommandOutcome w s (respond .ok [] (becomeReady ctx s))

/-- An operation or SAVE that succeeds finds the engine READY and leaves it so. -/
theorem CommandOutcome.ok_of_ready {w : Word} {s : State} (he : s.estate = .ready) (ctx : Context)
    (out : List Byte) (hw : w &&& 0xFFFF ≠ 0x1000) :
    CommandOutcome w s (respond .ok out { s with ctx := ctx }) := by
  have h := CommandOutcome.ok (s := s) ctx out hw
  rwa [← he] at h

/-- No operation word looks like INIT in its low half: CMD differs. -/
theorem opWord_low_half_ne (f : Byte) (more src : Bool) : opWord f more src &&& 0xFFFF ≠ 0x1000 := by
  intro h
  have := congrArg wordCmd (eq_initWord_of_masked h)
  simp at this

/-- `operate` in READY succeeds, or fails a verification, which only the class VERIFY makes (R187, R188). -/
theorem runOperate_outcome {w : Word} {f : Byte} {buf : List Byte} {more : Bool} {s t : State}
    (he : s.estate = .ready) (hinit : w &&& 0xFFFF ≠ 0x1000)
    (hverify : resultClass f = .verify → w &&& 0xFFFFFFEF = 0x0D) (h : runOperate f buf more s = .next t) :
    CommandOutcome w s t := by
  obtain ⟨-, rfl⟩ := runOperate_next h
  generalize operateOutput f buf more s.ctx = processed
  generalize operateContext f buf more s.ctx = ctx
  cases hc : resultClass f with
  | payload => simpa [operateResult, operatePayload, hc] using .ok_of_ready he ctx processed hinit
  | noPayload => simpa [operateResult, operatePayload, hc] using .ok_of_ready he ctx [] hinit
  | verify =>
    simp only [operateResult, operatePayload, hc]
    split
    · exact .authFailed ctx he (hverify hc)
    · exact .ok_of_ready he ctx [] hinit

/-- Before its body, an operation is refused or faults. -/
theorem checkedOp_outcome {w : Word} {f : Byte} {more : Bool} {s t : State}
    {body : Host.Outcome State Fault Refusal} (h : checkedOp f more s body = .next t)
    (hbody : s.estate = .ready → body = .next t → CommandOutcome w s t) : CommandOutcome w s t := by
  obtain ⟨he, rfl⟩ | ⟨he, rfl⟩ | ⟨he, -, -, rfl⟩ | ⟨he, -, hb⟩ := checkedOp_next h
  · exact .refused he
  · exact .faulted _ (by simp [he]) (by decide)
  · exact .faulted _ (by simp [he]) (by decide)
  · exact hbody he hb

/-- An operation outside the class VERIFY never answers AUTH_FAILED. -/
theorem operation_outcome {f : Byte} {more src : Bool} {buf : List Byte} {s t : State}
    (hclass : resultClass f ≠ .verify) (h : operation f more buf s = .next t) :
    CommandOutcome (opWord f more src) s t :=
  checkedOp_outcome h fun he hb =>
    runOperate_outcome he (opWord_low_half_ne f more src) (fun hv => absurd hv hclass) hb

/-- M does not make an operation one of class VERIFY (R93, R187). -/
theorem resultClass_withMeta (base : Byte) (m : Bool) : resultClass (withMeta base m) = resultClass base := by
  cases m with
  | false => rfl
  | true => exact resultClass_or_meta base

theorem operation_withMeta_outcome {base : Byte} {m more src : Bool} {buf : List Byte} {s t : State}
    (hclass : resultClass base ≠ .verify) (h : operation (withMeta base m) more buf s = .next t) :
    CommandOutcome (opWord (withMeta base m) more src) s t :=
  operation_outcome (resultClass_withMeta base m ▸ hclass) h

theorem execRecvMac_outcome {m more : Bool} {data : List Byte} {s t : State}
    (h : execRecvMac m more data s = .next t) : CommandOutcome (encodeWord (.recvMac m more data)) s t := by
  refine checkedOp_outcome h fun he hb => ?_
  cases more with
  | true =>
    obtain rfl : raiseFault .macStreaming s = t := by simpa using hb
    exact .faulted _ (by simp [he]) (by decide)
  | false =>
    have hw : opWord (withMeta flagsRecvMac m) false false &&& 0xFFFFFFEF = 0x0D := by
      cases m <;> decide
    exact runOperate_outcome he (opWord_low_half_ne _ _ _) (fun _ => hw) hb

theorem execInit_outcome {level : BitVec 16} {proto : List Byte} {s t : State}
    (h : execInit level proto s = .next t) : CommandOutcome (encodeWord (.init level proto)) s t := by
  obtain ⟨-, rfl⟩ | ⟨-, rfl⟩ := execInit_next h
  · exact .init _ (initWord_low_half level)
  · exact .rejected _ (.inl rfl)

theorem execSave_outcome {s t : State} (h : execSave s = .next t) : CommandOutcome (encodeWord .save) s t := by
  obtain ⟨he, rfl⟩ | ⟨he, rfl⟩ | ⟨he, rfl⟩ := execSave_next h
  · exact .refused he
  · exact .faulted _ (by simp [he]) (by decide)
  · exact .ok_of_ready he s.ctx (imageOf s.ctx) (by decide)

theorem execLoad_outcome {img : List Byte} {s t : State} (h : execLoad img s = .next t) :
    CommandOutcome (encodeWord (.load img)) s t := by
  obtain ⟨he, rfl⟩ | ⟨-, -, rfl⟩ | ⟨-, -, rfl⟩ := execLoad_next h
  · exact .refused he
  · exact .ok _ _ (by rw [encodeWord]; decide)
  · exact .rejected _ (.inr rfl)

/-- Every instruction has an outcome of R300, by its word. -/
theorem exec_outcome {i : Instr} {s t : State} (h : exec i s = .next t) :
    CommandOutcome (encodeWord i) s t := by
  cases i with
  | ad m more data => exact operation_withMeta_outcome (by decide) h
  | key more data => exact operation_outcome (by decide) h
  | prf more len => exact operation_outcome (by decide) h
  | sendClr m more data => exact operation_withMeta_outcome (by decide) h
  | recvClr m more data => exact operation_withMeta_outcome (by decide) h
  | sendEnc m more data => exact operation_withMeta_outcome (by decide) h
  | recvEnc m more data => exact operation_withMeta_outcome (by decide) h
  | sendMac m more len => exact operation_withMeta_outcome (by decide) h
  | recvMac m more data => exact execRecvMac_outcome h
  | ratchet m len => exact operation_withMeta_outcome (by decide) h
  | init level proto => exact execInit_outcome h
  | save => exact execSave_outcome h
  | load img => exact execLoad_outcome h

/-- An illegal word is refused or faults (R313). -/
theorem rejectIllegal_outcome (w : Word) (why : IllegalWord) (s : State) :
    CommandOutcome w s (rejectIllegal why s) := by
  obtain ⟨he, h⟩ | ⟨he, -, h⟩ | ⟨he, -, h⟩ := rejectIllegal_cases why s <;> rw [h]
  · exact .refused he
  · exact .faulted _ (by simp [he]) (by decide)
  · exact .faulted _ he (illegalCode_raisable why)

/-- Every command has an outcome of R300, by its word: an instruction's word is the command's own. -/
theorem stepCommand_outcome {c : Command} {s t : State} (h : stepCommand c s = .next t) :
    CommandOutcome c.cmdw s t := by
  unfold stepCommand at h
  split at h
  · next i hd =>
    rw [← encode_of_decode hd]
    exact exec_outcome h
  · next why _ =>
    obtain rfl : rejectIllegal why s = t := by simpa using h
    exact rejectIllegal_outcome _ why s
  · cases h

/-- Every outcome is reported with the registers as it leaves them (R103). -/
theorem CommandOutcome.response {w : Word} {s t : State} (h : CommandOutcome w s t) :
    ∃ r out, t.response = some ⟨statusWord r t.fcode t.estate, out⟩ := by
  cases h <;> exact ⟨_, _, rfl⟩

/-- The result code is at most 5 (R105). -/
theorem resultByte_le (r : Result) : resultByte r ≤ 5 := by
  cases r <;> decide

/-- Settles O52: every outcome of a command is reported by `statusWord` on the new registers. -/
theorem statusWordReadsTheRegisters : Obligations.StatusWordReadsTheRegisters := by
  intro s t c rest hi h
  obtain ⟨r, out, hr⟩ := (stepCommand_outcome (step_command hi ▸ h)).response
  exact ⟨_, hr, statusWord_reserved .., statusWord_result r .. ▸ resultByte_le r, statusWord_fcode ..,
    statusWord_estate ..⟩

/-- Settles O53: each outcome has one result code, which picks the clause. -/
theorem outcomeKinds : Obligations.OutcomeKinds := by
  intro s t c rest r hi h hr result
  have ho : CommandOutcome c.cmdw { s with inbox := rest } t := stepCommand_outcome (step_command hi ▸ h)
  cases ho
  all_goals obtain rfl := Option.some.inj hr
  case refused he => simpa [result, resultByte] using he
  case faulted code he hc => simpa [result, resultByte] using ⟨he, hc⟩
  case rejected code hcode => obtain rfl | rfl := hcode <;> simp [result, resultByte]
  case authFailed ctx he hw => simpa [result, resultByte] using ⟨he, hw⟩
  case ok ctx out hw => simpa [result, resultByte] using fun h => absurd h hw
  case init ctx hw => simpa [result, resultByte] using fun h => absurd hw h

end Sys2Proof.Machine
end

section
/-! PROOFS. The context image (R268 to R270): an image holds every element of its context, so LOAD of a SAVE image
gives that context, on the same engine or on another. -/

namespace Sys2Proof.Machine

/-! ## The bytes of an image (R268) -/

@[simp] theorem length_imageOf (c : Context) : (imageOf c).length = imageBytes := by
  rw [imageOf, List.length_append, Vector.length_toList]
  rfl

/-- Bytes 0 to 199 are the state bytes. -/
theorem imageByte_imageOf_st (c : Context) {i : Nat} (hi : i < Config.stateBytes) :
    imageByte (imageOf c) i = c.st[i] := by
  rw [imageByte, imageOf, List.getD_append _ _ _ _ (by rwa [Vector.length_toList])]
  simp [hi]

/-- Bytes 200 to 205 are the registers and the constant 1. -/
theorem imageByte_imageOf_reg (c : Context) (k : Nat) :
    imageByte (imageOf c) (Config.stateBytes + k) =
      [c.pos, c.posBegin, c.rate, c.curFlags, 1, roleByte c.i0].getD k 0 := by
  rw [imageByte, imageOf, List.getD_append_right _ _ _ _ (by simp), Vector.length_toList,
    Nat.add_sub_cancel_left]

@[simp] theorem imageByte_imageOf_pos (c : Context) : imageByte (imageOf c) 200 = c.pos :=
  imageByte_imageOf_reg c 0
@[simp] theorem imageByte_imageOf_posBegin (c : Context) : imageByte (imageOf c) 201 = c.posBegin :=
  imageByte_imageOf_reg c 1
@[simp] theorem imageByte_imageOf_rate (c : Context) : imageByte (imageOf c) 202 = c.rate :=
  imageByte_imageOf_reg c 2
@[simp] theorem imageByte_imageOf_curFlags (c : Context) : imageByte (imageOf c) 203 = c.curFlags :=
  imageByte_imageOf_reg c 3
@[simp] theorem imageByte_imageOf_initialized (c : Context) : imageByte (imageOf c) 204 = 1 :=
  imageByte_imageOf_reg c 4
@[simp] theorem imageByte_imageOf_i0 (c : Context) : imageByte (imageOf c) 205 = roleByte c.i0 :=
  imageByte_imageOf_reg c 5

@[simp] theorem roleOfByte_roleByte (r : Role) : roleOfByte (roleByte r) = some r := by
  cases r <;> rfl

/-! ## An image restores its context -/

/-- The image of a context that meets R29 meets R270. -/
theorem validImage_imageOf {c : Context} (h : c.Valid) : validImage (imageOf c) = true := by
  obtain ⟨hrate, hpos, hbegin, -, hflags⟩ := h
  simp only [validImage, Bool.and_eq_true, Bool.or_eq_true, beq_iff_eq, decide_eq_true_eq]
  refine ⟨⟨⟨⟨⟨⟨length_imageOf c, ?_⟩, ?_⟩, ?_⟩, ?_⟩, ?_⟩, ?_⟩
  · rw [imageByte_imageOf_initialized]
  · rwa [imageByte_imageOf_rate]
  · rwa [imageByte_imageOf_pos, imageByte_imageOf_rate]
  · rwa [imageByte_imageOf_posBegin, imageByte_imageOf_pos]
  · rwa [imageByte_imageOf_curFlags]
  · rw [imageByte_imageOf_i0, roleOfByte_roleByte, Option.isSome_some]

/-- An image installs the context it was taken from (R269), which is initialized since LOAD sets that. -/
theorem contextOfImage_imageOf {c : Context} (h : c.initialized = true) : contextOfImage (imageOf c) = c := by
  have hst : (Vector.ofFn fun i : Fin Config.stateBytes => imageByte (imageOf c) i.val) = c.st := by
    ext i hi
    rw [Vector.getElem_ofFn, imageByte_imageOf_st c hi]
  simp only [contextOfImage, hst, imageByte_imageOf_pos, imageByte_imageOf_posBegin, imageByte_imageOf_rate,
    imageByte_imageOf_curFlags, imageByte_imageOf_i0, roleOfByte_roleByte, Option.getD_some, ← h]

/-! ## SAVE and LOAD as commands -/

/-- SAVE on a READY engine answers the image and leaves the context (R267). -/
theorem issueNow_save {s : State} (he : s.estate = .ready) :
    issueNow .save s = .next (respond .ok (imageOf s.ctx) s) := by
  rw [stepRunsTheDecodedCommand.2 s .save rfl]
  simp only [exec, execSave, he]

/-- LOAD of the image of a context that meets R29 installs that context, whether the engine is UNINIT or READY
(R269). -/
theorem issueNow_load_imageOf {s : State} {c : Context} (hs : s.estate ≠ .faulted) (hc : c.Valid) :
    issueNow (.load (imageOf c)) s = .next (respond .ok [] { s with ctx := c, estate := .ready }) := by
  obtain ⟨-, -, -, hinit, -⟩ := id hc
  have hw : (Instr.load (imageOf c)).wellFormed = true := by
    simp [Instr.wellFormed, fitsLen, imageBytes]
  rw [stepRunsTheDecodedCommand.2 s _ hw]
  cases he : s.estate with
  | faulted => exact absurd he hs
  | uninit => simp only [exec, execLoad, he, validImage_imageOf hc, contextOfImage_imageOf hinit, if_true]
  | ready => simp only [exec, execLoad, he, validImage_imageOf hc, contextOfImage_imageOf hinit, if_true]

/-- CLONE from a READY engine answers as SAVE on it and then LOAD of its image on the other (R109). -/
theorem cloneEngine_eq {y : System} {e f : Nat} {s r : State} (hef : e ≠ f) (hs : y.engines[e]? = some s)
    (hr : y.engines[f]? = some r) (hop : s.Operational) (hf : r.estate ≠ .faulted) :
    cloneEngine e f y = some ⟨(y.engines.set e (respond .ok (imageOf s.ctx) s)).set f
      (respond .ok [] { r with ctx := s.ctx, estate := .ready })⟩ := by
  obtain ⟨he, -, hc⟩ := hop
  have hr' (s' : State) : (y.engines.set e s')[f]? = some r := by rw [List.getElem?_set_ne hef, hr]
  simp only [cloneEngine, hs, issueNow_save he, hr', lastOut, respond_response, issueNow_load_imageOf hf hc]

/-- Settles O59: CLONE sets engine e to the state after SAVE, which has its context, and engine f to that after
LOAD, which has the same. -/
theorem cloneCopiesTheContext : Obligations.CloneCopiesTheContext := by
  intro y e f s r hef hs hr hop hf
  have hle : e < y.engines.length := (List.getElem?_eq_some_iff.1 hs).1
  have hlf : f < y.engines.length := (List.getElem?_eq_some_iff.1 hr).1
  refine ⟨_, respond .ok (imageOf s.ctx) s, respond .ok [] { r with ctx := s.ctx, estate := .ready },
    cloneEngine_eq hef hs hr hop hf, ?_, ?_, rfl, rfl, hop.1, rfl, fun j hje hjf => ?_⟩
  · rw [List.getElem?_set_ne hef.symm, List.getElem?_set_self hle]
  · rw [List.getElem?_set_self (by rwa [List.length_set])]
  · rw [List.getElem?_set_ne hjf.symm, List.getElem?_set_ne hje.symm]

end Sys2Proof.Machine
end

section
/-! PROOFS. The permutation: each step mapping of a round at one lane (R133 to R137), and the worked example of
F on the zero state (R140). -/

namespace Sys2Proof.Machine

/-! ## The step mappings at a lane (R133 to R137) -/

/-- Coordinates count mod 5 (R131). -/
theorem laneAt_congr (a : Lanes) {x x' y y' : Nat} (hx : x % 5 = x' % 5) (hy : y % 5 = y' % 5) :
    laneAt a x y = laneAt a x' y' := by
  rw [laneAt, laneAt, hx, hy]

/-- C[x] of theta is the XOR over the lanes of column x mod 5 (R133). -/
theorem thetaC_eq_foldl (a : Lanes) (x : Nat) :
    thetaC a x = (List.range 5).foldl (fun v k => v ^^^ laneAt a (x % 5) k) 0 := by
  have hmod (k : Nat) : laneAt a (x % 5) k = laneAt a x k := laneAt_congr a (Nat.mod_mod x 5) rfl
  simp [thetaC, hmod, List.range_succ]

/-- Lane (x, y) after rho and pi is the lane that pi fetches, rotated by the offset of where it stood. -/
theorem laneAt_piStep_rho (a : Lanes) (x y : Nat) :
    laneAt (piStep (rho a)) x y =
      rotl64 (laneAt a (x + 3 * y) x) (rhoOffset ((x + 3 * y) % 5) (x % 5)) := by
  have hcol : (x % 5 + 3 * (y % 5)) % 5 = (x + 3 * y) % 5 := by omega
  rw [piStep, laneAt_lanesOf, rho, laneAt_lanesOf, hcol, Nat.mod_mod,
    laneAt_congr a (Nat.mod_mod (x + 3 * y) 5) (Nat.mod_mod x 5)]

section
variable (a : Lanes) (rc : Lane) {x y : Nat} (hx : x < 5) (hy : y < 5)
include hx hy

/-- Lanes built from a function hold its values at coordinates in 0..4. -/
theorem laneAt_lanesOf_of_lt (f : Nat → Nat → Lane) : laneAt (lanesOf f) x y = f x y := by
  rw [laneAt_lanesOf, Nat.mod_eq_of_lt hx, Nat.mod_eq_of_lt hy]

theorem laneAt_theta : laneAt (theta a) x y = laneAt a x y ^^^ thetaD a x :=
  laneAt_lanesOf_of_lt hx hy _

/-- Rho and pi put the lane of (x, y), rotated by r[x, y], at (y, 2x + 3y) (R134, R135): pi fetches it from
column y + 3(2x + 3y), which is x mod 5. -/
theorem laneAt_piStep_rho_target :
    laneAt (piStep (rho a)) y (2 * x + 3 * y) = rotl64 (laneAt a x y) (rhoOffset x y) := by
  have hsrc : (y + 3 * (2 * x + 3 * y)) % 5 = x := by omega
  rw [laneAt_piStep_rho, hsrc, Nat.mod_eq_of_lt hy,
    laneAt_congr a (hsrc.trans (Nat.mod_eq_of_lt hx).symm) rfl]

theorem laneAt_chi : laneAt (chi a) x y =
    laneAt a x y ^^^ (~~~(laneAt a ((x + 1) % 5) y) &&& laneAt a ((x + 2) % 5) y) := by
  rw [chi, laneAt_lanesOf_of_lt hx hy, laneAt_congr a (Nat.mod_mod (x + 1) 5) rfl,
    laneAt_congr a (Nat.mod_mod (x + 2) 5) rfl]

theorem laneAt_iota :
    laneAt (iota rc a) x y = if x = 0 ∧ y = 0 then laneAt a x y ^^^ rc else laneAt a x y :=
  laneAt_lanesOf_of_lt hx hy _

end

/-- Settles O12: each step mapping builds its lanes from a coordinate function, which is read back at (x, y). -/
theorem stepMappingsAtALane : Obligations.StepMappingsAtALane := by
  intro a rc x y hx hy
  refine ⟨?_, laneAt_piStep_rho_target a hx hy, laneAt_chi a hx hy, laneAt_iota a rc hx hy⟩
  rw [laneAt_theta a hx hy, thetaD, thetaC_eq_foldl, thetaC_eq_foldl]

/-! ## The worked example (R140) -/

/-- The 25 lanes of F of the zero state, of which R140 lists the first five. -/
def zeroStateImage : Lanes :=
  #v[0xF1258F7940E1DDE7, 0x84D5CCF933C0478A, 0xD598261EA65AA9EE, 0xBD1547306F80494D, 0x8B284E056253D057,
     0xFF97A42D7F8E6FD4, 0x90FEE5A0A44647C4, 0x8C5BDA0CD6192E76, 0xAD30A6F71B19059C, 0x30935AB7D08FFC64,
     0xEB5AA93F2317D635, 0xA9A6E6260D712103, 0x81A57C16DBCF555F, 0x43B831CD0347C826, 0x01F22F1A11A5569F,
     0x05E5635A21D9AE61, 0x64BEFEF28CC970F2, 0x613670957BC46611, 0xB87C5A554FD00ECB, 0x8C3EE88A1CCF32C8,
     0x940C7922AE3A2614, 0x1841F924A2C509E4, 0x16F53526E70465C2, 0x75F644E97F30A13B, 0xEAF1FF7B5CECA249]

/-- The 24 rounds on the zero state, computed in the kernel. -/
theorem keccakF_zero : keccakF (Vector.replicate 25 0) = zeroStateImage := by decide +kernel

/-- The 24 rounds again, for the first lane. -/
theorem keccakF_zeroStateImage_lane_zero : (keccakF zeroStateImage)[0]? = some 0x2D5C954DF96ECB3C := by
  decide +kernel

/-- The lanes of the zero bytes are 0 (R28). -/
theorem lanesOfBytes_zero : lanesOfBytes (Vector.replicate 200 0) = Vector.replicate 25 0 := by
  decide +kernel

/-- The first two lanes of the image as state bytes, the least significant first (R63). -/
theorem bytesOfLanes_zeroStateImage : (bytesOfLanes zeroStateImage).toList.take 16 =
    [0xe7, 0xdd, 0xe1, 0x40, 0x79, 0x8f, 0x25, 0xf1, 0x8a, 0x47, 0xc0, 0x33, 0xf9, 0xcc, 0xd5, 0x84] := by
  decide +kernel

/-- Settles O10: F of the zero state is computed once, and its bytes and the second F start from that result. -/
theorem permutationOfTheZeroState : Obligations.PermutationOfTheZeroState := by
  refine ⟨?_, ?_, ?_⟩
  · rw [keccakF_zero]
    decide
  · rw [keccakBytes, lanesOfBytes_zero, keccakF_zero]
    exact bytesOfLanes_zeroStateImage
  · rw [keccakF_zero]
    exact keccakF_zeroStateImage_lane_zero

end Sys2Proof.Machine
end

section
/-! PROOFS. The duplex primitive: its agreement with the loop of R160, the bytes the padding and a turn of the
loop write, where its positions end, how often it permutes, what it does to the capacity, and the framing and
the operations built on it. -/

namespace Sys2Proof.Machine

/-! ## The two functions are the loop of R160 -/

/-- At the index of the first byte not yet processed, the body of R160 replaces that byte by its processed byte
and does to the context what a turn of the byte loop does. -/
theorem pseudoBody_at (cbefore cafter : Bool) (c : Context) (done rest : List Byte) (b : Byte) :
    pseudoBody cbefore cafter done.length ⟨c, done ++ b :: rest⟩ =
      ⟨byteStep cbefore c b, done ++ processedByte cbefore cafter c b :: rest⟩ := by
  have hunmask : pseudoUnmask cbefore done.length ⟨c, done ++ b :: rest⟩ =
      ⟨c, done ++ unmasked cbefore c b :: rest⟩ := by
    cases cbefore <;> simp [pseudoUnmask, unmasked]
  have habsorb (u : Byte) : pseudoAbsorb done.length ⟨c, done ++ u :: rest⟩ =
      ⟨memXor c c.pos.toNat u, done ++ u :: rest⟩ := by
    simp [pseudoAbsorb, memXor]
  have hsqueeze (d : Context) (u : Byte) : pseudoSqueeze cafter done.length ⟨d, done ++ u :: rest⟩ =
      ⟨d, done ++ (if cafter then memRead d d.pos.toNat else u) :: rest⟩ := by
    cases cafter <;> simp [pseudoSqueeze]
  rw [pseudoBody, hunmask, habsorb, hsqueeze]
  rfl

/-- The loop of R160 from the index it has reached: the processed bytes stand before the others. -/
theorem foldl_pseudoBody (cbefore cafter : Bool) (c : Context) (done rest : List Byte) :
    (List.range' done.length rest.length).foldl (fun r i => pseudoBody cbefore cafter i r)
        ⟨c, done ++ rest⟩ =
      ⟨loopContext cbefore c rest, done ++ loopOutput cbefore cafter c rest⟩ := by
  induction rest generalizing c done with
  | nil => rfl
  | cons b rest ih =>
    have hnext := ih (byteStep cbefore c b) (done ++ [processedByte cbefore cafter c b])
    rw [List.length_cons, List.range'_succ, List.foldl_cons, pseudoBody_at]
    simpa using hnext

/-- Settles O13: the loop of R160 starts with no byte processed, and the forced routine changes the context
alone. -/
theorem duplexIsTheLoopOfTheSpec : Obligations.DuplexIsTheLoopOfTheSpec := by
  intro data cbefore cafter forceF c
  have hloop := foldl_pseudoBody cbefore cafter c [] data
  rw [List.length_nil, ← List.range_eq_range', List.nil_append, List.nil_append] at hloop
  rw [pseudoDuplex, hloop]
  dsimp only
  split
  · next hfires => rw [duplexContext, forceBlock, if_pos hfires, duplexOutput]
  · next hfires => rw [duplexContext, forceBlock, if_neg hfires, duplexOutput]

/-! ## The bytes that the padding and a turn of the loop write -/

/-- A read after an XOR, as one XOR at every index. -/
theorem memRead_memXor_eq_xor (c : Context) {i : Nat} (j : Nat) (v : Byte) (h : i < Config.stateBytes) :
    memRead (memXor c i v) j = memRead c j ^^^ (if j = i then v else 0) := by
  rw [memRead_memXor c i j v h]
  split <;> simp

/-- The bytes of a padded block (R162); during the bootstrap a block is not padded (R26). -/
theorem memRead_padBlock {c : Context} (hp : c.pos.toNat ≤ c.rate.toNat) (hr : c.rate.toNat + 1 < 200)
    (j : Nat) :
    memRead (padBlock c) j =
      if c.initialized = true then
        memRead c j ^^^ (if j = c.pos.toNat then c.posBegin else 0) ^^^
          (if j = c.pos.toNat + 1 then 0x04 else 0) ^^^ (if j = c.rate.toNat + 1 then 0x80 else 0)
      else memRead c j := by
  unfold padBlock
  split
  · rw [memRead_memXor_eq_xor _ _ _ (by simpa using hr),
      memRead_memXor_eq_xor _ _ _ (by simp only [Config.stateBytes]; omega),
      memRead_memXor_eq_xor _ _ _ (by simp only [Config.stateBytes]; omega)]
  · rfl

/-- The padding writes no byte above R + 1 (R167). -/
theorem memRead_padBlock_above {c : Context} (hp : c.pos.toNat ≤ c.rate.toNat) {j : Nat}
    (hj : c.rate.toNat + 2 ≤ j) : memRead (padBlock c) j = memRead c j := by
  unfold padBlock
  split
  · rw [memRead_memXor_other _ _ (by omega), memRead_memXor_other _ _ (by omega),
      memRead_memXor_other _ _ (by omega)]
  · rfl

/-- The block-boundary routine writes `st`, `pos` and `posBegin` alone. -/
theorem runF_eq (c : Context) :
    runF c = { c with st := keccakBytes (padBlock c).st, pos := 0, posBegin := 0 } := by
  unfold runF padBlock
  split <;> rfl

/-- Settles O14: the state given to F is that of the padded block. -/
theorem blockBoundaryRoutine : Obligations.BlockBoundaryRoutine := fun c hp hr =>
  ⟨(padBlock c).st, memRead_padBlock hp hr, runF_eq c⟩

/-- The byte a turn absorbs without `cbefore`, as one XOR at every index. -/
theorem memRead_absorbByte_false {c : Context} (h : indicesInRange c = true) (b : Byte) (j : Nat) :
    memRead (absorbByte false c b) j = memRead c j ^^^ (if j = c.pos.toNat then b else 0) := by
  rw [memRead_absorbByte false b h]
  split <;> simp

/-- The processed byte of each legal phase setting (R163). -/
theorem processedByte_eq {cbefore cafter : Bool} {c : Context} (h : indicesInRange c = true) (b : Byte)
    (hlegal : ¬ (cbefore = true ∧ cafter = true)) :
    processedByte cbefore cafter c b =
      if cbefore || cafter then memRead c c.pos.toNat ^^^ b else b := by
  cases cafter with
  | true =>
    obtain rfl : cbefore = false := by simpa using hlegal
    simp [processedByte, memRead_absorbByte false b h]
  | false => simp [processedByte, unmasked, BitVec.xor_comm]

/-- Without a phase the processed bytes are the data (R163). -/
theorem loopOutput_clear (c : Context) (data : List Byte) : loopOutput false false c data = data := by
  induction data generalizing c with
  | nil => rfl
  | cons b rest ih => rw [loopOutput_cons, ih]; rfl

/-- A turn that does not reach the end of the block moves `pos` by one. -/
theorem byteStep_inside {c : Context} (h : indicesInRange c = true)
    (hp : c.pos.toNat + 1 < c.rate.toNat) (cbefore : Bool) (b : Byte) :
    byteStep cbefore c b = { absorbByte cbefore c b with pos := c.pos + 1 } :=
  if_neg fun hend => hp.ne ((pos_succ_eq_rate_iff h).1 hend)

/-- A turn that fills the block runs the block-boundary routine at `pos` = R. -/
theorem byteStep_full {c : Context} (h : indicesInRange c = true)
    (hp : c.pos.toNat + 1 = c.rate.toNat) (cbefore : Bool) (b : Byte) :
    byteStep cbefore c b = runF { absorbByte cbefore c b with pos := c.rate } := by
  have hend : c.pos + 1 = c.rate := (pos_succ_eq_rate_iff h).2 hp
  rw [← hend]
  exact if_pos hend

/-- Settles O15: a turn absorbs the byte and moves `pos`, and at R the block-boundary routine follows. -/
theorem byteEffectOfEachPhase : Obligations.ByteEffectOfEachPhase := by
  intro c b hp hr cbefore cafter hlegal
  have h : indicesInRange c = true := (indicesInRange_iff c).2 ⟨hp, hr⟩
  exact ⟨congrArg (· :: []) (processedByte_eq h b hlegal), (absorbByte cbefore c b).st,
    memRead_absorbByte cbefore b h, fun hinside => byteStep_inside h hinside cbefore b,
    fun hfull => byteStep_full h hfull cbefore b⟩

/-! ## Positions and permutations of the loop (R164) -/

/-- `posBegin` after the loop: 0 when a block ended. -/
theorem loopContext_posBegin (cbefore : Bool) {c : Context} (data : List Byte)
    (h : indicesInRange c = true) :
    (loopContext cbefore c data).posBegin =
      if c.rate.toNat ≤ c.pos.toNat + data.length then 0 else c.posBegin := by
  induction data generalizing c with
  | nil => exact (if_neg (Nat.not_le.2 ((indicesInRange_iff c).1 h).1)).symm
  | cons b rest ih =>
    have hlt := ((indicesInRange_iff c).1 h).1
    rw [loopContext_cons, ih (byteStep_inRange cbefore b h), byteStep_rate,
      byteStep_pos_toNat cbefore b h, byteStep_posBegin, List.length_cons]
    simp only [pos_succ_eq_rate_iff h]
    by_cases hend : c.pos.toNat + 1 = c.rate.toNat
    · rw [if_pos hend, ite_self, if_pos (by omega)]
    · rw [if_neg hend, Nat.mod_eq_of_lt (by omega)]
      exact if_congr (by omega) rfl rfl

/-- The loop permutes each time the bytes counted from the start of the block fill one. -/
theorem loopPermutations_eq (cbefore : Bool) {c : Context} (data : List Byte)
    (h : indicesInRange c = true) :
    loopPermutations cbefore c data = (c.pos.toNat + data.length) / c.rate.toNat := by
  induction data generalizing c with
  | nil => exact (Nat.div_eq_of_lt ((indicesInRange_iff c).1 h).1).symm
  | cons b rest ih =>
    have hlt := ((indicesInRange_iff c).1 h).1
    rw [loopPermutations, ih (byteStep_inRange cbefore b h), byteStep_rate,
      byteStep_pos_toNat cbefore b h, List.length_cons]
    simp only [pos_succ_eq_rate_iff h]
    by_cases hend : c.pos.toNat + 1 = c.rate.toNat
    · rw [if_pos hend, hend, Nat.mod_self, Nat.zero_add, Nat.add_comm 1, ← Nat.add_div_right _ (by omega),
        ← hend, Nat.add_left_comm]
    · rw [if_neg hend, Nat.mod_eq_of_lt (by omega), Nat.zero_add, Nat.add_right_comm, Nat.add_assoc]

/-- The forced routine fires exactly when the bytes counted from the start of the block do not end one. -/
theorem forceBlock_fires_iff (cbefore forceF : Bool) {c : Context} (data : List Byte)
    (h : indicesInRange c = true) :
    (forceF && (loopContext cbefore c data).pos != 0) = true ↔
      forceF = true ∧ (c.pos.toNat + data.length) % c.rate.toNat ≠ 0 := by
  rw [← loopContext_pos_toNat cbefore data h, Bool.and_eq_true, bne_iff_ne, Ne, ← BitVec.toNat_inj]
  rfl

/-- Permutations of one call of the duplex primitive (R164). -/
theorem duplexPermutations_eq (data : List Byte) (cbefore forceF : Bool) {c : Context}
    (h : indicesInRange c = true) :
    duplexPermutations data cbefore forceF c =
      (c.pos.toNat + data.length) / c.rate.toNat +
        (if forceF = true ∧ (c.pos.toNat + data.length) % c.rate.toNat ≠ 0 then 1 else 0) := by
  rw [duplexPermutations, loopPermutations_eq cbefore data h]
  simp only [forceBlock_fires_iff cbefore forceF data h]

/-- Settles O16: the forced routine fires where the loop leaves `pos` at another value than 0. -/
theorem duplexPositionBookkeeping : Obligations.DuplexPositionBookkeeping := by
  intro data cbefore forceF c h
  refine ⟨fun hidle => ?_, fun hfires => ?_, duplexPermutations_eq data cbefore forceF h⟩
  · have hd : duplexContext data cbefore forceF c = loopContext cbefore c data :=
      if_neg fun hf => hidle ((forceBlock_fires_iff cbefore forceF data h).1 hf)
    rw [hd]
    exact ⟨loopContext_pos_toNat cbefore data h, loopContext_posBegin cbefore data h⟩
  · have hd : duplexContext data cbefore forceF c = runF (loopContext cbefore c data) :=
      if_pos ((forceBlock_fires_iff cbefore forceF data h).2 hfires)
    rw [hd]
    exact ⟨rfl, rfl⟩

/-- Settles O17: without a forced routine the primitive is the byte loop. -/
theorem duplexChunking : Obligations.DuplexChunking := fun a b cbefore cafter c =>
  ⟨loopContext_append cbefore c a b, loopOutput_append cbefore cafter c a b⟩

/-! ## The capacity (R167) -/

/-- Inside a block the loop writes no byte from R on. -/
theorem memRead_loopContext_capacity (cbefore : Bool) {c : Context} (data : List Byte)
    (h : indicesInRange c = true) (hfits : c.pos.toNat + data.length < c.rate.toNat) {j : Nat}
    (hj : c.rate.toNat ≤ j) : memRead (loopContext cbefore c data) j = memRead c j := by
  induction data generalizing c with
  | nil => rfl
  | cons b rest ih =>
    rw [List.length_cons] at hfits
    have hstep := byteStep_inside h (by omega) cbefore b
    have hpos : (byteStep cbefore c b).pos.toNat = c.pos.toNat + 1 := by rw [hstep]; exact pos_succ_toNat h
    calc memRead (loopContext cbefore c (b :: rest)) j
        = memRead (byteStep cbefore c b) j :=
          ih (byteStep_inRange cbefore b h) (by rw [hpos, byteStep_rate]; omega) (by simpa using hj)
      _ = memRead (absorbByte cbefore c b) j := by rw [hstep]; rfl
      _ = memRead c j := by rw [memRead_absorbByte cbefore b h, if_neg (by omega)]

/-- The processed byte reads the state at `pos` alone. -/
theorem processedByte_congr (cbefore cafter : Bool) {c d : Context} (b : Byte)
    (hc : indicesInRange c = true) (hd : indicesInRange d = true) (hpos : d.pos = c.pos)
    (hread : memRead d c.pos.toNat = memRead c c.pos.toNat) :
    processedByte cbefore cafter d b = processedByte cbefore cafter c b := by
  simp only [processedByte, unmasked, memRead_absorbByte cbefore b hc, memRead_absorbByte cbefore b hd,
    hpos, hread]

/-- Up to the end of the block the processed bytes are the same from two contexts that agree on `pos`, R and the
bytes below R: after each byte but the last they agree again. -/
theorem loopOutput_congr (cbefore cafter : Bool) {c d : Context} (data : List Byte)
    (hc : indicesInRange c = true) (hpos : d.pos = c.pos) (hrate : d.rate = c.rate)
    (hread : ∀ j < c.rate.toNat, memRead d j = memRead c j)
    (hfits : c.pos.toNat + data.length ≤ c.rate.toNat) :
    loopOutput cbefore cafter d data = loopOutput cbefore cafter c data := by
  induction data generalizing c d with
  | nil => rfl
  | cons b rest ih =>
    have hr := (indicesInRange_iff c).1 hc
    have hd : indicesInRange d = true := by rw [indicesInRange_iff, hpos, hrate]; exact hr
    rw [loopOutput_cons, loopOutput_cons, processedByte_congr cbefore cafter b hc hd hpos (hread _ hr.1)]
    congr 1
    cases rest with
    | nil => rfl
    | cons b' rest =>
      have hinside : c.pos.toNat + 1 < c.rate.toNat := by
        simp only [List.length_cons] at hfits
        omega
      have hstepc := byteStep_inside hc hinside cbefore b
      have hstepd := byteStep_inside hd (by rwa [hpos, hrate]) cbefore b
      refine ih (byteStep_inRange cbefore b hc) ?_ (by simpa using hrate) (fun j hj => ?_) ?_
      · rw [hstepc, hstepd, hpos]
      · rw [byteStep_rate] at hj
        rw [hstepc, hstepd]
        show memRead (absorbByte cbefore d b) j = memRead (absorbByte cbefore c b) j
        rw [memRead_absorbByte cbefore b hd, memRead_absorbByte cbefore b hc, hpos, hread j hj]
      · rw [byteStep_pos_toNat cbefore b hc, Nat.mod_eq_of_lt hinside, byteStep_rate]
        simp only [List.length_cons] at hfits ⊢
        omega

/-- Settles O18: a turn writes the byte at `pos` and reads no other, and the padding ends at R + 1. -/
theorem capacityIsolation : Obligations.CapacityIsolation :=
  ⟨fun data cbefore _ h hfits _ hj => memRead_loopContext_capacity cbefore data h hfits hj,
    fun data cbefore cafter _ _ h hfits hother =>
      loopOutput_congr cbefore cafter data h rfl rfl hother hfits,
    fun _ hp _ hj => memRead_padBlock_above hp hj⟩

/-! ## Framing (R184, R185) -/

/-- A flag is set when its bit is (R92). -/
theorem hasFlag_iff (f bit : Byte) : hasFlag f bit = true ↔ f &&& bit ≠ 0 := by simp [hasFlag]

/-- The context in which the framing bytes are absorbed: the role is bound, and `posBegin` is one past `pos`
(R182, R184). -/
def framingStart (f : Byte) (c : Context) : Context :=
  { c with i0 := bindRole f c.i0, posBegin := c.pos + 1 }

/-- The flag byte that the framing absorbs (R183). -/
def flagByte (f : Byte) (c : Context) : Byte := framingFlags f (bindRole f c.i0)

/-- The context between the two framing bytes. -/
def framingMiddle (f : Byte) (c : Context) : Context := byteStep false (framingStart f c) c.posBegin

theorem beginOp_eq (f : Byte) (c : Context) :
    beginOp f c =
      { forceBlock (hasFlag f flagC) (byteStep false (framingMiddle f c) (flagByte f c)) with
        curFlags := f } := rfl

theorem framingStart_inRange (f : Byte) {c : Context} (h : indicesInRange c = true) :
    indicesInRange (framingStart f c) = true := h

theorem framingMiddle_inRange (f : Byte) {c : Context} (h : indicesInRange c = true) :
    indicesInRange (framingMiddle f c) = true := byteStep_inRange _ _ (framingStart_inRange f h)

/-- After a byte the forced routine closes the block in either case: at the end of the block the turn has
already done so, and before it `pos` is not 0. -/
theorem forceBlock_byteStep (cbefore : Bool) {c : Context} (b : Byte) (h : indicesInRange c = true) :
    forceBlock true (byteStep cbefore c b) = runF { absorbByte cbefore c b with pos := c.pos + 1 } := by
  obtain ⟨-, hb⟩ | ⟨-, hb⟩ := byteStep_cases cbefore c b <;> rw [hb]
  · rfl
  · have hpos : c.pos + 1 ≠ 0 := by
      rw [Ne, ← BitVec.toNat_inj, pos_succ_toNat h]
      exact Nat.succ_ne_zero _
    exact if_pos (by simpa using hpos)

/-- The block that the framing of an operation with C closes, before its padding. -/
def framingBlock (f : Byte) (c : Context) : Context :=
  { absorbByte false (framingMiddle f c) (flagByte f c) with pos := (framingMiddle f c).pos + 1 }

@[simp] theorem framingMiddle_rate (f : Byte) (c : Context) : (framingMiddle f c).rate = c.rate :=
  byteStep_rate _ _ _

@[simp] theorem framingMiddle_initialized (f : Byte) (c : Context) :
    (framingMiddle f c).initialized = c.initialized := byteStep_initialized _ _ _

@[simp] theorem framingMiddle_i0 (f : Byte) (c : Context) : (framingMiddle f c).i0 = bindRole f c.i0 :=
  byteStep_i0 _ _ _

/-- With C the framing ends with the block-boundary routine right after the flag byte. -/
theorem beginOp_cipher {f : Byte} {c : Context} (h : indicesInRange c = true)
    (hC : hasFlag f flagC = true) :
    beginOp f c =
      { c with
        st := keccakBytes (padBlock (framingBlock f c)).st
        pos := 0
        posBegin := 0
        curFlags := f
        i0 := bindRole f c.i0 } := by
  rw [beginOp_eq, hC, forceBlock_byteStep false _ (framingMiddle_inRange f h), runF_eq]
  simp [framingBlock]

/-- The bytes of the block that the framing closes, from the context between the two framing bytes. -/
theorem memRead_padBlock_framingBlock (f : Byte) {c : Context} (h : indicesInRange c = true)
    (hinit : c.initialized = true) {p : Nat} (hp : (framingMiddle f c).pos.toNat = p) (j : Nat) :
    memRead (padBlock (framingBlock f c)) j =
      memRead (framingMiddle f c) j ^^^ (if j = p then flagByte f c else 0) ^^^
        (if j = p + 1 then (framingMiddle f c).posBegin else 0) ^^^
        (if j = p + 2 then 0x04 else 0) ^^^ (if j = c.rate.toNat + 1 then 0x80 else 0) := by
  have hm := framingMiddle_inRange f h
  obtain ⟨hlt, hr⟩ := (indicesInRange_iff _).1 hm
  have hpos : (framingBlock f c).pos.toNat = p + 1 := hp ▸ pos_succ_toNat hm
  have hrate : (framingBlock f c).rate = c.rate := framingMiddle_rate f c
  have hflag : memRead (framingBlock f c) j =
      memRead (framingMiddle f c) j ^^^ (if j = p then flagByte f c else 0) :=
    hp ▸ memRead_absorbByte_false hm (flagByte f c) j
  rw [framingMiddle_rate] at hlt hr
  rw [memRead_padBlock (by rw [hpos, hrate]; omega) (by rwa [hrate]),
    if_pos (show (framingBlock f c).initialized = true from (framingMiddle_initialized f c).trans hinit),
    hpos, hrate, hflag]
  rfl

/-- The block that ends between the two framing bytes, before its padding. -/
def splitBlock (f : Byte) (c : Context) : Context :=
  { absorbByte false (framingStart f c) c.posBegin with pos := c.rate }

/-- The bytes of the block that ends between the framing bytes: 0x04 and 0x80 meet at R + 1 (R162). -/
theorem memRead_padBlock_splitBlock (f : Byte) {c : Context} (h : indicesInRange c = true)
    (hinit : c.initialized = true) (hfull : c.pos.toNat + 1 = c.rate.toNat) (j : Nat) :
    memRead (padBlock (splitBlock f c)) j =
      memRead c j ^^^ (if j = c.pos.toNat then c.posBegin else 0) ^^^
        (if j = c.rate.toNat then c.rate else 0) ^^^ (if j = c.rate.toNat + 1 then 0x84 else 0) := by
  have hr := (indicesInRange_iff c).1 h
  have hbegin : (splitBlock f c).posBegin = c.rate := (pos_succ_eq_rate_iff h).2 hfull
  have hfirst : memRead (splitBlock f c) j =
      memRead c j ^^^ (if j = c.pos.toNat then c.posBegin else 0) :=
    memRead_absorbByte_false (framingStart_inRange f h) c.posBegin j
  have hpads : (if j = c.rate.toNat + 1 then 0x04 else 0) ^^^ (if j = c.rate.toNat + 1 then 0x80 else 0) =
      (if j = c.rate.toNat + 1 then 0x84 else (0 : Byte)) := by split <;> rfl
  rw [memRead_padBlock (c := splitBlock f c) (Nat.le_refl c.rate.toNat) hr.2,
    if_pos (show (splitBlock f c).initialized = true from hinit), hbegin, hfirst, BitVec.xor_assoc]
  exact congrArg _ hpads

/-- Settles O20: the block-boundary routine after the flag byte, on the state after the first framing byte,
which is inside the block or has filled it. -/
theorem framingOfCipherOperations : Obligations.FramingOfCipherOperations := by
  intro c f hv hf
  have h := hv.inRange
  obtain ⟨-, -, -, hinit, -⟩ := hv
  have hbegin := beginOp_cipher h ((hasFlag_iff f flagC).2 hf)
  have hst : (beginOp f c).st = keccakBytes (padBlock (framingBlock f c)).st := by rw [hbegin]
  refine ⟨by rw [hbegin], fun hfits => ⟨_, fun j => ?_, hst⟩, fun hfull =>
    ⟨(padBlock (splitBlock f c)).st, _, memRead_padBlock_splitBlock f h hinit hfull, fun j => ?_, hst⟩⟩
  · have hmiddle : framingMiddle f c =
        { absorbByte false (framingStart f c) c.posBegin with pos := c.pos + 1 } :=
      byteStep_inside (framingStart_inRange f h) (show c.pos.toNat + 1 < c.rate.toNat from hfits) false _
    have hpos : (framingMiddle f c).pos.toNat = c.pos.toNat + 1 := by rw [hmiddle]; exact pos_succ_toNat h
    have hfirst : memRead (framingMiddle f c) j =
        memRead c j ^^^ (if j = c.pos.toNat then c.posBegin else 0) := by
      rw [hmiddle]
      exact memRead_absorbByte_false (framingStart_inRange f h) c.posBegin j
    exact (memRead_padBlock_framingBlock f h hinit hpos j).trans (by rw [hfirst, hmiddle]; rfl)
  · have hmiddle : framingMiddle f c = runF (splitBlock f c) :=
      byteStep_full (framingStart_inRange f h) hfull false _
    have hpos : (framingMiddle f c).pos.toNat = 0 := by rw [hmiddle]; rfl
    refine (memRead_padBlock_framingBlock f h hinit hpos j).trans ?_
    simp only [hmiddle, runF_posBegin, ite_self, BitVec.ofNat_eq_ofNat, BitVec.xor_zero]
    rfl

/-! ## Permutations of the framing, of an operation and of INIT (R185, R325) -/

/-- Permutations of the framing, for every `pos` and every flag word. -/
theorem framingPermutations_eq (f : Byte) {c : Context} (h : indicesInRange c = true) :
    framingPermutations f c =
      (c.pos.toNat + 2) / c.rate.toNat +
        (if hasFlag f flagC = true ∧ (c.pos.toNat + 2) % c.rate.toNat ≠ 0 then 1 else 0) :=
  duplexPermutations_eq _ false (hasFlag f flagC) (framingStart_inRange f h)

/-- R in numbers. -/
theorem Context.Valid.rate_toNat {c : Context} (h : c.Valid) : c.rate.toNat = 166 ∨ c.rate.toNat = 134 := by
  obtain ⟨hr | hr, -⟩ := h <;> simp [hr]

/-- Settles O21: two framing bytes reach R or not, and with C the rest of a block is closed. -/
theorem framingPermutationCounts : Obligations.FramingPermutationCounts := by
  intro c f hv
  have h := hv.inRange
  have hlt := ((indicesInRange_iff c).1 h).1
  have hr := hv.rate_toNat
  refine ⟨fun hC => ?_, fun hC => ?_⟩
  · rw [← hasFlag_iff] at hC
    have hbegin := beginOp_cipher h hC
    rw [framingPermutations_eq f h]
    refine ⟨by rw [hbegin], by rw [hbegin], fun hp => ?_, fun hp => ?_, fun hp => ?_⟩
    · rw [Nat.div_eq_of_lt (by omega), Nat.mod_eq_of_lt (by omega), if_pos ⟨hC, by omega⟩]
    · rw [hp, Nat.div_self (by omega), Nat.mod_self, if_neg (by simp)]
    · rw [show c.pos.toNat + 2 = 1 + c.rate.toNat by omega, Nat.add_div_right _ (by omega),
        Nat.add_mod_right, Nat.div_eq_of_lt (by omega), Nat.mod_eq_of_lt (by omega), if_pos ⟨hC, by omega⟩]
  · rw [framingPermutations_eq f h, if_neg fun hf => (hasFlag_iff f flagC).1 hf.1 hC, Nat.add_zero]
    split
    · next hp => exact Nat.div_eq_of_lt hp
    · next hp => exact Nat.div_eq_of_lt_le (by omega) (by omega)

/-- Where the framing leaves `pos`: at 0 with C, and two bytes on without. -/
theorem beginOp_pos_toNat (f : Byte) {c : Context} (h : indicesInRange c = true) :
    (beginOp f c).pos.toNat =
      if hasFlag f flagC = true then 0 else (c.pos.toNat + 2) % c.rate.toNat := by
  split
  · next hC => rw [beginOp_cipher h hC]; rfl
  · next hC =>
    rw [beginOp_eq, Bool.eq_false_iff.2 hC, forceBlock_false]
    exact loopContext_pos_toNat false [_, _] (framingStart_inRange f h)

/-- The data phase permutes each time the bytes from where `beginOp` left `pos` fill a block. -/
theorem operatePermutations_eq (f : Byte) (buf : List Byte) (more : Bool) {c : Context}
    (h : indicesInRange c = true) :
    operatePermutations f buf more c =
      (if more then 0 else framingPermutations f c) +
        ((openOp f more c).pos.toNat + buf.length) / c.rate.toNat := by
  have hopen : indicesInRange (openOp f more c) = true := by
    cases more with
    | true => exact h
    | false => exact beginOp_inRange f h
  have hrate : (openOp f more c).rate = c.rate := by cases more <;> simp
  rw [operatePermutations, duplexPermutations_eq _ _ _ hopen, hrate]
  simp

/-- A fresh operation without C fills its blocks with the framing bytes and the data alike. -/
theorem operatePermutations_fresh {f : Byte} (hC : hasFlag f flagC = false) (buf : List Byte) {c : Context}
    (h : indicesInRange c = true) :
    operatePermutations f buf false c = (c.pos.toNat + 2 + buf.length) / c.rate.toNat := by
  have hr := (indicesInRange_iff c).1 h
  have hdm := Nat.div_add_mod (c.pos.toNat + 2) c.rate.toNat
  simp only [operatePermutations_eq f buf false h, framingPermutations_eq f h, openOp_false,
    beginOp_pos_toNat f h, hC, Bool.false_eq_true, false_and, if_false, Nat.add_zero]
  conv_rhs => rw [← hdm, Nat.add_assoc, Nat.mul_add_div (by omega)]

/-- A context that meets R29 bounds the work of an operation (R325). -/
theorem operatePermutations_le (f : Byte) (buf : List Byte) (more : Bool) {c : Context} (hv : c.Valid) :
    operatePermutations f buf more c ≤ (2 + buf.length) / c.rate.toNat + 2 := by
  have h := hv.inRange
  have hlt := ((indicesInRange_iff c).1 h).1
  have hr := hv.rate_toNat
  cases more with
  | true =>
    rw [operatePermutations_eq f buf true h, if_pos rfl, openOp_true]
    obtain hr | hr := hr <;> rw [hr] at hlt ⊢ <;> omega
  | false =>
    by_cases hC : hasFlag f flagC = true
    · rw [operatePermutations_eq f buf false h, framingPermutations_eq f h, openOp_false,
        beginOp_pos_toNat f h, if_pos hC, if_neg Bool.false_ne_true]
      obtain hr | hr := hr <;> rw [hr] at hlt ⊢ <;> split <;> omega
    · rw [operatePermutations_fresh (Bool.eq_false_iff.2 hC) buf h]
      obtain hr | hr := hr <;> rw [hr] at hlt ⊢ <;> omega

/-- The bootstrap ends with its forced permutation, which leaves `pos` at 0 (R263). -/
@[simp] theorem initBootstrapped_pos (level : BitVec 16) : (initBootstrapped level).pos = 0 := by
  simp only [initBootstrapped, duplexContext_forced_pos]

/-- The STROBE rate is the bootstrap rate less 2 (R264). -/
@[simp] theorem initBootstrapped_rate (level : BitVec 16) :
    (initBootstrapped level).rate = bootRate level - 2 := by simp [initBootstrapped, initZeroed]

/-- The 18 bytes of the bootstrap do not fill a block, so it permutes once, by force (R262, R263). -/
theorem bootstrapPermutations {level : BitVec 16} (h : level = 128 ∨ level = 256) :
    duplexPermutations (domainPrefix (bootRate level)) false true (initZeroed level) = 1 := by
  obtain rfl | rfl := h <;> rw [duplexPermutations_eq _ _ _ (by decide)] <;> rfl

/-- INIT applies one permutation and those of its protocol AD (R325). -/
theorem initPermutations_eq {level : BitVec 16} (proto : List Byte) (h : level = 128 ∨ level = 256) :
    initPermutations level proto = 1 + (2 + proto.length) / (bootRate level - 2).toNat := by
  have hlevel : validLevel level = true := by obtain rfl | rfl := h <;> rfl
  rw [initPermutations, bootstrapPermutations h,
    operatePermutations_fresh (by decide) proto (initBootstrapped_valid hlevel).inRange,
    initBootstrapped_pos, initBootstrapped_rate]
  simp

/-- Settles O57, by the counts of `operate` and of INIT at either security level. -/
theorem permutationBound : Obligations.PermutationBound := by
  refine ⟨fun c flags buf more hv => operatePermutations_le flags buf more hv, fun level proto h => ?_⟩
  rw [initPermutations_eq proto h]
  obtain rfl | rfl := h <;> rfl

/-! ## The operations (R220 to R229) -/

/-- What an operation command does in an operational state: the duplex primitive with the phase of its flags,
answered by the class of its flags (R186 to R189). -/
theorem operation_runs {f : Byte} {more : Bool} (buf : List Byte) {s : State} (h : s.Operational)
    (hf : more = true → s.ctx.curFlags = f) :
    operation f more buf s = .next { s with
      ctx := duplexContext buf (phaseBefore f) false (openOp f more s.ctx)
      response := some
        ⟨statusWord (operateResult f (operateOutput f buf more s.ctx)) .none .ready,
          operatePayload f (operateOutput f buf more s.ctx)⟩ } := by
  rw [operation_completes f more buf h hf, respond]
  obtain ⟨he, hc, -⟩ := h
  rw [he, hc]
  rfl

/-- The result class PAYLOAD: the processed buffer is answered (R187). -/
theorem operation_payload {f : Byte} {cbefore cafter : Bool} (hclass : resultClass f = .payload)
    (hbefore : phaseBefore f = cbefore) (hafter : phaseAfter f = cafter) {more : Bool} (buf : List Byte)
    {s : State} (h : s.Operational) (hf : more = true → s.ctx.curFlags = f) :
    operation f more buf s = .next { s with
      ctx := duplexContext buf cbefore false (openOp f more s.ctx)
      response := some ⟨0x00010000, duplexOutput buf cbefore cafter (openOp f more s.ctx)⟩ } := by
  rw [operation_runs buf h hf]
  simp only [operateResult, operatePayload, hclass, operateOutput, hbefore, hafter]
  rfl

/-- The result class PAYLOAD without a phase: the data are echoed (R223, R224). -/
theorem operation_echo {f : Byte} (hclass : resultClass f = .payload) (hbefore : phaseBefore f = false)
    (hafter : phaseAfter f = false) {more : Bool} (buf : List Byte) {s : State} (h : s.Operational)
    (hf : more = true → s.ctx.curFlags = f) :
    operation f more buf s = .next { s with
      ctx := duplexContext buf false false (openOp f more s.ctx)
      response := some ⟨0x00010000, buf⟩ } := by
  rw [operation_payload hclass hbefore hafter buf h hf, duplexOutput, loopOutput_clear]

/-- The result class NO_PAYLOAD: nothing is answered but OK (R187). -/
theorem operation_noPayload {f : Byte} {cbefore : Bool} (hclass : resultClass f = .noPayload)
    (hbefore : phaseBefore f = cbefore) {more : Bool} (buf : List Byte) {s : State} (h : s.Operational)
    (hf : more = true → s.ctx.curFlags = f) :
    operation f more buf s = .next { s with
      ctx := duplexContext buf cbefore false (openOp f more s.ctx)
      response := some ⟨0x00010000, []⟩ } := by
  rw [operation_runs buf h hf]
  simp only [operateResult, operatePayload, hclass, hbefore]
  rfl

/-- The status word of the two verdicts of R188. -/
theorem statusWord_verify (processed : List Byte) :
    statusWord (if processed.any (fun b => b != 0) then .authFailed else .ok) .none .ready =
      if ∀ b ∈ processed, b = 0 then 0x00010000 else 0x00010001 := by
  by_cases hz : ∀ b ∈ processed, b = 0
  · rw [if_pos hz, if_neg (by simpa using hz)]
    rfl
  · rw [if_neg hz, if_pos (by simpa using hz)]
    rfl

/-- The result class VERIFY: AUTH_FAILED when a processed byte is not zero (R188). -/
theorem operation_verify {f : Byte} {cbefore cafter : Bool} (hclass : resultClass f = .verify)
    (hbefore : phaseBefore f = cbefore) (hafter : phaseAfter f = cafter) {more : Bool} (buf : List Byte)
    {s : State} (h : s.Operational) (hf : more = true → s.ctx.curFlags = f) :
    operation f more buf s = .next { s with
      ctx := duplexContext buf cbefore false (openOp f more s.ctx)
      response := some
        ⟨if ∀ b ∈ duplexOutput buf cbefore cafter (openOp f more s.ctx), b = 0 then 0x00010000
          else 0x00010001, []⟩ } := by
  rw [operation_runs buf h hf]
  simp only [operateResult, operatePayload, hclass, operateOutput, hbefore, hafter]
  rw [statusWord_verify]

/-- Settles O60, by the result class and the phase of each operation's flags, with M and without. -/
theorem operationsRunTheDuplex : Obligations.OperationsRunTheDuplex := by
  intro s m more data len h
  refine ⟨fun hf => ?_, fun hf => ?_, fun hf => ?_, fun hf => ?_, fun hf => ?_, fun hf => ?_, fun hf => ?_,
    fun hf => ?_, fun hmore hf => ?_, fun hmore hf => ?_⟩
  · cases m <;> exact operation_noPayload rfl rfl data h hf
  · exact operation_noPayload rfl rfl data h hf
  · exact operation_payload rfl rfl rfl _ h hf
  · cases m <;> exact operation_echo rfl rfl rfl data h hf
  · cases m <;> exact operation_echo rfl rfl rfl data h hf
  · cases m <;> exact operation_payload rfl rfl rfl data h hf
  · cases m <;> exact operation_payload rfl rfl rfl data h hf
  · cases m <;> exact operation_payload rfl rfl rfl _ h hf
  · subst hmore
    cases m <;> exact operation_verify rfl rfl rfl data h hf
  · subst hmore
    cases m <;> exact operation_noPayload rfl rfl _ h hf

end Sys2Proof.Machine
end

section
/-! PROOFS. The operation layer: flag words, the framing inside a block, the registers and the state bytes an
operation leaves, streaming, and the two ends of a paired operation. -/

namespace Sys2Proof.Machine

/-! ## Flag words (R183, R186, R190) -/

/-- `cbefore` asks that `cafter` is not set (R161, R186). -/
theorem phases_exclusive (f : Byte) : ¬ (phaseBefore f = true ∧ phaseAfter f = true) := by
  rw [phaseBefore, Bool.and_eq_true, Bool.not_eq_true']
  rintro ⟨⟨-, hafter⟩, h⟩
  exact Bool.false_ne_true (hafter.symm.trans h)

/-- Settles O8: the phases exclude each other by definition, and the ten flag words are evaluated. -/
theorem phasesOfTheTenOperations : Obligations.PhasesOfTheTenOperations :=
  ⟨phases_exclusive, by decide⟩

/-- The flag byte of a Responder's operation with T (R183). -/
theorem framingFlags_responder {f : Byte} (hT : hasFlag f flagT = true) :
    framingFlags f .responder = f ^^^ flagI := by
  simp [framingFlags, hT]

/-- The flag byte of every other operation (R183). -/
theorem framingFlags_unmasked {f : Byte} {r : Role} (h : hasFlag f flagT = false ∨ r ≠ .responder) :
    framingFlags f r = f := by
  obtain h | h := h <;> simp [framingFlags, h]

/-- Settles O9: the mask applies to a Responder's operation with T and to no other. -/
theorem responderFlipsTheFramingByte : Obligations.ResponderFlipsTheFramingByte := by
  refine fun f r => ⟨fun hT hr => ?_, fun h => framingFlags_unmasked (h.imp_left fun hT => ?_)⟩
  · rw [hr]
    exact framingFlags_responder ((hasFlag_iff f flagT).2 hT)
  · exact Bool.eq_false_iff.2 fun hset => (hasFlag_iff f flagT).1 hset hT

/-! ## Framing inside a block (R184) -/

/-- The first framing byte inside a block. -/
theorem framingMiddle_inside (f : Byte) {c : Context} (h : indicesInRange c = true)
    (hp : c.pos.toNat + 1 < c.rate.toNat) :
    framingMiddle f c = { absorbByte false (framingStart f c) c.posBegin with pos := c.pos + 1 } :=
  byteStep_inside (framingStart_inRange f h) hp false c.posBegin

/-- Where the first framing byte leaves `pos` inside a block. -/
theorem framingMiddle_inside_pos (f : Byte) {c : Context} (h : indicesInRange c = true)
    (hp : c.pos.toNat + 1 < c.rate.toNat) : (framingMiddle f c).pos.toNat = c.pos.toNat + 1 := by
  rw [framingMiddle_inside f h hp]
  exact pos_succ_toNat h

/-- Both framing bytes inside a block, without C. -/
theorem beginOp_inside {f : Byte} {c : Context} (h : indicesInRange c = true)
    (hC : hasFlag f flagC = false) (hp : c.pos.toNat + 2 < c.rate.toNat) :
    beginOp f c =
      { absorbByte false (framingMiddle f c) (flagByte f c) with pos := c.pos + 2, curFlags := f } := by
  have hnext : (framingMiddle f c).pos + 1 = c.pos + 2 := by
    rw [framingMiddle_inside f h (by omega)]
    exact BitVec.add_assoc _ _ _
  have hinside : (framingMiddle f c).pos.toNat + 1 < (framingMiddle f c).rate.toNat := by
    rw [framingMiddle_inside_pos f h (by omega), framingMiddle_rate]
    exact hp
  rw [beginOp_eq, hC, forceBlock_false, byteStep_inside (framingMiddle_inRange f h) hinside, hnext]

/-- Settles O19: each framing byte is absorbed by a turn inside the block. -/
theorem framingInsideABlock : Obligations.FramingInsideABlock := by
  intro c f hv hC hp
  have h := hv.inRange
  have hbegin : beginOp f c = _ :=
    beginOp_inside h (Bool.eq_false_iff.2 fun hset => (hasFlag_iff f flagC).1 hset hC) hp
  have hmiddle := framingMiddle_inside f h (by omega)
  refine ⟨fun j => ?_, by rw [hbegin, hmiddle]; rfl⟩
  have hfirst : memRead (framingMiddle f c) j =
      memRead c j ^^^ (if j = c.pos.toNat then c.posBegin else 0) := by
    rw [hmiddle]
    exact memRead_absorbByte_false (framingStart_inRange f h) c.posBegin j
  calc memRead (beginOp f c) j
      = memRead (absorbByte false (framingMiddle f c) (flagByte f c)) j := by rw [hbegin]; rfl
    _ = memRead (framingMiddle f c) j ^^^ (if j = c.pos.toNat + 1 then flagByte f c else 0) := by
        rw [memRead_absorbByte_false (framingMiddle_inRange f h), framingMiddle_inside_pos f h (by omega)]
    _ = _ := by rw [hfirst]; rfl

/-! ## The registers an operation leaves (R164, R184, R185) -/

/-- An operational state has its indices in range. -/
theorem State.Operational.inRange {s : State} (h : s.Operational) : indicesInRange s.ctx = true := by
  obtain ⟨-, -, hc⟩ := h
  exact hc.inRange

/-- The data phase starts in range. -/
theorem openOp_inRange (f : Byte) (more : Bool) {c : Context} (h : indicesInRange c = true) :
    indicesInRange (openOp f more c) = true := by
  cases more with
  | true => exact h
  | false => exact beginOp_inRange f h

/-- Where the framing leaves `posBegin`: at 0 with C, and one past the old `pos` without, unless a framing byte
filled the block. -/
theorem beginOp_posBegin (f : Byte) {c : Context} (h : indicesInRange c = true) :
    (beginOp f c).posBegin =
      if hasFlag f flagC = true then 0 else if c.rate.toNat ≤ c.pos.toNat + 2 then 0 else c.pos + 1 := by
  split
  · next hC => rw [beginOp_cipher h hC]
  · next hC =>
    rw [beginOp_eq, Bool.eq_false_iff.2 hC, forceBlock_false]
    exact loopContext_posBegin false [_, _] (framingStart_inRange f h)

/-- The byte count from which the data phase of an operation counts on: where a continuation finds `pos`, 0 in
the fresh block that C opens, and past the two framing bytes otherwise. -/
def dataStart (cipher more : Bool) (c : Context) : Nat :=
  if more then c.pos.toNat else if cipher then 0 else c.pos.toNat + 2

/-- `posBegin` after an operation that ends no block. -/
def dataBegin (cipher more : Bool) (c : Context) : Byte :=
  if more then c.posBegin else if cipher then 0 else c.pos + 1

/-- Where an operation leaves `pos`. -/
theorem operateContext_pos_toNat {f : Byte} {cipher : Bool} (hC : hasFlag f flagC = cipher)
    (buf : List Byte) (more : Bool) {c : Context} (h : indicesInRange c = true) :
    (operateContext f buf more c).pos.toNat = (dataStart cipher more c + buf.length) % c.rate.toNat := by
  have hloop := loopContext_pos_toNat (phaseBefore f) buf (openOp_inRange f more h)
  cases more with
  | true => exact hloop
  | false =>
    refine hloop.trans ?_
    rw [openOp_false, beginOp_rate, beginOp_pos_toNat f h, hC]
    cases cipher with
    | true => rfl
    | false => exact Nat.mod_add_mod _ _ _

/-- Where an operation leaves `posBegin`: at 0 when a block ended. -/
theorem operateContext_posBegin {f : Byte} {cipher : Bool} (hC : hasFlag f flagC = cipher)
    (buf : List Byte) (more : Bool) {c : Context} (h : indicesInRange c = true) :
    (operateContext f buf more c).posBegin =
      if c.rate.toNat ≤ dataStart cipher more c + buf.length then 0 else dataBegin cipher more c := by
  have hloop := loopContext_posBegin (phaseBefore f) buf (openOp_inRange f more h)
  cases more with
  | true => exact hloop
  | false =>
    refine hloop.trans ?_
    rw [openOp_false, beginOp_rate, beginOp_pos_toNat f h, beginOp_posBegin f h, hC]
    cases cipher with
    | true => rfl
    | false =>
      simp only [Bool.false_eq_true, if_false, dataStart, dataBegin]
      by_cases hend : c.rate.toNat ≤ c.pos.toNat + 2
      · rw [if_pos hend, ite_self, if_pos (by omega)]
      · rw [if_neg hend, Nat.mod_eq_of_lt (by omega)]

/-- Role binding looks at the flag word only for an undecided role (R182). -/
theorem bindRole_eq (f : Byte) (r : Role) :
    bindRole f r = if r = .undecided then bindRole f .undecided else r := by
  split
  · next hr => rw [hr]
  · next hr => exact bindRole_bound f hr

/-- What an operation with these flags and `n` bytes of data leaves in the registers of the context. -/
abbrev Context.RunsTo (f : Byte) (cipher more : Bool) (n : Nat) (c d : Context) : Prop :=
  d.pos.toNat = (dataStart cipher more c + n) % c.rate.toNat ∧
  d.posBegin = (if c.rate.toNat ≤ dataStart cipher more c + n then 0 else dataBegin cipher more c) ∧
  d.rate = c.rate ∧ d.initialized = c.initialized ∧ d.curFlags = f ∧
  d.i0 = if more = false ∧ c.i0 = .undecided then bindRole f .undecided else c.i0

/-- The registers of the context after an operation (R164, R181 to R185). -/
theorem operation_runsTo {f : Byte} {cipher cbefore more : Bool} {buf : List Byte} {n : Nat}
    {c : Context} (hn : buf.length = n) (h : indicesInRange c = true) (hf : more = true → c.curFlags = f)
    (hC : hasFlag f flagC = cipher) (hbefore : phaseBefore f = cbefore) :
    c.RunsTo f cipher more n (duplexContext buf cbefore false (openOp f more c)) := by
  subst hn hbefore
  refine ⟨operateContext_pos_toNat hC buf more h, operateContext_posBegin hC buf more h,
    operateContext_rate f buf more c, operateContext_initialized f buf more c, ?_, ?_⟩
  · refine (operateContext_curFlags f buf more c).trans ?_
    cases more with
    | true => exact hf rfl
    | false => rfl
  · refine (operateContext_i0 f buf more c).trans ?_
    rw [bindRole_eq]
    cases more <;> simp

/-- Settles O22: the duplex on the data, whose registers are those of `operate`. -/
theorem absorbingOperationsComplete : Obligations.AbsorbingOperationsComplete := by
  intro s m more data h
  have hr := h.inRange
  obtain ⟨had, -, -, hsend, hrecv, -⟩ := operationsRunTheDuplex s m more data 0 h
  refine ⟨fun hf => ⟨_, had hf, ⟨rfl, rfl, rfl⟩, rfl, ?_⟩, fun hf => ⟨_, hsend hf, ⟨rfl, rfl, rfl⟩, rfl, ?_⟩,
    fun hf => ⟨_, hrecv hf, ⟨rfl, rfl, rfl⟩, rfl, ?_⟩⟩
  all_goals cases m <;> exact operation_runsTo (cipher := false) rfl hr hf rfl rfl

/-- Settles O23: the same with C, where OUT has a byte for each byte of the processed buffer. -/
theorem cipherOperationsComplete : Obligations.CipherOperationsComplete := by
  intro s m more data len h
  have hr := h.inRange
  have hz : (List.replicate len.toNat (0 : Byte)).length = len.toNat := List.length_replicate
  obtain ⟨-, hkey, hprf, -, -, hsend, hrecv, hmac, -, hratchet⟩ :=
    operationsRunTheDuplex s m more data len h
  refine ⟨fun hf => ⟨_, _, hkey hf, ⟨rfl, rfl, rfl⟩, rfl, rfl, ?_⟩,
    fun hf => ⟨_, _, hprf hf, ⟨rfl, rfl, rfl⟩, rfl, (loopOutput_length ..).trans hz, ?_⟩,
    fun hf => ⟨_, _, hsend hf, ⟨rfl, rfl, rfl⟩, rfl, loopOutput_length .., ?_⟩,
    fun hf => ⟨_, _, hrecv hf, ⟨rfl, rfl, rfl⟩, rfl, loopOutput_length .., ?_⟩,
    fun hf => ⟨_, _, hmac hf, ⟨rfl, rfl, rfl⟩, rfl, (loopOutput_length ..).trans hz, ?_⟩,
    fun hmore hf => ⟨_, _, hratchet hmore hf, ⟨rfl, rfl, rfl⟩, rfl, rfl, ?_⟩⟩
  · exact operation_runsTo (cipher := true) rfl hr hf rfl rfl
  · exact operation_runsTo (cipher := true) hz hr hf rfl rfl
  · cases m <;> exact operation_runsTo (cipher := true) rfl hr hf rfl rfl
  · cases m <;> exact operation_runsTo (cipher := true) rfl hr hf rfl rfl
  · cases m <;> exact operation_runsTo (cipher := true) hz hr hf rfl rfl
  · cases m <;> exact operation_runsTo (cipher := true) hz hr hf rfl rfl

/-- Settles O24: RECV_MAC runs the duplex whatever the verdict, which looks at no byte when there is none. -/
theorem recvMacCompletes : Obligations.RecvMacCompletes := by
  intro s m data h
  obtain ⟨-, -, -, -, -, -, -, -, hrun, -⟩ := operationsRunTheDuplex s m false data 0 h
  have hregs : s.ctx.RunsTo (if m then 0x1D else 0x0D) true false data.length
      (duplexContext data true false (openOp (if m then 0x1D else 0x0D) false s.ctx)) := by
    cases m <;> exact operation_runsTo rfl h.inRange nofun rfl rfl
  obtain ⟨hpos, hbegin, hrate, hinit, hflags, hrole⟩ := hregs
  refine ⟨_, _, hrun rfl nofun, ⟨rfl, rfl, rfl⟩, rfl, ite_eq_or_eq .., ?_, ?_, ?_, hrate, hinit, hflags, ?_⟩
  · rintro rfl
    exact if_pos fun b hb => by cases hb
  · exact hpos.trans (by rw [dataStart]; simp)
  · exact hbegin.trans (by rw [dataBegin]; simp)
  · have hbind : bindRole (if m then 0x1D else 0x0D) .undecided = .responder := by cases m <;> rfl
    exact hrole.trans (by rw [hbind]; simp)

/-! ## Data inside a block (R163, R190) -/

/-- A turn inside a block changes the byte at `pos` alone. -/
theorem memRead_byteStep_inside {c : Context} (h : indicesInRange c = true)
    (hp : c.pos.toNat + 1 < c.rate.toNat) (cbefore : Bool) (b : Byte) (j : Nat) :
    memRead (byteStep cbefore c b) j =
      if j = c.pos.toNat then (if cbefore then b else memRead c j ^^^ b) else memRead c j := by
  rw [byteStep_inside h hp, ← memRead_absorbByte cbefore b h]
  rfl

/-- The position after a turn inside a block. -/
theorem byteStep_inside_pos {c : Context} (h : indicesInRange c = true)
    (hp : c.pos.toNat + 1 < c.rate.toNat) (cbefore : Bool) (b : Byte) :
    (byteStep cbefore c b).pos.toNat = c.pos.toNat + 1 := by
  rw [byteStep_pos_toNat cbefore b h, Nat.mod_eq_of_lt hp]

/-- Every state byte after data inside a block: a byte that meets data is replaced with `cbefore` and XORed
without, and every other byte stays. -/
theorem memRead_duplexContext_inside (cbefore : Bool) {c : Context} (data : List Byte)
    (h : indicesInRange c = true) (hfits : c.pos.toNat + data.length < c.rate.toNat) (j : Nat) :
    memRead (duplexContext data cbefore false c) j =
      if c.pos.toNat ≤ j ∧ j < c.pos.toNat + data.length then
        (if cbefore then data.getD (j - c.pos.toNat) 0
          else memRead c j ^^^ data.getD (j - c.pos.toNat) 0)
      else memRead c j := by
  induction data generalizing c with
  | nil => exact (if_neg fun hj => by rw [List.length_nil] at hj; omega).symm
  | cons b rest ih =>
    rw [List.length_cons] at hfits ⊢
    have hinside : c.pos.toNat + 1 < c.rate.toNat := by omega
    have hpos := byteStep_inside_pos h hinside cbefore b
    refine (ih (byteStep_inRange cbefore b h) (by rw [hpos, byteStep_rate]; omega)).trans ?_
    rw [hpos, memRead_byteStep_inside h hinside]
    obtain hj | rfl | hj := Nat.lt_trichotomy j c.pos.toNat
    · rw [if_neg (by omega), if_neg (by omega), if_neg (by omega)]
    · have hpast : ¬ (c.pos.toNat + 1 ≤ c.pos.toNat ∧ c.pos.toNat < c.pos.toNat + 1 + rest.length) := by omega
      have hmeets : c.pos.toNat ≤ c.pos.toNat ∧ c.pos.toNat < c.pos.toNat + (rest.length + 1) := by omega
      rw [if_neg hpast, if_pos rfl, if_pos hmeets, Nat.sub_self]
      rfl
    · rw [if_neg (Nat.ne_of_gt hj), show j - c.pos.toNat = j - (c.pos.toNat + 1) + 1 by omega]
      exact if_congr (by omega) rfl rfl

/-- The processed bytes inside a block with exactly one of the two phases: each data byte XOR the state byte it meets. -/
theorem duplexOutput_inside (cbefore cafter : Bool) (hphase : (cbefore ^^ cafter) = true) {c : Context}
    (data : List Byte) (h : indicesInRange c = true) (hfits : c.pos.toNat + data.length < c.rate.toNat) :
    duplexOutput data cbefore cafter c =
      (List.range data.length).map fun i => memRead c (c.pos.toNat + i) ^^^ data.getD i 0 := by
  have hlegal : ¬ (cbefore = true ∧ cafter = true) := by
    rintro ⟨rfl, rfl⟩
    cases hphase
  have hany : (cbefore || cafter) = true := by
    cases cbefore with
    | true => rfl
    | false => rwa [Bool.false_xor] at hphase
  induction data generalizing c with
  | nil => rfl
  | cons b rest ih =>
    rw [List.length_cons] at hfits ⊢
    have hinside : c.pos.toNat + 1 < c.rate.toNat := by omega
    have hpos := byteStep_inside_pos h hinside cbefore b
    have hrest := ih (byteStep_inRange cbefore b h) (by rw [hpos, byteStep_rate]; omega)
    rw [duplexOutput, loopOutput_cons, processedByte_eq h b hlegal, if_pos hany, List.range_succ_eq_map,
      List.map_cons, List.map_map]
    refine congrArg _ (hrest.trans (List.map_congr_left fun i _ => ?_))
    rw [hpos, memRead_byteStep_inside h hinside, if_neg (by omega), Nat.add_right_comm, Nat.add_assoc]
    rfl

/-- Without `cbefore`, data inside a block as one XOR at every index. -/
theorem memRead_duplexContext_xor {c : Context} (data : List Byte) (h : indicesInRange c = true)
    (hfits : c.pos.toNat + data.length < c.rate.toNat) (j : Nat) :
    memRead (duplexContext data false false c) j = memRead c j ^^^
      (if c.pos.toNat ≤ j ∧ j < c.pos.toNat + data.length then data.getD (j - c.pos.toNat) 0 else 0) := by
  rw [memRead_duplexContext_inside false data h hfits]
  split
  · rfl
  · exact BitVec.xor_zero.symm

/-- With `cbefore`, data inside a block replaces the bytes it meets. -/
theorem memRead_duplexContext_overwrite {c : Context} {data : List Byte} {n : Nat} (hn : data.length = n)
    (h : indicesInRange c = true) (hfits : c.pos.toNat + data.length < c.rate.toNat) (j : Nat) :
    memRead (duplexContext data true false c) j =
      if c.pos.toNat ≤ j ∧ j < c.pos.toNat + n then data.getD (j - c.pos.toNat) 0 else memRead c j := by
  subst hn
  exact memRead_duplexContext_inside true data h hfits j

/-- Settles O25: without `cbefore` the data are XORed into the state. -/
theorem absorbingDataInsideABlock : Obligations.AbsorbingDataInsideABlock := by
  intro s m more data h
  have hopen (f : Byte) : indicesInRange (openOp f more s.ctx) = true := openOp_inRange f more h.inRange
  obtain ⟨had, -, -, hsend, hrecv, -⟩ := operationsRunTheDuplex s m more data 0 h
  exact ⟨fun hf hfits => ⟨_, had hf, rfl, memRead_duplexContext_xor data (hopen _) hfits⟩,
    fun hf hfits => ⟨_, hsend hf, rfl, memRead_duplexContext_xor data (hopen _) hfits⟩,
    fun hf hfits => ⟨_, hrecv hf, rfl, memRead_duplexContext_xor data (hopen _) hfits⟩⟩

/-- A byte of a zero buffer changes nothing by XOR. -/
theorem xor_getD_replicate_zero (v : Byte) (n i : Nat) : v ^^^ (List.replicate n (0 : Byte)).getD i 0 = v := by
  rw [List.getD_eq_getElem?_getD, List.getElem?_replicate]
  split <;> exact BitVec.xor_zero

/-- Over a zero buffer the processed bytes are the state bytes it meets. -/
theorem duplexOutput_zeros_inside (cbefore cafter : Bool) (hphase : (cbefore ^^ cafter) = true)
    {c : Context} (n : Nat) (h : indicesInRange c = true) (hfits : c.pos.toNat + n < c.rate.toNat) :
    duplexOutput (List.replicate n 0) cbefore cafter c =
      (List.range n).map fun i => memRead c (c.pos.toNat + i) := by
  rw [duplexOutput_inside cbefore cafter hphase _ h (by rwa [List.length_replicate]), List.length_replicate]
  simp only [xor_getD_replicate_zero]

/-- Without `cbefore`, a zero buffer leaves every state byte inside a block. -/
theorem memRead_duplexContext_zeros {c : Context} (n : Nat) (h : indicesInRange c = true)
    (hfits : c.pos.toNat + n < c.rate.toNat) (j : Nat) :
    memRead (duplexContext (List.replicate n 0) false false c) j = memRead c j := by
  rw [memRead_duplexContext_inside false _ h (by rwa [List.length_replicate])]
  split
  · exact xor_getD_replicate_zero _ n _
  · rfl

/-- Every processed byte is 0 exactly when each data byte equals the state byte it meets (R188). -/
theorem duplexOutput_eq_zero_iff {c : Context} (data : List Byte) (h : indicesInRange c = true)
    (hfits : c.pos.toNat + data.length < c.rate.toNat) :
    (∀ b ∈ duplexOutput data true false c, b = 0) ↔
      ∀ i < data.length, data.getD i 0 = memRead c (c.pos.toNat + i) := by
  rw [duplexOutput_inside true false rfl data h hfits]
  simp only [List.forall_mem_map, List.mem_range]
  exact forall₂_congr fun i _ => BitVec.xor_eq_zero_iff.trans eq_comm

/-- Settles O26: with `cbefore` the data replace the state bytes, which unmask the processed buffer. -/
theorem overwritingDataInsideABlock : Obligations.OverwritingDataInsideABlock := by
  intro s m more data len h
  have hopen (f : Byte) : indicesInRange (openOp f more s.ctx) = true := openOp_inRange f more h.inRange
  have hz : (List.replicate len.toNat (0 : Byte)).length = len.toNat := List.length_replicate
  obtain ⟨-, hkey, hprf, -, -, -, hrecv, -, hmac, hratchet⟩ := operationsRunTheDuplex s m more data len h
  refine ⟨fun hf hfits => ⟨_, hkey hf, rfl, memRead_duplexContext_overwrite rfl (hopen _) hfits⟩,
    fun hf hfits => ⟨_, hrecv hf, ?_, memRead_duplexContext_overwrite rfl (hopen _) hfits⟩,
    fun hmore hf hfits => ⟨_, hmac hmore hf, ?_, memRead_duplexContext_overwrite rfl (hopen _) hfits⟩,
    fun hf hfits => ⟨_, hprf hf, ?_, memRead_duplexContext_overwrite rfl (hopen _) hfits⟩,
    fun hmore hf hfits => ⟨_, hratchet hmore hf, rfl, memRead_duplexContext_overwrite rfl (hopen _) hfits⟩⟩
  · simp only [duplexOutput_inside true false rfl data (hopen _) hfits, BitVec.xor_comm]
  · simp only [duplexOutput_eq_zero_iff data (hopen _) hfits]
  · rw [hz] at hfits
    simp only [duplexOutput_zeros_inside true false rfl _ (hopen _) hfits]

/-- Settles O27: with `cafter` the processed buffer is the new state bytes, and zeros leave them as they are. -/
theorem sendingDataInsideABlock : Obligations.SendingDataInsideABlock := by
  intro s m more data len h
  have hopen (f : Byte) : indicesInRange (openOp f more s.ctx) = true := openOp_inRange f more h.inRange
  obtain ⟨-, -, -, -, -, hsend, -, hmac, -, -⟩ := operationsRunTheDuplex s m more data len h
  refine ⟨fun hf hfits => ⟨_, hsend hf, ?_, memRead_duplexContext_xor data (hopen _) hfits⟩,
    fun hf hfits => ⟨_, hmac hf, ?_, memRead_duplexContext_zeros _ (hopen _) hfits⟩⟩
  · simp only [duplexOutput_inside false true rfl data (hopen _) hfits]
  · simp only [duplexOutput_zeros_inside false true rfl _ (hopen _) hfits]

/-! ## Streaming (R193, R194, R195) -/

/-- The context of an operation whose data is split (R165, R193). -/
theorem operateContext_append (f : Byte) (a b : List Byte) (more : Bool) (c : Context) :
    operateContext f (a ++ b) more c = operateContext f b true (operateContext f a more c) :=
  (duplexChunking a b _ false _).1

/-- The processed buffer of an operation whose data is split. -/
theorem operateOutput_append (f : Byte) (a b : List Byte) (more : Bool) (c : Context) :
    operateOutput f (a ++ b) more c =
      operateOutput f a more c ++ operateOutput f b true (operateContext f a more c) :=
  (duplexChunking a b _ _ _).2

/-- OUT is the processed buffer or empty, so it is split where the buffer is. -/
theorem operatePayload_append (f : Byte) (x y : List Byte) :
    operatePayload f (x ++ y) = operatePayload f x ++ operatePayload f y := by
  unfold operatePayload
  cases resultClass f <;> rfl

/-- An operation and its continuation do what the operation does on the joined data (R193): the first leaves an
operational state with its own flags in `curFlags`. -/
theorem operation_splits {f : Byte} {more : Bool} (a b : List Byte) {s : State} (h : s.Operational)
    (hreserved : f &&& 0xE0 = 0) (hf : more = true → s.ctx.curFlags = f) :
    ∃ t u v, operation f more (a ++ b) s = .next t ∧ operation f more a s = .next u ∧
      operation f true b u = .next v ∧ v.ctx = t.ctx ∧ lastOut u ++ lastOut v = lastOut t := by
  have hu : State.Operational (respond (operateResult f (operateOutput f a more s.ctx))
      (operatePayload f (operateOutput f a more s.ctx)) { s with ctx := operateContext f a more s.ctx }) :=
    runOperate_operational h hreserved (runOperate_inRange f a more h.inRange)
  have hflags : (operateContext f a more s.ctx).curFlags = f := by
    rw [operateContext_curFlags]
    cases more with
    | true => exact hf rfl
    | false => rfl
  refine ⟨_, _, _, operation_completes f more (a ++ b) h hf, operation_completes f more a h hf,
    operation_completes f true b hu fun _ => hflags, ?_, ?_⟩
  · exact (operateContext_append f a b more s.ctx).symm
  · exact (operatePayload_append ..).symm.trans
      (congrArg _ (operateOutput_append f a b more s.ctx).symm)

/-- Zero buffers join, while the sum of their lengths fits LEN (R192). -/
theorem zeros_add {la lb : Word} (hlen : la.toNat + lb.toNat < 2 ^ 32) :
    zeros (la + lb).toNat = zeros la.toNat ++ zeros lb.toNat := by
  rw [BitVec.toNat_add, Nat.mod_eq_of_lt hlen]
  exact List.replicate_add ..

/-- Settles O28: each form is an operation, on its data or on zeros. -/
theorem streamingEquivalence : Obligations.StreamingEquivalence := by
  intro s m more a b la lb h hlen
  have hzeros {f : Byte} := operation_splits (f := f) (more := more) (zeros la.toNat) (zeros lb.toNat) h
  rw [← zeros_add hlen] at hzeros
  refine ⟨?_, operation_splits a b h (by decide), hzeros (by decide), ?_, ?_, ?_, ?_,
    by cases m <;> exact hzeros (by decide)⟩
  all_goals cases m <;> exact operation_splits a b h (by decide)

/-- Settles O29: the duplex on no data is the context in which the data phase starts. -/
theorem zeroLengthOperations : Obligations.ZeroLengthOperations := by
  intro s m h
  obtain ⟨had, hkey, hprf, hsendClr, hrecvClr, hsendEnc, hrecvEnc, hsendMac, -, -⟩ :=
    operationsRunTheDuplex s m true [] 0 h
  obtain ⟨fad, fkey, fprf, fsendClr, frecvClr, fsendEnc, frecvEnc, fsendMac, frecvMac, fratchet⟩ :=
    operationsRunTheDuplex s m false [] 0 h
  refine ⟨⟨fun hf => had fun _ => hf, fun hf => hkey fun _ => hf, fun hf => hprf fun _ => hf,
      fun hf => hsendClr fun _ => hf, fun hf => hrecvClr fun _ => hf, fun hf => hsendEnc fun _ => hf,
      fun hf => hrecvEnc fun _ => hf, fun hf => hsendMac fun _ => hf⟩,
    fad nofun, fkey nofun, fprf nofun, fsendClr nofun, frecvClr nofun, fsendEnc nofun, frecvEnc nofun,
    fsendMac nofun, frecvMac rfl nofun, fratchet rfl nofun⟩

/-- Settles O34: INIT ends with an `operate` with the flags of AD.M, which AD.M.MORE continues. -/
theorem initContinuesTheProtocolString : Obligations.InitContinuesTheProtocolString := by
  intro s level a b hlevel
  have hvalid : validLevel level = true := by obtain rfl | rfl := hlevel <;> rfl
  have hinit (proto : List Byte) :
      exec (.init level proto) s = .next (respond .ok [] (becomeReady (initContext level proto) s)) :=
    if_pos hvalid
  have hu : State.Operational (respond .ok [] (becomeReady (initContext level a) s)) :=
    ⟨rfl, rfl, initContext_valid a hvalid⟩
  have hflags : (initContext level a).curFlags = withMeta flagsAd true := operateContext_curFlags ..
  exact ⟨_, _, _, hinit (a ++ b), hinit a, operation_completes _ true b hu fun _ => hflags,
    (operateContext_append (withMeta flagsAd true) a b false (initBootstrapped level)).symm⟩

/-! ## Two contexts with the same transcript (R230) -/

/-- A context with the two elements that are not in the transcript written anew. -/
def Context.relabel (f : Byte) (r : Role) (c : Context) : Context := { c with curFlags := f, i0 := r }

/-- Contexts with the same transcript are equal up to `curFlags` and `i0`. -/
theorem Context.SameTranscript.eq_relabel {c d : Context} (h : c.SameTranscript d) :
    d = c.relabel d.curFlags d.i0 := by
  obtain ⟨hst, hpos, hbegin, hrate, hinit⟩ := h
  rw [Context.relabel, hst, hpos, hbegin, hrate, hinit]

theorem padBlock_relabel (f : Byte) (r : Role) (c : Context) :
    padBlock (c.relabel f r) = (padBlock c).relabel f r := by
  show (if c.initialized = true then _ else _) = _
  rw [padBlock]
  split <;> rfl

theorem runF_relabel (f : Byte) (r : Role) (c : Context) : runF (c.relabel f r) = (runF c).relabel f r := by
  rw [runF, padBlock_relabel]
  rfl

theorem advance_relabel (f : Byte) (r : Role) (c : Context) :
    advance (c.relabel f r) = (advance c).relabel f r := by
  show (if c.pos + 1 = c.rate then _ else _) = _
  rw [advance]
  split
  · exact runF_relabel f r { c with pos := c.pos + 1 }
  · rfl

/-- The byte loop reads neither `curFlags` nor `i0` and writes neither. -/
theorem byteStep_relabel (cbefore : Bool) (f : Byte) (r : Role) (c : Context) (b : Byte) :
    byteStep cbefore (c.relabel f r) b = (byteStep cbefore c b).relabel f r :=
  advance_relabel f r (absorbByte cbefore c b)

theorem loopContext_relabel (cbefore : Bool) (f : Byte) (r : Role) (c : Context) (data : List Byte) :
    loopContext cbefore (c.relabel f r) data = (loopContext cbefore c data).relabel f r := by
  induction data generalizing c with
  | nil => rfl
  | cons b rest ih => rw [loopContext_cons, byteStep_relabel, ih, loopContext_cons]

theorem loopOutput_relabel (cbefore cafter : Bool) (f : Byte) (r : Role) (c : Context) (data : List Byte) :
    loopOutput cbefore cafter (c.relabel f r) data = loopOutput cbefore cafter c data := by
  induction data generalizing c with
  | nil => rfl
  | cons b rest ih =>
    rw [loopOutput_cons, byteStep_relabel, ih, loopOutput_cons]
    rfl

theorem forceBlock_relabel (forceF : Bool) (f : Byte) (r : Role) (c : Context) :
    forceBlock forceF (c.relabel f r) = (forceBlock forceF c).relabel f r := by
  show (if (forceF && c.pos != 0) = true then _ else _) = _
  rw [forceBlock]
  split
  · exact runF_relabel f r c
  · rfl

/-- The duplex primitive keeps equal transcripts equal, on the same data. -/
theorem duplexContext_sameTranscript (data : List Byte) (cbefore forceF : Bool) {c d : Context}
    (h : c.SameTranscript d) :
    (duplexContext data cbefore forceF c).SameTranscript (duplexContext data cbefore forceF d) := by
  rw [h.eq_relabel]
  simp only [duplexContext, loopContext_relabel, forceBlock_relabel]
  exact ⟨rfl, rfl, rfl, rfl, rfl⟩

/-- The processed buffer depends on the transcript alone. -/
theorem duplexOutput_sameTranscript (data : List Byte) (cbefore cafter : Bool) {c d : Context}
    (h : c.SameTranscript d) :
    duplexOutput data cbefore cafter c = duplexOutput data cbefore cafter d := by
  rw [h.eq_relabel]
  exact (loopOutput_relabel ..).symm

/-- Framings with the same flag byte, with or without C both, keep equal transcripts equal. -/
theorem beginOp_sameTranscript {f g : Byte} {c d : Context} (h : c.SameTranscript d)
    (hC : hasFlag f flagC = hasFlag g flagC) (hbyte : flagByte f c = flagByte g d) :
    (beginOp f c).SameTranscript (beginOp g d) := by
  have hstart : (framingStart f c).SameTranscript (framingStart g d) := by
    obtain ⟨hst, hpos, -, hrate, hinit⟩ := h
    exact ⟨hst, hpos, congrArg (· + 1) hpos, hrate, hinit⟩
  obtain ⟨-, -, hbegin, -, -⟩ := h
  have hd : beginOp g d =
      { duplexContext [c.posBegin, flagByte f c] false (hasFlag f flagC) (framingStart g d) with
        curFlags := g } := by
    rw [hbegin, hbyte, hC]
    rfl
  rw [hd]
  exact duplexContext_sameTranscript [c.posBegin, flagByte f c] false (hasFlag f flagC) hstart

/-! ## The two ends of a cipher (R225 to R228) -/

/-- The receiver's turn on a byte is the sender's turn on that byte unmasked. -/
theorem byteStep_unmasked (c : Context) (b : Byte) :
    byteStep false c (unmasked true c b) = byteStep true c b := rfl

/-- Unmasking gives back the byte the sender masked. -/
theorem unmasked_processedByte {c : Context} (h : indicesInRange c = true) (b : Byte) :
    unmasked true c (processedByte false true c b) = b := by
  rw [processedByte_eq h b (by decide)]
  show memRead c c.pos.toNat ^^^ b ^^^ memRead c c.pos.toNat = b
  rw [BitVec.xor_comm, ← BitVec.xor_assoc, BitVec.xor_self, BitVec.zero_xor]

/-- Masking gives back the byte the receiver unmasked. -/
theorem processedByte_unmasked {c : Context} (h : indicesInRange c = true) (b : Byte) :
    processedByte false true c (unmasked true c b) = b := by
  rw [processedByte_eq h _ (by decide)]
  show memRead c c.pos.toNat ^^^ (b ^^^ memRead c c.pos.toNat) = b
  rw [BitVec.xor_comm b, ← BitVec.xor_assoc, BitVec.xor_self, BitVec.zero_xor]

/-- Receiving what was sent: the receiver's loop over the sender's processed buffer leaves the sender's context
and gives back the data. -/
theorem loop_receives_sent {c : Context} (data : List Byte) (h : indicesInRange c = true) :
    loopContext true c (loopOutput false true c data) = loopContext false c data ∧
    loopOutput true false c (loopOutput false true c data) = data := by
  induction data generalizing c with
  | nil => exact ⟨rfl, rfl⟩
  | cons b rest ih =>
    have hstep : byteStep true c (processedByte false true c b) = byteStep false c b := by
      rw [← byteStep_unmasked, unmasked_processedByte h]
    obtain ⟨hctx, hout⟩ := ih (byteStep_inRange false b h)
    rw [loopOutput_cons, loopContext_cons, loopOutput_cons, hstep]
    exact ⟨hctx, congrArg₂ List.cons (unmasked_processedByte h b) hout⟩

/-- Sending what was received gives back the received bytes. -/
theorem loopOutput_sends_received {c : Context} (data : List Byte) (h : indicesInRange c = true) :
    loopOutput false true c (loopOutput true false c data) = data := by
  induction data generalizing c with
  | nil => rfl
  | cons b rest ih =>
    have hrest := ih (byteStep_inRange true b h)
    rw [← byteStep_unmasked] at hrest
    exact congrArg₂ List.cons (processedByte_unmasked h b) hrest

/-- With equal transcripts, the receiver's duplex on what the sender processed keeps them equal and gives back
the sender's data. -/
theorem duplex_receives_sent (data : List Byte) {c d : Context} (h : c.SameTranscript d)
    (hr : indicesInRange c = true) :
    (duplexContext data false false c).SameTranscript
      (duplexContext (duplexOutput data false true c) true false d) ∧
    duplexOutput (duplexOutput data false true c) true false d = data := by
  obtain ⟨hctx, hout⟩ := loop_receives_sent data hr
  refine ⟨?_, (duplexOutput_sameTranscript _ true false h).symm.trans hout⟩
  have hsame := duplexContext_sameTranscript (duplexOutput data false true c) true false h
  rwa [show duplexContext (duplexOutput data false true c) true false c = duplexContext data false false c
    from hctx] at hsame

/-- The buffer that the receiver finds to be all zeros is the one the sender squeezed over zeros (R188, R227). -/
theorem duplexOutput_zero_iff_sent {c d : Context} (h : c.SameTranscript d) (hr : indicesInRange c = true)
    {mac : List Byte} {n : Nat} (hn : mac.length = n) :
    (∀ b ∈ duplexOutput mac true false d, b = 0) ↔
      mac = duplexOutput (List.replicate n 0) false true c := by
  rw [← duplexOutput_sameTranscript mac true false h]
  have hlength : (duplexOutput mac true false c).length = n := (loopOutput_length ..).trans hn
  have hzeros : (∀ b ∈ duplexOutput mac true false c, b = 0) ↔
      duplexOutput mac true false c = List.replicate n 0 := by
    rw [List.eq_replicate_iff, and_iff_right hlength]
  rw [hzeros]
  constructor
  · intro hz
    rw [← hz]
    exact (loopOutput_sends_received mac hr).symm
  · intro hmac
    rw [hmac]
    exact (loop_receives_sent _ hr).2

/-! ## Paired operations (R230) -/

/-- The flags T, I and C of a send, with T and without I, and of its receive, with T and I. -/
theorem flags_of_send {f : Byte} (h : f &&& 0x09 = 0x08) :
    hasFlag f flagT = true ∧ hasFlag f flagI = false ∧ hasFlag (f ^^^ flagI) flagT = true ∧
      hasFlag (f ^^^ flagI) flagI = true ∧ hasFlag (f ^^^ flagI) flagC = hasFlag f flagC := by
  decide +revert

/-- A send and its receive, with T and opposite in I, frame with the same byte when the roles they bind are
opposite: one of the two parties is the Responder, which inverts I (R182, R183). -/
theorem framingFlags_paired {f : Byte} {a b : Role} (hsend : f &&& 0x09 = 0x08) (h : a.Opposite b) :
    framingFlags f a = framingFlags (f ^^^ flagI) b := by
  obtain ⟨hT, -, hT', -, -⟩ := flags_of_send hsend
  obtain ⟨rfl, rfl⟩ | ⟨rfl, rfl⟩ := h
  · rw [framingFlags_unmasked (.inr (by decide)), framingFlags_responder hT', BitVec.xor_assoc,
      BitVec.xor_self, BitVec.xor_zero]
  · rw [framingFlags_responder hT, framingFlags_unmasked (.inr (by decide))]

/-- Role binding looks at T and I alone (R182). -/
theorem bindRole_congr {f g : Byte} (hT : hasFlag f flagT = hasFlag g flagT)
    (hI : hasFlag f flagI = hasFlag g flagI) (r : Role) : bindRole f r = bindRole g r := by
  unfold bindRole
  rw [hT, hI]

/-- The framings of a send and of its receive keep equal transcripts equal. -/
theorem beginOp_paired {f g : Byte} {c d : Context} (h : c.SameTranscript d) (hsend : f &&& 0x09 = 0x08)
    (hrecv : g = f ^^^ flagI) (hroles : (bindRole 0x08 c.i0).Opposite (bindRole 0x09 d.i0)) :
    (beginOp f c).SameTranscript (beginOp g d) := by
  subst hrecv
  obtain ⟨hT, hI, hT', hI', hC⟩ := flags_of_send hsend
  refine beginOp_sameTranscript h hC.symm ?_
  rw [flagByte, flagByte, bindRole_congr (g := 0x08) hT hI, bindRole_congr (g := 0x09) hT' hI']
  exact framingFlags_paired hsend hroles

/-- The framings of SEND_MAC and RECV_MAC, with M and without. -/
theorem beginOp_mac_paired (m : Bool) {c d : Context} (h : c.SameTranscript d)
    (hroles : (bindRole 0x08 c.i0).Opposite (bindRole 0x09 d.i0)) :
    (beginOp (if m then 0x1C else 0x0C) c).SameTranscript (beginOp (if m then 0x1D else 0x0D) d) := by
  cases m <;> exact beginOp_paired h (by decide) (by decide) hroles

/-- An operation without T does the same to two parties with equal transcripts, whatever their roles. -/
theorem operation_sameTranscript {f : Byte} (hT : hasFlag f flagT = false) (buf : List Byte) {s r : State}
    (hs : s.Operational) (hr : r.Operational) (h : s.ctx.SameTranscript r.ctx) :
    ∃ s' r', operation f false buf s = .next s' ∧ operation f false buf r = .next r' ∧
      s'.ctx.SameTranscript r'.ctx ∧ s'.response = r'.response := by
  have hbegin : (beginOp f s.ctx).SameTranscript (beginOp f r.ctx) := by
    refine beginOp_sameTranscript h rfl ?_
    rw [flagByte, flagByte, framingFlags_unmasked (.inl hT), framingFlags_unmasked (.inl hT)]
  have hout : operateOutput f buf false s.ctx = operateOutput f buf false r.ctx :=
    duplexOutput_sameTranscript buf _ _ hbegin
  refine ⟨_, _, operation_runs buf hs nofun, operation_runs buf hr nofun,
    duplexContext_sameTranscript buf _ false hbegin, ?_⟩
  rw [hout]

/-- The response of RECV_MAC is OK exactly when its check passes. -/
theorem verdict_eq_ok_iff (P : Prop) [Decidable P] :
    some (⟨if P then 0x00010000 else 0x00010001, []⟩ : Response) = some ⟨0x00010000, []⟩ ↔ P := by
  split
  · next h => exact iff_of_true rfl h
  · next h => exact iff_of_false (by decide) h

/-- Settles O30: the framings keep the transcripts equal, and the receiver's duplex undoes the sender's. -/
theorem pairedOperationsKeepTranscripts : Obligations.PairedOperationsKeepTranscripts := by
  intro s r m data len hs hr hsame
  refine ⟨?_, fun hroles => ?_⟩
  · simp only [List.forall_mem_cons]
    exact ⟨operation_sameTranscript (by cases m <;> rfl) data hs hr hsame,
      operation_sameTranscript rfl data hs hr hsame, operation_sameTranscript rfl _ hs hr hsame,
      operation_sameTranscript (by cases m <;> rfl) _ hs hr hsame, fun _ hi => absurd hi List.not_mem_nil⟩
  have hclr : (beginOp (if m then 0x1A else 0x0A) s.ctx).SameTranscript
      (beginOp (if m then 0x1B else 0x0B) r.ctx) := by
    cases m <;> exact beginOp_paired hsame (by decide) (by decide) hroles
  have henc : (beginOp (if m then 0x1E else 0x0E) s.ctx).SameTranscript
      (beginOp (if m then 0x1F else 0x0F) r.ctx) := by
    cases m <;> exact beginOp_paired hsame (by decide) (by decide) hroles
  have hmac := beginOp_mac_paired m hsame hroles
  obtain ⟨-, -, -, hsendClr, -, hsendEnc, -, hsendMac, -, -⟩ :=
    operationsRunTheDuplex s m false data len hs
  refine ⟨?_, ?_, ?_⟩
  · obtain ⟨-, -, -, -, hrecvClr, -⟩ := operationsRunTheDuplex r m false data len hr
    exact ⟨_, _, hsendClr nofun, hrecvClr nofun, duplexContext_sameTranscript data false false hclr, rfl, rfl⟩
  · obtain ⟨hctx, hout⟩ := duplex_receives_sent data henc (beginOp_inRange _ hs.inRange)
    obtain ⟨-, -, -, -, -, -, hrecvEnc, -⟩ := operationsRunTheDuplex r m false _ len hr
    exact ⟨_, _, hsendEnc nofun, hrecvEnc nofun, hctx, hout⟩
  · have hrange : indicesInRange (beginOp (if m then 0x1C else 0x0C) s.ctx) = true :=
      beginOp_inRange _ hs.inRange
    obtain ⟨hctx, -⟩ := duplex_receives_sent (List.replicate len.toNat 0) hmac hrange
    obtain ⟨-, -, -, -, -, -, -, -, hrecvMac, -⟩ := operationsRunTheDuplex r m false _ len hr
    exact ⟨_, _, hsendMac nofun, hrecvMac rfl nofun, hctx,
      (verdict_eq_ok_iff _).2 ((duplexOutput_zero_iff_sent hmac hrange
        ((loopOutput_length ..).trans List.length_replicate)).2 rfl)⟩

/-- Settles O31: the receiver's processed buffer is zero exactly for the bytes the sender squeezed. -/
theorem onlyTheSendersMacVerifies : Obligations.OnlyTheSendersMacVerifies := by
  intro s r s' r' m len mac hs hr hsame hroles hsend hlength hrecv
  have hmac := beginOp_mac_paired m hsame hroles
  obtain ⟨-, -, -, -, -, -, -, hsends, -, -⟩ := operationsRunTheDuplex s m false [] len hs
  obtain ⟨-, -, -, -, -, -, -, -, hrecvs, -⟩ := operationsRunTheDuplex r m false mac 0 hr
  obtain rfl := Host.Outcome.next.inj ((hsends nofun).symm.trans hsend)
  obtain rfl := Host.Outcome.next.inj ((hrecvs rfl nofun).symm.trans hrecv)
  exact (verdict_eq_ok_iff _).trans
    (duplexOutput_zero_iff_sent hmac (beginOp_inRange _ hs.inRange) hlength)

end Sys2Proof.Machine
end

section
/-! PROOFS. The control commands INIT, SAVE and LOAD (R260 to R270): the context INIT leaves, the bytes of a SAVE
image, and which images LOAD installs. -/

namespace Sys2Proof.Machine

/-- The answer OK of a READY engine with no fault code (R104). -/
theorem respond_ok_of_ready {s : State} (he : s.estate = .ready) (hf : s.fcode = .none) (out : List Byte) :
    respond .ok out s = { s with response := some ⟨0x00010000, out⟩ } := by
  rw [respond, he, hf]
  rfl

/-! ## INIT (R260 to R266) -/

/-- The levels that INIT accepts (R260). -/
theorem validLevel_of_eq {level : BitVec 16} (h : level = 128 ∨ level = 256) : validLevel level = true := by
  simpa [validLevel] using h

/-- INIT with a valid level becomes READY in every state (R266). -/
theorem exec_init_of_validLevel {level : BitVec 16} (proto : List Byte) (s : State)
    (h : validLevel level = true) :
    exec (.init level proto) s = .next (respond .ok [] (becomeReady (initContext level proto) s)) := if_pos h

/-- The bootstrap binds no role (R261). -/
@[simp] theorem initBootstrapped_i0 (level : BitVec 16) : (initBootstrapped level).i0 = .undecided := by
  simp [initBootstrapped, initZeroed]

/-- The STROBE rate of each level (R264). -/
theorem initBootstrapped_rate_eq {level : BitVec 16} (h : level = 128 ∨ level = 256) :
    (initBootstrapped level).rate = if level = 128 then 166 else 134 := by
  rw [initBootstrapped_rate]
  obtain rfl | rfl := h <;> decide

/-- The protocol AD leaves the registers of an operation without C on the bootstrap (R265). -/
theorem initContext_runsTo {level : BitVec 16} (proto : List Byte) (h : validLevel level = true) :
    (initBootstrapped level).RunsTo 0x12 false false proto.length (initContext level proto) :=
  operation_runsTo rfl (initBootstrapped_valid h).inRange nofun rfl rfl

/-- Settles O32: the context INIT leaves does not mention the earlier state, and its registers are those of the
protocol AD started at `pos` = 0. -/
theorem initCompletes : Obligations.InitCompletes := by
  intro s r level proto hlevel
  have hvalid := validLevel_of_eq hlevel
  obtain ⟨hpos, hbegin, hrate, hinit, hflags, hrole⟩ := initContext_runsTo proto hvalid
  refine ⟨_, _, exec_init_of_validLevel proto s hvalid, exec_init_of_validLevel proto r hvalid, rfl, rfl, rfl,
    ?_, rfl, hrate.trans (initBootstrapped_rate_eq hlevel), hinit, hflags, ?_, ?_, ?_⟩
  · rw [respond_ok_of_ready rfl rfl]
  · rw [respond_ctx, becomeReady_ctx, hrole, initBootstrapped_i0]
    rfl
  · rw [respond_ctx, becomeReady_ctx, hpos, hrate]
    simp [dataStart]
  · rw [respond_ctx, becomeReady_ctx, hbegin, hrate]
    simp [dataStart, dataBegin]

/-- Every byte of the zeroed state is 0 (R261). -/
theorem memRead_initZeroed (level : BitVec 16) (j : Nat) : memRead (initZeroed level) j = 0 :=
  (memRead_congr (d := Context.reset) rfl j).trans (memRead_reset j)

/-- The context in which the bootstrap has absorbed its 18 domain bytes, before the forced permutation (R262). -/
def initAbsorbed (level : BitVec 16) : Context :=
  duplexContext (domainPrefix (bootRate level)) false false (initZeroed level)

@[simp] theorem initAbsorbed_rate (level : BitVec 16) : (initAbsorbed level).rate = bootRate level := by
  simp [initAbsorbed, initZeroed]
@[simp] theorem initAbsorbed_curFlags (level : BitVec 16) : (initAbsorbed level).curFlags = 0 := by
  simp [initAbsorbed, initZeroed]
@[simp] theorem initAbsorbed_initialized (level : BitVec 16) : (initAbsorbed level).initialized = false := by
  simp [initAbsorbed, initZeroed]
@[simp] theorem initAbsorbed_i0 (level : BitVec 16) : (initAbsorbed level).i0 = .undecided := by
  simp [initAbsorbed, initZeroed]

section
variable {level : BitVec 16} (h : level = 128 ∨ level = 256)
include h

theorem initZeroed_inRange : indicesInRange (initZeroed level) = true := by
  obtain rfl | rfl := h <;> decide

/-- The domain bytes end inside the first block. -/
theorem domainPrefix_fits : (initZeroed level).pos.toNat + (domainPrefix (bootRate level)).length <
    (initZeroed level).rate.toNat := by
  obtain rfl | rfl := h <;> decide

/-- The state then holds the domain bytes, and zero above them. -/
theorem memRead_initAbsorbed (j : Nat) :
    memRead (initAbsorbed level) j = (domainPrefix (bootRate level)).getD j 0 := by
  have hpos : (initZeroed level).pos.toNat = 0 := rfl
  rw [initAbsorbed, memRead_duplexContext_xor _ (initZeroed_inRange h) (domainPrefix_fits h),
    memRead_initZeroed, BitVec.ofNat_eq_ofNat, BitVec.zero_xor, hpos, Nat.sub_zero, Nat.zero_add]
  split
  · rfl
  · next hj => exact (List.getD_eq_default _ _ (by omega)).symm

/-- The forced permutation of the bootstrap fires, at `pos` = 18 (R263). -/
theorem duplexContext_domainPrefix_forced :
    duplexContext (domainPrefix (bootRate level)) false true (initZeroed level) = runF (initAbsorbed level) := by
  have hfires := (forceBlock_fires_iff false true _ (initZeroed_inRange h)).2
    ⟨rfl, by rw [Nat.mod_eq_of_lt (domainPrefix_fits h)]; exact Nat.succ_ne_zero _⟩
  rw [initAbsorbed, duplexContext, forceBlock, if_pos hfires, duplexContext, forceBlock_false]

/-- The bootstrap is F of the state with the domain bytes, which is not padded (R168, R263, R264). -/
theorem initBootstrapped_eq : initBootstrapped level =
    { st := keccakBytes (initAbsorbed level).st
      pos := 0
      posBegin := 0
      rate := if level = 128 then 166 else 134
      curFlags := 0
      initialized := true
      i0 := .undecided } := by
  have hpad : padBlock (initAbsorbed level) = initAbsorbed level := by simp [padBlock]
  rw [← initBootstrapped_rate_eq h, initBootstrapped_rate]
  simp [initBootstrapped, duplexContext_domainPrefix_forced h, runF_eq, hpad]

end

/-- Settles O33: the protocol AD has no phase, and the state given to F is that with the domain bytes. -/
theorem initBootstrap : Obligations.InitBootstrap := by
  intro level hlevel
  refine ⟨fun s proto => ⟨_, exec_init_of_validLevel proto s (validLevel_of_eq hlevel), rfl, ?_⟩,
    (initAbsorbed level).st, fun j => (memRead_initAbsorbed hlevel j).trans ?_, initBootstrapped_eq hlevel⟩
  · rintro rfl
    rfl
  · obtain rfl | rfl := hlevel <;> rfl

/-! ## SAVE (R267, R268) -/

/-- SAVE on a READY engine answers the image (R267). -/
theorem exec_save_of_ready {s : State} (he : s.estate = .ready) :
    exec .save s = .next (respond .ok (imageOf s.ctx) s) := by
  simp only [exec, execSave, he]

/-- Settles O36: the state bytes and the registers, where R29 makes byte 204 the `initialized` of the context. -/
theorem saveReturnsTheImage : Obligations.SaveReturnsTheImage := by
  rintro s ⟨he, hf, -, -, -, hinit, -⟩
  refine ⟨imageOf s.ctx, ?_, length_imageOf s.ctx, fun j hj => ?_, ?_⟩
  · rw [exec_save_of_ready he, respond_ok_of_ready he hf]
  · rw [imageOf, List.getElem?_append_left (by rwa [Vector.length_toList]), Vector.getElem?_toList, memRead]
    simp [hj]
  · rw [imageOf, List.drop_left' (Vector.length_toList ..), hinit]
    cases s.ctx.i0 <;> rfl

/-! ## LOAD (R269, R270) -/

/-- LOAD of a valid image installs it, in UNINIT and in READY (R269). -/
theorem exec_load_of_validImage {img : List Byte} {s : State} (he : s.estate ≠ .faulted)
    (h : validImage img = true) :
    exec (.load img) s = .next (respond .ok [] { s with ctx := contextOfImage img, estate := .ready }) := by
  cases hs : s.estate with
  | faulted => exact absurd hs he
  | uninit => simp only [exec, execLoad, hs, h, if_true]
  | ready => simp only [exec, execLoad, hs, h, if_true]

/-- LOAD of any other image changes nothing (R311). -/
theorem exec_load_of_not_validImage {img : List Byte} {s : State} (he : s.estate ≠ .faulted)
    (h : ¬ validImage img = true) : exec (.load img) s = .next (respond .invalidImage [] s) := by
  cases hs : s.estate with
  | faulted => exact absurd hs he
  | uninit => simp only [exec, execLoad, hs, if_neg h]
  | ready => simp only [exec, execLoad, hs, if_neg h]

/-- The byte of a role is read back as that role, and no other byte is (R27). -/
theorem roleOfByte_eq_some_iff {b : Byte} {r : Role} : roleOfByte b = some r ↔ b = roleByte r := by
  constructor
  · intro h
    unfold roleOfByte at h
    split_ifs at h with h0 h1 h2 <;> cases h
    · exact h0
    · exact h1
    · exact h2
  · rintro rfl
    exact roleOfByte_roleByte r

/-- The bytes that stand for a role (R27). -/
theorem roleOfByte_isSome_iff {b : Byte} : (roleOfByte b).isSome = true ↔ b = 0 ∨ b = 1 ∨ b = 2 := by
  rw [Option.isSome_iff_exists]
  simp only [roleOfByte_eq_some_iff]
  constructor
  · rintro ⟨_ | _ | _, rfl⟩
    · exact .inl rfl
    · exact .inr (.inl rfl)
    · exact .inr (.inr rfl)
  · rintro (rfl | rfl | rfl)
    · exact ⟨.undecided, rfl⟩
    · exact ⟨.initiator, rfl⟩
    · exact ⟨.responder, rfl⟩

/-- The seven conditions of R270. -/
theorem validImage_iff (img : List Byte) :
    validImage img = true ↔
      img.length = 206 ∧ imageByte img 204 = 1 ∧ (imageByte img 202 = 166 ∨ imageByte img 202 = 134) ∧
        imageByte img 200 < imageByte img 202 ∧ imageByte img 201 ≤ imageByte img 200 ∧
        imageByte img 203 &&& 0xE0 = 0 ∧
        (imageByte img 205 = 0 ∨ imageByte img 205 = 1 ∨ imageByte img 205 = 2) := by
  simp only [validImage, Bool.and_eq_true, Bool.or_eq_true, beq_iff_eq, decide_eq_true_eq,
    roleOfByte_isSome_iff, and_assoc, imageBytes]

/-- The state bytes an image installs (R269). -/
theorem memRead_contextOfImage (img : List Byte) {j : Nat} (hj : j < Config.stateBytes) :
    memRead (contextOfImage img) j = imageByte img j := by
  simp [memRead, contextOfImage, hj]

/-- The role a valid image installs is the one its byte 205 stands for (R269). -/
theorem contextOfImage_i0_iff {img : List Byte} (h : validImage img = true) (r : Role) :
    (contextOfImage img).i0 = r ↔ imageByte img 205 = roleByte r := by
  obtain ⟨-, -, -, -, -, -, hrole⟩ := (validImage_iff img).1 h
  obtain ⟨q, hq⟩ := Option.isSome_iff_exists.1 (roleOfByte_isSome_iff.2 hrole)
  rw [← roleOfByte_eq_some_iff, hq, Option.some_inj, contextOfImage, hq, Option.getD_some]

/-- Settles O37: `validImage` is the seven conditions, and it alone decides between the two answers. -/
theorem loadInstallsExactlyValidImages : Obligations.LoadInstallsExactlyValidImages := by
  intro s img he hf byte valid
  have hiff : validImage img = true ↔ valid := validImage_iff img
  refine ⟨fun h => ?_, fun h => ?_⟩
  · have hv := hiff.2 h
    have hload : exec (.load img) s = .next { s with
        ctx := contextOfImage img, estate := .ready, response := some ⟨0x00010000, []⟩ } := by
      rw [exec_load_of_validImage he hv,
        respond_ok_of_ready (s := { s with ctx := contextOfImage img, estate := .ready }) rfl hf]
    exact ⟨_, hload, rfl, hf, rfl, rfl, fun j hj => memRead_contextOfImage img hj, rfl, rfl, rfl, rfl, rfl,
      contextOfImage_i0_iff hv .undecided, contextOfImage_i0_iff hv .initiator,
      contextOfImage_i0_iff hv .responder⟩
  · rw [exec_load_of_not_validImage he fun hv => h (hiff.1 hv), respond, hf]
    cases s.estate <;> rfl

/-- Settles O38: the image of a context that meets R29 is valid and installs that context. -/
theorem saveThenLoadRestores : Obligations.SaveThenLoadRestores := by
  rintro s s' r ⟨hready, -, hc⟩ hr hsave
  obtain ⟨-, -, -, hinit, -⟩ := id hc
  obtain rfl := Host.Outcome.next.inj ((exec_save_of_ready hready).symm.trans hsave)
  exact ⟨_, exec_load_of_validImage hr (validImage_imageOf hc), rfl, contextOfImage_imageOf hinit⟩

end Sys2Proof.Machine
end

section
/-! PROOFS. Faults and refusals (R302 to R316): what the engine answers in UNINIT and in FAULTED, which command words
fault with which code, how FAULTED is entered and left, and that the context is hidden outside READY. -/

namespace Sys2Proof

open Sys2Proof.Machine

/-! ## The fields of a command word by shift and mask (R91) -/

/-- CMDW[15:12] is CMD. -/
theorem word_cmd_shifted (w : Word) : (w >>> 12) &&& 0xF = (wordCmd w).setWidth 32 := by
  unfold wordCmd
  ext k hk
  interval_cases k <;> simp

theorem word_cmd_eq_iff (w : Word) (k : BitVec 4) :
    (w >>> 12) &&& 0xF = k.setWidth 32 ↔ wordCmd w = k := by
  rw [word_cmd_shifted]
  refine ⟨fun h => ?_, congrArg _⟩
  simpa using congrArg (BitVec.setWidth 4) h

theorem lt_word_cmd_iff (w : Word) : (3 : Word) < (w >>> 12) &&& 0xF ↔ 3 < wordCmd w := by
  rw [word_cmd_shifted, BitVec.lt_def, BitVec.lt_def, BitVec.toNat_setWidth_of_le (by decide)]
  rfl

/-- CMDW[31:16] is ARG. -/
theorem word_arg_shifted (w : Word) : w >>> 16 = (wordArg w).setWidth 32 := by
  unfold wordArg
  ext k hk
  interval_cases k <;> simp

theorem word_low_masked (w : Word) : w &&& 0x3FF = (wordLow w).setWidth 32 := by
  unfold wordLow
  ext k hk
  interval_cases k <;> simp

/-- CMDW[11:10] is RSV. -/
theorem word_rsv_masked (w : Word) : w &&& (0xC00 : Word) = (wordRsv w).setWidth 32 <<< 10 := by
  unfold wordRsv
  ext k hk
  interval_cases k <;> simp

/-- A word with nothing above CMDW[9:0] is an operation word with ARG = 0 and RSV = 0. -/
theorem fields_of_masked_eq_zero {w : Word} (h : w &&& 0xFFFFFC00 = 0) :
    wordArg w = 0 ∧ wordCmd w = 0 ∧ wordRsv w = 0 := by
  have harg : wordArg (w &&& 0xFFFFFC00) = wordArg w := BitVec.extractLsb'_and.trans BitVec.and_allOnes
  have hcmd : wordCmd (w &&& 0xFFFFFC00) = wordCmd w := BitVec.extractLsb'_and.trans BitVec.and_allOnes
  have hrsv : wordRsv (w &&& 0xFFFFFC00) = wordRsv w := BitVec.extractLsb'_and.trans BitVec.and_allOnes
  rw [← harg, ← hcmd, ← hrsv, h]
  decide

/-! ## The command words that name no command (R106, R313) -/

/-- A word fails a check that R313 makes before it asks whether the engine is READY, or its fields are laid out as
R91 and R98 ask. -/
theorem decodeWord_layout (c : Command) :
    (∃ why, decodeWord c = .error why ∧ checkedBeforeReady why = true) ∨
    (¬ 3 < wordCmd c.cmdw ∧ wordRsv c.cmdw = 0 ∧ (wordCmd c.cmdw ≠ 1 → wordArg c.cmdw = 0) ∧
      (wordCmd c.cmdw ≠ 0 → wordLow c.cmdw = 0) ∧ (wordCmd c.cmdw = 2 → c.len = 0)) := by
  unfold decodeWord
  split_ifs with hclass hrsv hinit hz hsave hz hload hz
  · exact .inl ⟨_, rfl, rfl⟩
  · exact .inl ⟨_, rfl, rfl⟩
  · exact .inl ⟨_, rfl, rfl⟩
  · exact .inr ⟨hclass, not_not.1 hrsv, absurd hinit, fun _ => not_not.1 hz,
      fun h => absurd (hinit.symm.trans h) (by decide)⟩
  · exact .inl ⟨_, rfl, rfl⟩
  · simp only [not_or, not_not] at hz
    obtain ⟨hlow, harg, hlen⟩ := hz
    exact .inr ⟨hclass, not_not.1 hrsv, fun _ => harg, fun _ => hlow, fun _ => hlen⟩
  · exact .inl ⟨_, rfl, rfl⟩
  · simp only [not_or, not_not] at hz
    obtain ⟨hlow, harg⟩ := hz
    exact .inr ⟨hclass, not_not.1 hrsv, fun _ => harg, fun _ => hlow, (absurd · hsave)⟩
  · have hcmd : wordCmd c.cmdw = 0 := by bv_omega
    by_cases harg : wordArg c.cmdw = 0
    · exact .inr ⟨hclass, not_not.1 hrsv, fun _ => harg, absurd hcmd, (absurd · hsave)⟩
    · exact .inl ⟨.opArg, if_pos harg, rfl⟩

/-- An operation word with ARG = 0 is left with the two flag checks and its row (R313). -/
theorem decodeWord_of_op_fields {c : Command} (harg : wordArg c.cmdw = 0) (hcmd : wordCmd c.cmdw = 0)
    (hrsv : wordRsv c.cmdw = 0) :
    decodeWord c =
      if wordSrc c.cmdw && outputForbidden (wordFlags c.cmdw) then .error .outputFlags
      else if reservedSet (wordFlags c.cmdw) then .error .reservedFlag
      else decodeRow (wordFlags c.cmdw) (wordSrc c.cmdw) (wordMore c.cmdw) c := by
  simp [decodeWord, decodeOp, harg, hcmd, hrsv]

/-- A flag word and SRC that give no row fail one of the last two checks of R313. -/
theorem decodeRow_error {flags : Byte} {src more : Bool} {c : Command} {why : IllegalWord}
    (h : decodeRow flags src more c = .error why) : why = .unnamedFlags ∨ why = .ratchetMore := by
  simp only [decodeRow] at h
  split_ifs at h <;> cases h
  all_goals simp

/-- The flag words of the rows of R96: those with data-in, those without, and RATCHET among these, which does not
admit MORE (R97). -/
theorem decodeRow_ok_flags {flags : Byte} {src more : Bool} {c : Command} {i : Instr}
    (h : decodeRow flags src more c = .ok i) :
    (src = false → flags ∈ [(0x02 : Byte), 0x12, 0x06, 0x0A, 0x1A, 0x0B, 0x1B, 0x0E, 0x1E, 0x0F, 0x1F,
      0x0D, 0x1D]) ∧
    (src = true → flags ∈ [(0x07 : Byte), 0x0C, 0x1C, 0x04, 0x14]) ∧
    (src = true → flags ∈ [(0x04 : Byte), 0x14] → more = false) := by
  simp only [decodeRow] at h
  generalize hasFlag flags flagM = m at h
  split_ifs at h with hsrc hrow hrow hrow hmore hrow hrow hrow hrow hrow hrow hrow
  all_goals subst hrow
  · exact ⟨by simp [hsrc], fun _ => by decide, fun _ hf => absurd hf (by decide)⟩
  · exact ⟨by simp [hsrc], fun _ => by cases m <;> decide, fun _ hf => absurd hf (by cases m <;> decide)⟩
  · exact ⟨by simp [hsrc], fun _ => by cases m <;> decide, fun _ _ => by simpa using hmore⟩
  all_goals exact ⟨fun _ => by cases m <;> decide, by simp [hsrc], by simp [hsrc]⟩

/-- The check of R307 on the bits of FLAGS. -/
theorem src_and_outputForbidden_iff (src : Bool) (flags : Byte) :
    (src && outputForbidden flags) = true ↔ src = true ∧ (flags &&& 0x09 = 0x09 ∨ flags &&& 0x03 = 0x02) := by
  simp [outputForbidden]

/-- The check of R303 on the bits of FLAGS. -/
theorem reservedSet_iff (flags : Byte) : reservedSet flags = true ↔ flags &&& 0xE0 ≠ 0 := by
  simp [reservedSet]

/-- A command with the low half of INIT's row decodes to INIT with its ARG as the level (R98). -/
theorem decode_of_init_row {c : Command} (hf : framed c = true) (h : c.cmdw &&& 0xFFFF = 0x1000) :
    decode c = .ok (.init (wordArg c.cmdw) c.data) :=
  decode_of_encodeWord (i := .init (wordArg c.cmdw) []) hf (eq_initWord_of_masked h) nofun

end Sys2Proof

namespace Sys2Proof.Machine

/-! ## The answers in FAULTED and of a fault (R104) -/

/-- The status word of an answer in FAULTED. -/
theorem statusWord_faulted (r : Result) (f : FaultCode) :
    statusWord r f .faulted =
      ((0x00020000 : Word) ||| (resultByte r).setWidth 32) ||| ((faultByte f).setWidth 32 <<< 8) := by
  rw [statusWord, BitVec.or_comm, ← BitVec.or_assoc]
  rfl

/-- A fault, with the status word that reports it (R309). -/
theorem raiseFault_eq {code : FaultCode} {w : Word} (hw : statusWord .fault code .faulted = w) (s : State) :
    raiseFault code s =
      { s with estate := .faulted, fcode := code, response := some ⟨w, []⟩ } := by
  rw [← hw]
  rfl

/-- An answer of an engine that is FAULTED, with its status word. -/
theorem respond_of_faulted {s : State} (he : s.estate = .faulted) {r : Result} {w : Word}
    (hw : statusWord r s.fcode .faulted = w) (out : List Byte) :
    respond r out s = { s with response := some ⟨w, out⟩ } := by
  rw [← hw, ← he]
  rfl

/-! ## Outside READY an instruction does not run (R310, R315) -/

/-- An instruction is an operation, whose checks come first, or one of the three control commands. -/
theorem exec_operation_or_control (i : Instr) :
    (∃ f more, ∀ s, ∃ body, exec i s = checkedOp f more s body) ∨
    (∃ level proto, i = .init level proto) ∨ i = .save ∨ ∃ img, i = .load img := by
  cases i with
  | init level proto => exact .inr (.inl ⟨level, proto, rfl⟩)
  | save => exact .inr (.inr (.inl rfl))
  | load img => exact .inr (.inr (.inr ⟨img, rfl⟩))
  | _ => exact .inl ⟨_, _, fun s => ⟨_, rfl⟩⟩

/-- In FAULTED every instruction but INIT is refused (R315). -/
theorem exec_of_faulted {i : Instr} {s : State} (he : s.estate = .faulted)
    (hi : ∀ level proto, i ≠ .init level proto) : exec i s = .next (refuseFaulted s) := by
  obtain ⟨f, more, hop⟩ | ⟨level, proto, rfl⟩ | rfl | ⟨img, rfl⟩ := exec_operation_or_control i
  · obtain ⟨body, hb⟩ := hop s
    simp only [hb, checkedOp, he]
  · exact absurd rfl (hi level proto)
  · simp only [exec, execSave, he]
  · simp only [exec, execLoad, he]

/-- In UNINIT every operation and SAVE fault (R310). -/
theorem exec_of_uninit {i : Instr} {s : State} (he : s.estate = .uninit)
    (hinit : ∀ level proto, i ≠ .init level proto) (hload : ∀ img, i ≠ .load img) :
    exec i s = .next (raiseFault .notReady s) := by
  obtain ⟨f, more, hop⟩ | ⟨level, proto, rfl⟩ | rfl | ⟨img, rfl⟩ := exec_operation_or_control i
  · obtain ⟨body, hb⟩ := hop s
    simp only [hb, checkedOp, he]
  · exact absurd rfl (hinit level proto)
  · simp only [exec, execSave, he]
  · exact absurd rfl (hload img)

/-! ## The step of a command word that names no command (R313) -/

theorem rejectIllegal_of_faulted (why : IllegalWord) {s : State} (he : s.estate = .faulted) :
    rejectIllegal why s = refuseFaulted s := by
  simp only [rejectIllegal, he]

theorem rejectIllegal_of_uninit {why : IllegalWord} {s : State} (he : s.estate = .uninit)
    (hc : checkedBeforeReady why = false) : rejectIllegal why s = raiseFault .notReady s := by
  simp [rejectIllegal, he, hc]

/-- Outside FAULTED an illegal word faults with its own code, in UNINIT when its check comes before NOT_READY. -/
theorem rejectIllegal_faults {why : IllegalWord} {s : State} (he : s.estate ≠ .faulted)
    (hc : s.estate = .uninit → checkedBeforeReady why = true) :
    rejectIllegal why s = raiseFault (illegalCode why) s := by
  obtain ⟨hf, -⟩ | ⟨hu, hn, -⟩ | ⟨-, -, h⟩ := rejectIllegal_cases why s
  · exact absurd hf he
  · exact absurd (hc hu) (by simp [hn])
  · exact h

/-- A framed command whose word fails a check of R313 is answered by that check. -/
theorem step_of_illegal {s : State} {c : Command} {why : IllegalWord} {rest : List HostEvent}
    (hi : s.inbox = .command c :: rest) (hf : framed c = true) (hw : decodeWord c = .error why) :
    step s = .next (rejectIllegal why { s with inbox := rest }) := by
  simp only [step_command hi, stepCommand, (decode_illegal_iff c why).2 ⟨hf, hw⟩]

/-- Outside FAULTED such a command faults with the code of its class. -/
theorem step_faults_illegal {s : State} {c : Command} {why : IllegalWord} {rest : List HostEvent}
    (hi : s.inbox = .command c :: rest) (hf : framed c = true) (hw : decodeWord c = .error why)
    (he : s.estate ≠ .faulted) (hc : s.estate = .uninit → checkedBeforeReady why = true) :
    step s = .next (raiseFault (illegalCode why) { s with inbox := rest }) := by
  rw [step_of_illegal hi hf hw, rejectIllegal_faults (s := { s with inbox := rest }) he hc]

/-- The checks before NOT_READY all fault UNNAMED_COMMAND (R308, R313). -/
theorem illegalCode_of_checkedBeforeReady {why : IllegalWord} (h : checkedBeforeReady why = true) :
    illegalCode why = .unnamedCommand := by
  cases why with
  | outputFlags | reservedFlag | unnamedFlags | ratchetMore => cases h
  | _ => rfl

/-- The checks of an operation word with ARG = 0 come after NOT_READY. -/
theorem checkedBeforeReady_of_op_fields {c : Command} {why : IllegalWord} (harg : wordArg c.cmdw = 0)
    (hcmd : wordCmd c.cmdw = 0) (hrsv : wordRsv c.cmdw = 0) (h : decodeWord c = .error why) :
    checkedBeforeReady why = false := by
  rw [decodeWord_of_op_fields harg hcmd hrsv] at h
  split_ifs at h
  · cases h
    rfl
  · cases h
    rfl
  · obtain rfl | rfl := decodeRow_error h <;> rfl

/-- Such a word that passes them names an operation. -/
theorem not_control_of_op_fields {c : Command} {i : Instr} (harg : wordArg c.cmdw = 0)
    (hcmd : wordCmd c.cmdw = 0) (hrsv : wordRsv c.cmdw = 0) (h : decodeWord c = .ok i) :
    (∀ level proto, i ≠ .init level proto) ∧ (∀ img, i ≠ .load img) := by
  rw [decodeWord_of_op_fields harg hcmd hrsv] at h
  split_ifs at h
  exact decodeRow_not_control h

/-- Settles O39: an operation word that decodes is an operation, and one that does not fails a check that comes
after NOT_READY. -/
theorem notReadyFault : Obligations.NotReadyFault := by
  intro s c rest he hi hf hword
  have hfault {i : Instr} (hd : decode c = .ok i) (hinit : ∀ level proto, i ≠ .init level proto)
      (hload : ∀ img, i ≠ .load img) : step s = .next (raiseFault .notReady { s with inbox := rest }) := by
    rw [step_of_decode hi hd]
    exact exec_of_uninit he hinit hload
  rw [← raiseFault_eq (w := 0x00020704) (by decide) { s with inbox := rest }]
  obtain hop | ⟨hsave, hlen⟩ := hword
  · obtain ⟨harg, hcmd, hrsv⟩ := fields_of_masked_eq_zero hop
    cases hw : decodeWord c with
    | ok i =>
      obtain ⟨hinit, hload⟩ := not_control_of_op_fields harg hcmd hrsv hw
      exact hfault ((decode_ok_iff c i).2 ⟨hf, hw⟩) hinit hload
    | error why =>
      rw [step_of_illegal hi hf hw,
        rejectIllegal_of_uninit (s := { s with inbox := rest }) he
          (checkedBeforeReady_of_op_fields harg hcmd hrsv hw)]
  · exact hfault (decode_of_encodeWord (i := .save) hf hsave.symm fun _ => hlen) nofun nofun

/-- An operation word that passes both flag checks and is no row of R96, or is RATCHET with MORE, is left with the
last two checks of R313, whose code is UNNAMED_COMMAND. -/
theorem decodeWord_of_no_row {c : Command} (harg : wordArg c.cmdw = 0) (hcmd : wordCmd c.cmdw = 0)
    (hrsv : wordRsv c.cmdw = 0) (hres : wordFlags c.cmdw &&& 0xE0 = 0)
    (hout : ¬ (wordSrc c.cmdw = true ∧
      (wordFlags c.cmdw &&& 0x09 = 0x09 ∨ wordFlags c.cmdw &&& 0x03 = 0x02)))
    (hrow : (wordSrc c.cmdw = false ∧ wordFlags c.cmdw ∉ [(0x02 : Byte), 0x12, 0x06, 0x0A, 0x1A, 0x0B, 0x1B,
        0x0E, 0x1E, 0x0F, 0x1F, 0x0D, 0x1D]) ∨
      (wordSrc c.cmdw = true ∧ wordFlags c.cmdw ∉ [(0x07 : Byte), 0x0C, 0x1C, 0x04, 0x14]) ∨
      (wordSrc c.cmdw = true ∧ wordFlags c.cmdw ∈ [(0x04 : Byte), 0x14] ∧ wordMore c.cmdw = true)) :
    ∃ why, decodeWord c = .error why ∧ illegalCode why = .unnamedCommand := by
  rw [decodeWord_of_op_fields harg hcmd hrsv, if_neg (mt (src_and_outputForbidden_iff _ _).1 hout),
    if_neg (mt (reservedSet_iff _).1 (not_not.2 hres))]
  cases hd : decodeRow (wordFlags c.cmdw) (wordSrc c.cmdw) (wordMore c.cmdw) c with
  | ok i =>
    obtain ⟨hdata, hnodata, hratchet⟩ := decodeRow_ok_flags hd
    obtain ⟨hsrc, hflags⟩ | ⟨hsrc, hflags⟩ | ⟨hsrc, hflags, hmore⟩ := hrow
    · exact absurd (hdata hsrc) hflags
    · exact absurd (hnodata hsrc) hflags
    · exact absurd (hmore.symm.trans (hratchet hsrc hflags)) nofun
  | error why =>
    refine ⟨why, rfl, ?_⟩
    obtain rfl | rfl := decodeRow_error hd <;> rfl

/-- Settles O40: a word with a field out of place fails a check before NOT_READY, and one that is no row fails one of
the last two checks. -/
theorem unnamedCommandFault : Obligations.UnnamedCommandFault := by
  intro s c rest he hi hf cmd flags src hbad
  have hfault {why : IllegalWord} (hw : decodeWord c = .error why) (hcode : illegalCode why = .unnamedCommand)
      (hc : s.estate = .uninit → checkedBeforeReady why = true) :
      step s = .next (raiseFault .unnamedCommand { s with inbox := rest }) :=
    hcode ▸ step_faults_illegal hi hf hw he hc
  rw [← raiseFault_eq (w := 0x00020604) (by decide) { s with inbox := rest }]
  obtain ⟨why, hw, hc⟩ | ⟨hclass, hrsv, harg, hlow, hlen⟩ := decodeWord_layout c
  · exact hfault hw (illegalCode_of_checkedBeforeReady hc) fun _ => hc
  obtain h | h | ⟨hcmd, h⟩ | ⟨hcmd, h⟩ | ⟨hcmd, h⟩ | ⟨hready, hcmd, hres, hout, hrow⟩ := hbad
  · exact absurd ((lt_word_cmd_iff _).1 h) hclass
  · exact absurd (by rw [word_rsv_masked, hrsv]; rfl) h
  · have hcmd' : wordCmd c.cmdw ≠ 1 := fun hc => hcmd ((word_cmd_eq_iff c.cmdw 1).2 hc)
    exact absurd (by rw [word_arg_shifted, harg hcmd']; rfl) h
  · have hcmd' : wordCmd c.cmdw ≠ 0 := fun hc => hcmd ((word_cmd_eq_iff c.cmdw 0).2 hc)
    exact absurd (by rw [word_low_masked, hlow hcmd']; rfl) h
  · exact absurd (hlen ((word_cmd_eq_iff c.cmdw 2).1 hcmd)) h
  · have hcmd : wordCmd c.cmdw = 0 := (word_cmd_eq_iff c.cmdw 0).1 hcmd
    obtain ⟨why, hw, hcode⟩ := decodeWord_of_no_row (harg (by simp [hcmd])) hcmd hrsv hres hout hrow
    exact hfault hw hcode (by simp [hready])

/-- Settles O41: an operation word with ARG = 0 meets the check of R307 first and that of R303 next. -/
theorem flagFaults : Obligations.FlagFaults := by
  intro s c rest he hi hf hop flags output
  obtain ⟨harg, hcmd, hrsv⟩ := fields_of_masked_eq_zero hop
  have hfault {why : IllegalWord} (hw : decodeWord c = .error why) :
      step s = .next (raiseFault (illegalCode why) { s with inbox := rest }) :=
    step_faults_illegal hi hf hw (by simp [he]) (by simp [he])
  have hword := decodeWord_of_op_fields harg hcmd hrsv
  have houtput := src_and_outputForbidden_iff (wordSrc c.cmdw) (wordFlags c.cmdw)
  refine ⟨fun h => ?_, fun hres hout => ?_⟩
  · rw [← raiseFault_eq (w := 0x00020504) (by decide) { s with inbox := rest }]
    exact hfault (hword.trans (if_pos (houtput.2 h)))
  · rw [← raiseFault_eq (w := 0x00020104) (by decide) { s with inbox := rest }]
    rw [if_neg (mt houtput.1 hout), if_pos ((reservedSet_iff (wordFlags c.cmdw)).2 hres)] at hword
    exact hfault hword

/-! ## Continuations (R305, R306) -/

/-- A continuation with other flags than those of the operation in progress (R305). -/
theorem checkedOp_mismatch {f : Byte} {s : State} (body : Host.Outcome State Fault Refusal)
    (he : s.estate = .ready) (hf : s.ctx.curFlags ≠ f) :
    checkedOp f true s body = .next { s with
      estate := .faulted
      fcode := .streamMismatch
      response := some ⟨0x00020304, []⟩ } := by
  rw [← raiseFault_eq (w := 0x00020304) (by decide)]
  simp [checkedOp, he, hf]

/-- Settles O42: MAC_STREAMING is what the body of a RECV_MAC continuation answers. -/
theorem streamingFaults : Obligations.StreamingFaults := by
  intro s m data len he faults
  refine ⟨checkedOp_mismatch _ he, checkedOp_mismatch _ he, checkedOp_mismatch _ he, checkedOp_mismatch _ he,
    checkedOp_mismatch _ he, checkedOp_mismatch _ he, checkedOp_mismatch _ he, checkedOp_mismatch _ he,
    checkedOp_mismatch _ he, fun hf => ?_⟩
  rw [← raiseFault_eq (w := 0x00020404) (by decide)]
  exact checkedOp_ready _ true _ he fun _ => hf

/-! ## Into FAULTED (R309) -/

/-- A step is a reset, or has an outcome of R300. -/
theorem step_outcome {s t : State} (h : step s = .next t) :
    (∃ rest, t = resetEvent rest) ∨
    (∃ c rest, s.inbox = .command c :: rest ∧ CommandOutcome c.cmdw { s with inbox := rest } t) := by
  obtain ⟨-, rest, -, -, ht⟩ | ⟨c, rest, -, hi, -⟩ | ⟨c, rest, -, hi, -⟩ := step_next h
  · exact .inl ⟨rest, ht⟩
  · exact .inr ⟨c, rest, hi, stepCommand_outcome (step_command hi ▸ h)⟩
  · exact .inr ⟨c, rest, hi, stepCommand_outcome (step_command hi ▸ h)⟩

/-- The one outcome of a command that enters FAULTED is a fault. -/
theorem CommandOutcome.fault_of_enters_faulted {w : Word} {s t : State} (h : CommandOutcome w s t)
    (hs : s.estate ≠ .faulted) (ht : t.estate = .faulted) :
    ∃ code : FaultCode, code.Raisable ∧ t = raiseFault code s := by
  cases h with
  | refused he => exact absurd he hs
  | faulted code _ hc => exact ⟨code, hc, rfl⟩
  | rejected => exact absurd ht hs
  | authFailed ctx he => exact absurd (he.symm.trans ht) nofun
  | ok => cases ht
  | init => cases ht

/-- Settles O43: a step that enters FAULTED runs a command, and takes a fault. -/
theorem faultEntry : Obligations.FaultEntry := by
  intro s t h hs ht
  obtain ⟨rest, rfl⟩ | ⟨c, rest, hi, ho⟩ := step_outcome h
  · cases ht
  · obtain ⟨code, ⟨hnone, hconflict⟩, rfl⟩ := ho.fault_of_enters_faulted hs ht
    exact ⟨rfl, hnone, hconflict, by rw [hi]; rfl, by rw [raiseFault_response, statusWord_faulted]; rfl⟩

/-! ## In FAULTED, and out of it (R315, R316) -/

/-- Settles O44: the command decodes to an instruction other than INIT, or its word names none; both are refused. -/
theorem faultedRefuses : Obligations.FaultedRefuses := by
  intro s c rest he hi hf hinit
  have hrefuse : step s = .next (refuseFaulted { s with inbox := rest }) := by
    cases hw : decodeWord c with
    | ok i =>
      have hd := (decode_ok_iff c i).2 ⟨hf, hw⟩
      rw [step_of_decode hi hd]
      refine exec_of_faulted he ?_
      rintro level proto rfl
      exact hinit (cmdw_of_decode_init hd)
    | error why => rw [step_of_illegal hi hf hw, rejectIllegal_of_faulted why (s := { s with inbox := rest }) he]
  rw [hrefuse]
  exact congrArg _ (respond_of_faulted (s := { s with inbox := rest }) he (statusWord_faulted _ _) [])

/-- The levels that INIT does not accept change nothing (R302). -/
theorem exec_init_of_not_validLevel {level : BitVec 16} (proto : List Byte) (s : State) (h128 : level ≠ 128)
    (h256 : level ≠ 256) : exec (.init level proto) s = .next (respond .invalidSecurityLevel [] s) :=
  if_neg (by simpa [validLevel] using ⟨h128, h256⟩)

/-- Settles O35: such an INIT only answers, with FCODE and ESTATE as they are. -/
theorem initInvalidLevel : Obligations.InitInvalidLevel := fun s _ proto h128 h256 =>
  exec_init_of_not_validLevel proto s h128 h256

/-- Only an INIT with a valid level leaves FAULTED, and it leads to READY. -/
theorem ExecEffect.init_of_leaves_faulted {i : Instr} {s t : State} (h : ExecEffect i s t)
    (he : s.estate = .faulted) (ht : t.estate ≠ .faulted) :
    (∃ level proto, i = .init level proto ∧ validLevel level = true) ∧ t.estate = .ready := by
  cases h with
  | refuse => exact absurd he ht
  | fault => exact absurd rfl ht
  | answer => exact absurd he ht
  | operate hready => exact absurd (he.symm.trans hready) nofun
  | init level proto hi hv => exact ⟨⟨level, proto, hi, hv⟩, rfl⟩
  | load img _ hload => exact absurd he hload

/-- The words of an INIT with a valid level (R98, R260). -/
theorem initWord_of_validLevel {level : BitVec 16} (h : validLevel level = true) :
    initWord level = 0x00801000 ∨ initWord level = 0x01001000 := by
  obtain rfl | rfl : level = 128 ∨ level = 256 := by simpa [validLevel] using h
  · exact .inl rfl
  · exact .inr rfl

/-- Settles O45: of the effects of an instruction only INIT with a valid level leaves FAULTED, and its word tells the
level. -/
theorem leavingFaulted : Obligations.LeavingFaulted := by
  intro s he
  refine ⟨fun t h ht => ?_, fun c rest hi hf hw => ?_, fun c rest hi hf hw h128 h256 => ?_,
    fun e rest hi hreset => ⟨_, step_isReset hi hreset, rfl, rfl⟩⟩
  · obtain ⟨e, rest, hi, hreset, rfl⟩ | ⟨c, rest, why, -, -, rfl⟩ | ⟨c, rest, i, hi, hd, hexec⟩ := step_next h
    · exact .inl ⟨e, rest, hi, hreset, rfl⟩
    · rw [rejectIllegal_of_faulted why (s := { s with inbox := rest }) he] at ht
      exact absurd he ht
    · obtain ⟨⟨level, proto, rfl, hv⟩, hready⟩ := (exec_effect hexec).init_of_leaves_faulted he ht
      have hc : initWord level = c.cmdw := congrArg Command.cmdw (encode_of_decode hd)
      exact .inr ⟨c, rest, hi, hc ▸ initWord_of_validLevel hv, hready⟩
  · have hvalid : c.cmdw &&& 0xFFFF = 0x1000 ∧ validLevel (wordArg c.cmdw) = true := by
      obtain hw | hw := hw <;> rw [hw] <;> decide
    rw [step_of_decode hi (decode_of_init_row hf hvalid.1), exec_init_of_validLevel _ _ hvalid.2]
    exact ⟨_, rfl, rfl, rfl⟩
  · have hword := eq_initWord_of_masked hw
    rw [step_of_decode hi (decode_of_init_row hf hw), exec_init_of_not_validLevel]
    · exact congrArg _ (respond_of_faulted (s := { s with inbox := rest }) he (statusWord_faulted _ _) [])
    · intro h
      exact h128 (by rw [← hword, h]; rfl)
    · intro h
      exact h256 (by rw [← hword, h]; rfl)

/-! ## The context is hidden outside READY (R314, R343) -/

/-- Two outcomes that no host can tell apart: next states it cannot tell apart, or the same stop. -/
inductive SameAnswer : Host.Outcome State Fault Refusal → Host.Outcome State Fault Refusal → Prop
  | next {s t : State} (h : s.Indistinguishable t) : SameAnswer (.next s) (.next t)
  | fault (f : Fault) : SameAnswer (.fault f) (.fault f)
  | refused (r : Refusal) : SameAnswer (.refused r) (.refused r)

theorem SameAnswer.refl : ∀ o, SameAnswer o o
  | .next _ => .next ⟨rfl, rfl, rfl, rfl, fun _ => rfl⟩
  | .fault f => .fault f
  | .refused r => .refused r

section
variable {s t : State} (h : s.Indistinguishable t)
include h

/-- In READY there is nothing that a host cannot see. -/
theorem State.Indistinguishable.eq_of_ready (he : s.estate = .ready) : s = t := by
  obtain ⟨hestate, hfcode, hinbox, hresponse, hctx⟩ := h
  cases s
  cases t
  simp_all

theorem State.Indistinguishable.respond (r : Result) (out : List Byte) :
    (respond r out s).Indistinguishable (respond r out t) := by
  obtain ⟨hestate, hfcode, hinbox, -, hctx⟩ := h
  exact ⟨hestate, hfcode, hinbox, by rw [respond_response, respond_response, hestate, hfcode], hctx⟩

theorem State.Indistinguishable.raiseFault (code : FaultCode) :
    (raiseFault code s).Indistinguishable (raiseFault code t) := by
  obtain ⟨-, -, hinbox, -, -⟩ := h
  exact ⟨rfl, rfl, hinbox, rfl, nofun⟩

/-- INIT does not read the context (R266). -/
theorem execInit_sameAnswer (level : BitVec 16) (proto : List Byte) :
    SameAnswer (execInit level proto s) (execInit level proto t) := by
  obtain ⟨-, -, hinbox, hresponse, -⟩ := id h
  have hready : (becomeReady (initContext level proto) s).Indistinguishable
      (becomeReady (initContext level proto) t) := ⟨rfl, rfl, hinbox, hresponse, fun _ => rfl⟩
  unfold execInit
  split
  · exact .next (hready.respond _ _)
  · exact .next (h.respond _ _)

/-- LOAD does not read the context (R269). -/
theorem execLoad_sameAnswer (img : List Byte) : SameAnswer (execLoad img s) (execLoad img t) := by
  obtain ⟨hestate, hfcode, hinbox, hresponse, -⟩ := id h
  have hload : State.Indistinguishable { s with ctx := contextOfImage img, estate := .ready }
      { t with ctx := contextOfImage img, estate := .ready } := ⟨rfl, hfcode, hinbox, hresponse, fun _ => rfl⟩
  unfold execLoad
  rw [hestate]
  split
  · exact .next (h.respond _ _)
  all_goals
    split
    · exact .next (hload.respond _ _)
    · exact .next (h.respond _ _)

/-- An illegal word does not read the context (R313). -/
theorem rejectIllegal_indistinguishable (why : IllegalWord) :
    (rejectIllegal why s).Indistinguishable (rejectIllegal why t) := by
  obtain ⟨hestate, -⟩ := id h
  unfold rejectIllegal
  rw [hestate]
  split
  · exact h.respond _ _
  · split
    · exact h.raiseFault _
    · exact h.raiseFault _
  · exact h.raiseFault _

/-- In READY the two states are one; outside it only INIT and LOAD run, and neither reads the context. -/
theorem exec_sameAnswer (i : Instr) : SameAnswer (exec i s) (exec i t) := by
  obtain ⟨hestate, -⟩ := id h
  by_cases hinit : ∃ level proto, i = .init level proto
  · obtain ⟨level, proto, rfl⟩ := hinit
    exact execInit_sameAnswer h level proto
  by_cases hload : ∃ img, i = .load img
  · obtain ⟨img, rfl⟩ := hload
    exact execLoad_sameAnswer h img
  have hinit : ∀ level proto, i ≠ .init level proto := by simpa using hinit
  have hload : ∀ img, i ≠ .load img := by simpa using hload
  cases hs : s.estate with
  | ready =>
    rw [h.eq_of_ready hs]
    exact .refl _
  | uninit =>
    rw [exec_of_uninit hs hinit hload, exec_of_uninit (hestate ▸ hs) hinit hload]
    exact .next (h.raiseFault _)
  | faulted =>
    rw [exec_of_faulted hs hinit, exec_of_faulted (hestate ▸ hs) hinit]
    exact .next (h.respond _ _)

/-- What a command decodes to is no matter of the state. -/
theorem stepCommand_sameAnswer (c : Command) : SameAnswer (stepCommand c s) (stepCommand c t) := by
  unfold stepCommand
  split
  · exact exec_sameAnswer h _
  · exact .next (rejectIllegal_indistinguishable h _)
  · exact .refused _

/-- The two engines take the same event. -/
theorem step_sameAnswer : SameAnswer (step s) (step t) := by
  obtain ⟨hestate, hfcode, hinbox, hresponse, hctx⟩ := h
  have htaken (rest : List HostEvent) :
      State.Indistinguishable { s with inbox := rest } { t with inbox := rest } :=
    ⟨hestate, hfcode, rfl, hresponse, hctx⟩
  unfold step
  rw [hinbox]
  split
  · exact .refl _
  · exact .refl _
  · exact .refl _
  · exact stepCommand_sameAnswer (htaken _) _

end

/-- Settles O56: the same event is taken, and what it does outside READY does not depend on the context. -/
theorem contextHiddenUnlessReady : Obligations.ContextHiddenUnlessReady := by
  intro s t h
  have hstep := step_sameAnswer h
  refine ⟨fun s' hs => ?_, fun f hf => ?_, fun r hr => ?_⟩
  · rw [hs] at hstep
    generalize step t = o at hstep ⊢
    cases hstep with
    | next h' => exact ⟨_, rfl, h'⟩
  · rw [hf] at hstep
    generalize step t = o at hstep ⊢
    cases hstep with
    | fault => rfl
  · rw [hr] at hstep
    generalize step t = o at hstep ⊢
    cases hstep with
    | refused => rfl

end Sys2Proof.Machine
end

section
/-! PROOFS. The stops of the model (logs 2, 3 and 4): an instruction stops at one place only, where an operation would
index outside the state, and a step stops besides only where it finds no command. -/

namespace Sys2Proof.Machine

/-! ## An instruction answers, or would index outside the state (R61) -/

/-- The outcome is a next state, or the stop of a READY engine whose context indexes outside the state. -/
def AnswersOrStateIndex (s : State) (o : Host.Outcome State Fault Refusal) : Prop :=
  (∃ t, o = .next t) ∨ (s.estate = .ready ∧ indicesInRange s.ctx = false ∧ o = .fault .stateIndex)

theorem AnswersOrStateIndex.not_refused {s : State} {o : Host.Outcome State Fault Refusal}
    (h : AnswersOrStateIndex s o) (r : Refusal) : o ≠ .refused r := by
  obtain ⟨t, rfl⟩ | ⟨-, -, rfl⟩ := h <;> exact nofun

theorem AnswersOrStateIndex.ready_of_fault {s : State} {f : Fault} (h : AnswersOrStateIndex s (.fault f)) :
    s.estate = .ready ∧ indicesInRange s.ctx = false := by
  obtain ⟨t, ht⟩ | ⟨he, hr, -⟩ := h
  · cases ht
  · exact ⟨he, hr⟩

theorem runOperate_answersOrStateIndex (f : Byte) (buf : List Byte) (more : Bool) {s : State}
    (he : s.estate = .ready) : AnswersOrStateIndex s (runOperate f buf more s) := by
  cases hr : indicesInRange s.ctx with
  | true => exact .inl ⟨_, runOperate_inRange f buf more hr⟩
  | false => exact .inr ⟨he, hr, if_neg (by simp [hr])⟩

/-- The checks of R313 answer, or leave the answer to the body. -/
theorem checkedOp_answersOrStateIndex (f : Byte) (more : Bool) {s : State}
    {body : Host.Outcome State Fault Refusal} (h : s.estate = .ready → AnswersOrStateIndex s body) :
    AnswersOrStateIndex s (checkedOp f more s body) := by
  unfold checkedOp
  split
  · exact .inl ⟨_, rfl⟩
  · exact .inl ⟨_, rfl⟩
  · next he =>
    split
    · exact .inl ⟨_, rfl⟩
    · exact h he

theorem operation_answersOrStateIndex (f : Byte) (more : Bool) (buf : List Byte) (s : State) :
    AnswersOrStateIndex s (operation f more buf s) :=
  checkedOp_answersOrStateIndex f more (runOperate_answersOrStateIndex f buf more)

theorem execRecvMac_answersOrStateIndex (m more : Bool) (data : List Byte) (s : State) :
    AnswersOrStateIndex s (execRecvMac m more data s) := by
  refine checkedOp_answersOrStateIndex _ _ fun he => ?_
  cases more with
  | true => exact .inl ⟨_, rfl⟩
  | false => exact runOperate_answersOrStateIndex _ data false he

/-- INIT, SAVE and LOAD form no state index from `pos`; the other instructions are operations. -/
theorem exec_answersOrStateIndex (i : Instr) (s : State) : AnswersOrStateIndex s (exec i s) := by
  cases i with
  | recvMac m more data => exact execRecvMac_answersOrStateIndex m more data s
  | init level proto => exact .inl (execInit_completes level proto s)
  | save => exact .inl (execSave_completes s)
  | load img => exact .inl (execLoad_completes img s)
  | _ => exact operation_answersOrStateIndex _ _ _ s

/-! ## The stops of a step -/

/-- With nothing issued there is no step (R10). -/
theorem step_of_nothing_issued {s : State} (hi : s.inbox = []) : step s = .refused .noCommand := by
  simp only [step, hi]

/-- A triple that is not framed is no command (R348). -/
theorem stepCommand_of_not_framed {c : Command} (hf : framed c = false) (s : State) :
    stepCommand c s = .refused .malformedCommand := by
  simp only [stepCommand, (decode_misframed_iff c).2 hf]

theorem stepCommand_answersOrStateIndex {c : Command} (hf : framed c = true) (s : State) :
    AnswersOrStateIndex s (stepCommand c s) := by
  unfold stepCommand
  split
  · next i _ => exact exec_answersOrStateIndex i s
  · exact .inl ⟨_, rfl⟩
  · next hm => exact absurd (hf.symm.trans ((decode_misframed_iff c).1 hm)) nofun

/-- A step finds nothing issued, or takes a triple that is no command, or answers as an instruction does. -/
theorem step_answer_cases (s : State) :
    (s.inbox = [] ∧ step s = .refused .noCommand) ∨
    ((∃ c rest, s.inbox = .command c :: rest ∧ framed c = false) ∧ step s = .refused .malformedCommand) ∨
    AnswersOrStateIndex s (step s) := by
  cases hi : s.inbox with
  | nil => exact .inl ⟨rfl, step_of_nothing_issued hi⟩
  | cons e rest =>
    cases e with
    | reset => exact .inr (.inr (.inl ⟨_, step_isReset hi rfl⟩))
    | resetDuring c => exact .inr (.inr (.inl ⟨_, step_isReset hi rfl⟩))
    | command c =>
      rw [step_command hi]
      cases hf : framed c with
      | false => exact .inr (.inl ⟨⟨c, rest, rfl, hf⟩, stepCommand_of_not_framed hf _⟩)
      | true => exact .inr (.inr (stepCommand_answersOrStateIndex hf { s with inbox := rest }))

/-- Settles O48: by what a step can answer; each of the two refusals is the answer where its cause holds. -/
theorem theOnlyStops : Obligations.TheOnlyStops := by
  intro s
  refine ⟨fun r => ⟨fun h => ?_, ?_⟩, fun f h => ?_⟩
  · obtain ⟨hi, hs⟩ | ⟨hc, hs⟩ | hs := step_answer_cases s
    · exact .inl ⟨Host.Outcome.refused.inj (h.symm.trans hs), hi⟩
    · exact .inr ⟨Host.Outcome.refused.inj (h.symm.trans hs), hc⟩
    · exact absurd h (hs.not_refused r)
  · rintro (⟨rfl, hi⟩ | ⟨rfl, c, rest, hi, hf⟩)
    · exact step_of_nothing_issued hi
    · exact (step_command hi).trans (stepCommand_of_not_framed hf _)
  · obtain ⟨-, hs⟩ | ⟨-, hs⟩ | hs := step_answer_cases s
    · cases h.symm.trans hs
    · cases h.symm.trans hs
    · exact (h ▸ hs).ready_of_fault

end Sys2Proof.Machine
end
